-- ==== Sys2Proof/Word.lean ====
section
/-! DEFINITION. The words of SEQ-CORE: the 32-bit data word (R9), the two kinds of counter arithmetic (R18) and a raw
term offered to a port. -/

namespace Sys2Proof

/-- A data word: 32 bits (R9). Every binary32 value and every counter is held in one (R14). -/
abbrev Word := BitVec 32

/-- `wrap32(n + 1)`, the step of a wrapping counter (R18). -/
def wrapInc (n : Word) : Word := n + 1#32

/-- `sat32(n + 1)`, the step of a saturating counter (R18). -/
def satInc (n : Word) : Word := if n = 0xFFFFFFFF#32 then n else n + 1#32

/-- A term offered to a port: how many bits wide it is and the number its bits make, bit 0 the least significant
(R11). The formats of R100 and R103 are 51 and 66 bits wide; `decode` rejects any other term by name (R223, U11). -/
structure PortWord where
  width : Nat
  bits : Nat
deriving DecidableEq, Repr

end Sys2Proof
end

