-- ==== Sys2Proof/Config.lean ====
section
/-! DEFINITION. What an implementation fixes (R9, R10, R82), the configuration functions CALC (R140) and SPECTRUM
(R199), which are uninterpreted, and the free values (R17, R83). -/

namespace Sys2Proof

/-- A channel: index 0 is L, index 1 is R (R9). -/
inductive Channel where
  | L
  | R
deriving DecidableEq, Repr, Inhabited

/-- Who takes the next step (R83): the control port's host, the audio port's host, one analyzer, or the external reset
input (R241). -/
inductive Turn where
  | hostCtrl
  | hostAudio
  | ana (c : Channel)
  | resetInput
deriving DecidableEq, Repr, Inhabited

/-- The parameter DENORM of R10: full IEEE 754 subnormals, or flush-to-zero with denormals-are-zero. -/
inductive Denorm where
  | ieee
  | ftzDaz
deriving DecidableEq, Repr

/-- The configuration parameters of R10 that are plain data, and the platform's base address of the control space
(R82). They are arguments of the model and no state of the hardware (R30); log 1 says why they stand in `State`. -/
structure Params where
  fftOrder : Nat
  fifoBlock : Nat
  fifoCap : Nat
  hopBlocks : Nat
  snapEn : Bool
  denorm : Denorm
  base : Nat
deriving DecidableEq, Repr

/-- N = 2^FFT_ORDER (R10). -/
def Params.fftSize (p : Params) : Nat := 2 ^ p.fftOrder

/-- N/2, the number of bins of a snapshot (R53). -/
def Params.bins (p : Params) : Nat := p.fftSize / 2

/-- The legal ranges of R10. Any other configuration is not a SEQ-CORE and the model refuses it (R10, R223, U10). -/
def Params.legal (p : Params) : Bool :=
  decide (3 ≤ p.fftOrder) && decide (p.fftOrder ≤ 12) &&
  decide (1 ≤ p.fifoBlock) && decide (p.fifoBlock ≤ p.fftSize) && decide (p.fifoBlock ≤ 65535) &&
  decide (1 ≤ p.fifoCap) && decide (p.fifoCap ≤ 255) &&
  decide (1 ≤ p.hopBlocks) && decide (p.hopBlocks ≤ 65535)

/-- The values the spec takes when none is given (R10). The base address is the platform's (R82): 0 is a
DESIGN CHOICE (log 1) and no rule reads it. -/
def Params.default : Params where
  fftOrder := 12
  fifoBlock := 512
  fifoCap := 32
  hopBlocks := 1
  snapEn := true
  denorm := .ftzDaz
  base := 0

/-- The five coefficients of a second-order section, normalised so that a0 = 1 (R48). -/
structure Coefs where
  b0 : Word
  b1 : Word
  b2 : Word
  a1 : Word
  a2 : Word
deriving DecidableEq, Repr, Inhabited

/-- `CALC.peak(sr, f, q, g)` (R140): a deterministic function of the hardware, uninterpreted (log 6). -/
opaque Config.calcPeak : Word → Word → Word → Word → Coefs

/-- `CALC.lowcut(sr, f, order, j)` (R140): a deterministic function of the hardware, uninterpreted (log 6). -/
opaque Config.calcLowcut : Word → Word → Nat → Nat → Coefs

/-- `CALC.highcut(sr, f, order, j)` (R140): a deterministic function of the hardware, uninterpreted (log 6). -/
opaque Config.calcHighcut : Word → Word → Nat → Nat → Coefs

/-- What the hardware's SPECTRUM (R199) makes of the N buffer words and the FLOOR_DB word for bin `k`, before the
properties (b), (c) and (d) of R199 are imposed by `Machine.spectrum`. Uninterpreted (log 7). -/
opaque Config.spectrumBin : List Word → Word → Nat → Word

/-- The sign of the `n`-th drawn NaN (R17): a free value (log 4). -/
opaque Config.nanSign : Nat → Bool

/-- The fraction, less one, of the `n`-th drawn NaN (R17): a free value over the 2^23 - 1 nonzero fractions (log 4). -/
opaque Config.nanFraction : Nat → Fin 8388607

/-- Who steps next where the schedule of the state names nobody (R83, U14): a free value (log 3). -/
opaque Config.freeTurn : Nat → Turn

end Sys2Proof
end

