-- ==== Sys2Proof/Syntax.lean ====
section
/-! DEFINITION. The transactions of SEQ-CORE (R2), one constructor per row of spec/opcode_table.json, and the two ports
they arrive at. -/

namespace Sys2Proof

/-- The two ports of the block (R8, R100, R103). -/
inductive Port where
  | control
  | audio
deriving DecidableEq, Repr

/-- One transaction. A control-port write keeps its data word whole; bits that the rules ignore in every state
(WDATA of a read, XR and XL of BEGIN, END and the reserved beat) are no operands (log 10). -/
inductive Instr where
  /-- RD off (R111). -/
  | rd (off : BitVec 16)
  /-- WR off, d (R112), the general form; the decoder answers one of the rows below it (log 9). -/
  | wr (off : BitVec 16) (d : Word)
  /-- WR CTRL, d (R113). -/
  | wrCtrl (d : Word)
  /-- WR STATUS, d (R114). -/
  | wrStatus (d : Word)
  /-- WR SR, d (R115). -/
  | wrSr (d : Word)
  /-- WR PK_FREQ, d (R115). -/
  | wrPkFreq (d : Word)
  /-- WR PK_GAIN, d (R115). -/
  | wrPkGain (d : Word)
  /-- WR PK_Q, d (R115). -/
  | wrPkQ (d : Word)
  /-- WR LC_FREQ, d (R115). -/
  | wrLcFreq (d : Word)
  /-- WR HC_FREQ, d (R115). -/
  | wrHcFreq (d : Word)
  /-- WR FLOOR_DB, d (R115). -/
  | wrFloorDb (d : Word)
  /-- WR MODE, d (R116). -/
  | wrMode (d : Word)
  /-- WR to a mapped read-only offset (R117). -/
  | wrReadOnly (off : BitVec 16) (d : Word)
  /-- WR CMD, 0x00000000 (R119). -/
  | nop
  /-- WR CMD, 0x00000001 (R120). -/
  | commit
  /-- WR CMD, 0x00000002 (R121). -/
  | prepare
  /-- WR CMD, 0x00000003 (R122). -/
  | specAcqL
  /-- WR CMD, 0x00000103 (R122). -/
  | specAcqR
  /-- WR CMD, 0x0000000F (R123). -/
  | softReset
  /-- WR CMD with a reserved command word (R124). -/
  | reservedCmd (w : Word)
  /-- A `ctl51` request of a wrong size, or at a misaligned or unmapped address (R81, R101). -/
  | illegalCtl (size : BitVec 2) (we : Bool) (addr : BitVec 16) (wdata : Word)
  /-- FRAME xl, xr (R154). -/
  | frame (xl xr : Word)
  /-- BEGIN (R152). -/
  | beginBlock
  /-- END (R155). -/
  | endBlock
  /-- A beat with TAG = 0b11 (R157). -/
  | reservedBeat
deriving DecidableEq, Repr

/-- The port a transaction arrives at (R100, R103). -/
def Instr.port : Instr → Port
  | .frame _ _ | .beginBlock | .endBlock | .reservedBeat => .audio
  | .rd _ | .wr _ _ | .wrCtrl _ | .wrStatus _ | .wrSr _ | .wrPkFreq _ | .wrPkGain _ | .wrPkQ _ | .wrLcFreq _
  | .wrHcFreq _ | .wrFloorDb _ | .wrMode _ | .wrReadOnly _ _ | .nop | .commit | .prepare | .specAcqL | .specAcqR
  | .softReset | .reservedCmd _ | .illegalCtl _ _ _ _ => .control

end Sys2Proof
end

