-- ==== Sys2Proof/Machine/AddressMap.lean ====
section
/-! DEFINITION. The control space (R70, R71, R79): which register, window word or command a 16-bit byte offset names. -/

namespace Sys2Proof.Machine

/-- The nine sections of a channel in cascade order (R9, R148). -/
inductive SecId where
  | lc0
  | lc1
  | lc2
  | lc3
  | pk
  | hc0
  | hc1
  | hc2
  | hc3
deriving DecidableEq, Repr

/-- s = 0..8 (R9): LC0..LC3, PK, HC0..HC3, the order of the cascade (R148). -/
def SecId.order : List SecId := [.lc0, .lc1, .lc2, .lc3, .pk, .hc0, .hc1, .hc2, .hc3]

/-- The low-cut sections, index 0 first. -/
def SecId.lowcut : List SecId := [.lc0, .lc1, .lc2, .lc3]

/-- The high-cut sections, index 0 first. -/
def SecId.highcut : List SecId := [.hc0, .hc1, .hc2, .hc3]

/-- The six staged binary32 registers (R40). -/
inductive Setting where
  | sr
  | pkFreq
  | pkGain
  | pkQ
  | lcFreq
  | hcFreq
deriving DecidableEq, Repr

/-- What a mapped, aligned offset names (R79). -/
inductive Loc where
  | id
  | cfg0
  | cfg1
  | ctrl
  | status
  | cmd
  | coefGen
  | floorDb
  | staged (r : Setting)
  | mode
  | committed (r : Setting)
  | committedMode
  | actFlags
  | fifoLvl (c : Channel)
  | fifoOvr (c : Channel)
  | specSeq (c : Channel)
  | specAvail (c : Channel)
  | blkCnt
  | frameCnt
  /-- Word `j` of section `s` in the coefficient window (R50). -/
  | coef (s : SecId) (j : Nat)
  /-- Bin `k` in the spectrum window of channel `c` (R80). -/
  | bin (c : Channel) (k : Nat)
deriving DecidableEq, Repr

/-- The registers of the map, each with its offset (R79; R32..R47 give the single offsets). -/
def registerMap : List (Nat × Loc) :=
  [(0x0000, .id), (0x0004, .cfg0), (0x0008, .cfg1), (0x000C, .ctrl), (0x0010, .status), (0x0014, .cmd),
   (0x0018, .coefGen), (0x001C, .floorDb),
   (0x0020, .staged .sr), (0x0024, .staged .pkFreq), (0x0028, .staged .pkGain), (0x002C, .staged .pkQ),
   (0x0030, .staged .lcFreq), (0x0034, .staged .hcFreq), (0x0038, .mode),
   (0x0040, .committed .sr), (0x0044, .committed .pkFreq), (0x0048, .committed .pkGain), (0x004C, .committed .pkQ),
   (0x0050, .committed .lcFreq), (0x0054, .committed .hcFreq), (0x0058, .committedMode),
   (0x0060, .actFlags),
   (0x0070, .fifoLvl .L), (0x0074, .fifoLvl .R), (0x0078, .fifoOvr .L), (0x007C, .fifoOvr .R),
   (0x0080, .specSeq .L), (0x0084, .specSeq .R), (0x0088, .specAvail .L), (0x008C, .specAvail .R),
   (0x0090, .blkCnt), (0x0094, .frameCnt)]

/-- The windows of the map (R50, R79, R80): section `s`, word `j` at 0x200 + 0x20 s + 4 j; bin `k` of L at 0x4000 + 4 k
and of R at 0x6000 + 4 k. -/
def windowLoc (a : Nat) : Option Loc :=
  if 0x200 ≤ a ∧ a < 0x320 then
    (SecId.order[(a - 0x200) / 0x20]?).map fun s => .coef s ((a - 0x200) % 0x20 / 4)
  else if 0x4000 ≤ a ∧ a < 0x6000 then some (.bin .L ((a - 0x4000) / 4))
  else if 0x6000 ≤ a ∧ a < 0x8000 then some (.bin .R ((a - 0x6000) / 4))
  else none

/-- Address bits [1:0] are 0b00 (R74). -/
def aligned (off : BitVec 16) : Bool := off.toNat % 4 == 0

/-- What the word at an aligned offset is; `none` where the offset is misaligned (R74) or unmapped (R79), the two
address conditions of R81. -/
def locate (off : BitVec 16) : Option Loc :=
  if aligned off then (registerMap.lookup off.toNat).or (windowLoc off.toNat) else none

/-- A request at this offset gets no error response for its address (R81). -/
def mapped (off : BitVec 16) : Bool := (locate off).isSome

/-- The offset is mapped and a write to it is ignored (R117). -/
def Loc.readOnly : Loc → Bool
  | .ctrl | .status | .cmd | .floorDb | .staged _ | .mode => false
  | .id | .cfg0 | .cfg1 | .coefGen | .committed _ | .committedMode | .actFlags | .fifoLvl _ | .fifoOvr _ | .specSeq _
  | .specAvail _ | .blkCnt | .frameCnt | .coef _ _ | .bin _ _ => true

end Sys2Proof.Machine
end

