-- ==== Sys2Proof/WellFormed.lean ====
section
/-! DEFINITION. When a transaction is one its row describes: the operand conditions of R101, R104 and R117. -/

namespace Sys2Proof

/-- The six defined command words (R104). -/
def definedCommands : List Word :=
  [0x00000000#32, 0x00000001#32, 0x00000002#32, 0x00000003#32, 0x00000103#32, 0x0000000F#32]

/-- A `ctl51` request that is RD or WR (R101): word size, aligned, mapped. -/
def legalRequest (size : BitVec 2) (addr : BitVec 16) : Bool := size == 0b10#2 && Machine.mapped addr

/-- The check of each transaction. Operands without a condition are legal at every value (R41, R42, R107). -/
def Instr.wellFormed : Instr → Bool
  | .rd off => Machine.mapped off
  | .wr off _ => Machine.mapped off
  | .wrReadOnly off _ => (Machine.locate off).any Machine.Loc.readOnly
  | .reservedCmd w => !(definedCommands.contains w)
  | .illegalCtl size _ addr _ => !(legalRequest size addr)
  | .wrCtrl _ | .wrStatus _ | .wrSr _ | .wrPkFreq _ | .wrPkGain _ | .wrPkQ _ | .wrLcFreq _ | .wrHcFreq _
  | .wrFloorDb _ | .wrMode _ | .nop | .commit | .prepare | .specAcqL | .specAcqR | .softReset | .frame _ _
  | .beginBlock | .endBlock | .reservedBeat => true

end Sys2Proof
end

