-- ==== Sys2Proof/Decode.lean ====
section
/-! DEFINITION. Decoding of port words (R100..R105, R107, R108), total on any term and rejecting by name what is neither
a `ctl51` nor an `aud66` value (U11); then the encoder, written from the same tables. -/

namespace Sys2Proof

/-- Why a term is no transaction (R223, U11). -/
inductive DecodeError where
  /-- The control port was offered a term that is not 51 bits wide (R100). -/
  | notCtl51 (w : PortWord)
  /-- The audio port was offered a term that is not 66 bits wide (R103). -/
  | notAud66 (w : PortWord)
deriving DecidableEq, Repr

/-- SIZE, bits [50:49] of a `ctl51` request (R100). -/
def ctlSize (r : BitVec 51) : BitVec 2 := r.extractLsb' 49 2
/-- WE, bit [48] (R100). -/
def ctlWe (r : BitVec 51) : Bool := r.getLsbD 48
/-- ADDR, bits [47:32] (R100). -/
def ctlAddr (r : BitVec 51) : BitVec 16 := r.extractLsb' 32 16
/-- WDATA, bits [31:0] (R100). -/
def ctlData (r : BitVec 51) : Word := r.extractLsb' 0 32

/-- TAG, bits [65:64] of an `aud66` beat (R103). -/
def audTag (b : BitVec 66) : BitVec 2 := b.extractLsb' 64 2
/-- XR, bits [63:32] (R103). -/
def audXr (b : BitVec 66) : Word := b.extractLsb' 32 32
/-- XL, bits [31:0] (R103). -/
def audXl (b : BitVec 66) : Word := b.extractLsb' 0 32

/-- The command word of a WR to CMD (R104). -/
def decodeCmd (w : Word) : Instr :=
  if w = 0x00000000#32 then .nop
  else if w = 0x00000001#32 then .commit
  else if w = 0x00000002#32 then .prepare
  else if w = 0x00000003#32 then .specAcqL
  else if w = 0x00000103#32 then .specAcqR
  else if w = 0x0000000F#32 then .softReset
  else .reservedCmd w

/-- The staged register a WR names (R115). -/
def decodeStaged (d : Word) : Machine.Setting → Instr
  | .sr => .wrSr d
  | .pkFreq => .wrPkFreq d
  | .pkGain => .wrPkGain d
  | .pkQ => .wrPkQ d
  | .lcFreq => .wrLcFreq d
  | .hcFreq => .wrHcFreq d

/-- The row of a legal WR: the most specific one, by the case list of R112. -/
def decodeWrite (off : BitVec 16) (d : Word) : Instr :=
  match Machine.locate off with
  | none => .illegalCtl 0b10#2 true off d
  | some .ctrl => .wrCtrl d
  | some .status => .wrStatus d
  | some .cmd => decodeCmd d
  | some .floorDb => .wrFloorDb d
  | some (.staged r) => decodeStaged d r
  | some .mode => .wrMode d
  | some _ => .wrReadOnly off d

/-- A `ctl51` request (R101): every 51-bit value is one transaction. -/
def decodeCtl (r : BitVec 51) : Instr :=
  if legalRequest (ctlSize r) (ctlAddr r) then
    if ctlWe r then decodeWrite (ctlAddr r) (ctlData r) else .rd (ctlAddr r)
  else .illegalCtl (ctlSize r) (ctlWe r) (ctlAddr r) (ctlData r)

/-- An `aud66` beat (R105): every 66-bit value is one transaction. -/
def decodeAud (b : BitVec 66) : Instr :=
  if audTag b = 0b00#2 then .frame (audXl b) (audXr b)
  else if audTag b = 0b01#2 then .beginBlock
  else if audTag b = 0b10#2 then .endBlock
  else .reservedBeat

/-- The number of bits of a port's format (R109). -/
def Port.width : Port → Nat
  | .control => 51
  | .audio => 66

/-- Does the term have its port's format (R109)? -/
def PortWord.fits (p : Port) (w : PortWord) : Bool := w.width == p.width && decide (w.bits < 2 ^ p.width)

/-- The decoder: what a term offered to a port is. -/
def decode (p : Port) (w : PortWord) : Except DecodeError Instr :=
  match p with
  | .control => if w.fits .control then .ok (decodeCtl (BitVec.ofNat 51 w.bits)) else .error (.notCtl51 w)
  | .audio => if w.fits .audio then .ok (decodeAud (BitVec.ofNat 66 w.bits)) else .error (.notAud66 w)

/-- The port and the term of a row of spec/opcode_table.json whose bits, in whole bytes, are `nbits`: the 51 bits of
`ctl51` take 56 and the 66 bits of `aud66` take 72 (log 11). -/
def tableTerm (nbits w : Nat) : Port × PortWord :=
  if nbits ≤ 64 then (.control, { width := 51, bits := w }) else (.audio, { width := 66, bits := w })

/-- The instruction the decoder reads from a word numbered as spec/opcode_table.json numbers it. -/
def decodeTableWord (nbits w : Nat) : Option Instr :=
  match decode (tableTerm nbits w).1 (tableTerm nbits w).2 with
  | .ok i => some i
  | .error _ => none

/-! The encoder. -/

/-- A `ctl51` request from its fields (R100). -/
def ctlWord (size : BitVec 2) (we : Bool) (addr : BitVec 16) (wdata : Word) : BitVec 51 :=
  size ++ BitVec.ofBool we ++ addr ++ wdata

/-- An `aud66` beat from its fields (R103). -/
def audWord (tag : BitVec 2) (xr xl : Word) : BitVec 66 := tag ++ xr ++ xl

/-- `WR off, d` (R110). -/
def wrWord (off : BitVec 16) (d : Word) : BitVec 51 := ctlWord 0b10#2 true off d

/-- A control request as a term of the control port. -/
def ctlTerm (r : BitVec 51) : PortWord := { width := 51, bits := r.toNat }

/-- An audio beat as a term of the audio port. -/
def audTerm (b : BitVec 66) : PortWord := { width := 66, bits := b.toNat }

/-- The term of a transaction (R100..R105, R110). Fields that the transaction ignores are 0 (R110, log 10). -/
def encode : Instr → PortWord
  | .rd off => ctlTerm (ctlWord 0b10#2 false off 0#32)
  | .wr off d => ctlTerm (wrWord off d)
  | .wrCtrl d => ctlTerm (wrWord 0x000C#16 d)
  | .wrStatus d => ctlTerm (wrWord 0x0010#16 d)
  | .wrSr d => ctlTerm (wrWord 0x0020#16 d)
  | .wrPkFreq d => ctlTerm (wrWord 0x0024#16 d)
  | .wrPkGain d => ctlTerm (wrWord 0x0028#16 d)
  | .wrPkQ d => ctlTerm (wrWord 0x002C#16 d)
  | .wrLcFreq d => ctlTerm (wrWord 0x0030#16 d)
  | .wrHcFreq d => ctlTerm (wrWord 0x0034#16 d)
  | .wrFloorDb d => ctlTerm (wrWord 0x001C#16 d)
  | .wrMode d => ctlTerm (wrWord 0x0038#16 d)
  | .wrReadOnly off d => ctlTerm (wrWord off d)
  | .nop => ctlTerm (wrWord 0x0014#16 0x00000000#32)
  | .commit => ctlTerm (wrWord 0x0014#16 0x00000001#32)
  | .prepare => ctlTerm (wrWord 0x0014#16 0x00000002#32)
  | .specAcqL => ctlTerm (wrWord 0x0014#16 0x00000003#32)
  | .specAcqR => ctlTerm (wrWord 0x0014#16 0x00000103#32)
  | .softReset => ctlTerm (wrWord 0x0014#16 0x0000000F#32)
  | .reservedCmd w => ctlTerm (wrWord 0x0014#16 w)
  | .illegalCtl size we addr wdata => ctlTerm (ctlWord size we addr wdata)
  | .frame xl xr => audTerm (audWord 0b00#2 xr xl)
  | .beginBlock => audTerm (audWord 0b01#2 0#32 0#32)
  | .endBlock => audTerm (audWord 0b10#2 0#32 0#32)
  | .reservedBeat => audTerm (audWord 0b11#2 0#32 0#32)

/-- The row the decoder answers for a transaction: the general WR resolves to its specific row (R112, log 9), every
other transaction to itself. -/
def Instr.resolve : Instr → Instr
  | .wr off d => decodeWrite off d
  | i => i

end Sys2Proof
end

