-- ==== Sys2Proof/Machine/State.lean ====
section
/-! DEFINITION. The state of SEQ-CORE (R30), the reasons a step can stop (R223), and the reset values (R244).
Plain data: memories are lists of cells, and no field is a function. -/

namespace Sys2Proof.Machine

/-- An internal memory (R78): element index and word, for the elements that do not hold +0.0. The canonical form is
`Memory.wf` (Ops.lean); an element that is not listed reads +0.0 (log 12; for ring and acc, log 5). -/
abbrev Memory := List (Nat × Word)

/-- CTRL (R35); the reserved bits hold nothing. -/
structure Ctrl where
  anaEn : Bool
  tap : Bool
deriving DecidableEq, Repr

/-- MODE (R42); the reserved bits hold nothing. -/
structure Mode where
  lcSlope : BitVec 2
  hcSlope : BitVec 2
  lcByp : Bool
  pkByp : Bool
  hcByp : Bool
deriving DecidableEq, Repr

/-- ChainSettings, as staged (R40, R42) or as committed (R44). -/
structure Settings where
  sr : Word
  pkFreq : Word
  pkGain : Word
  pkQ : Word
  lcFreq : Word
  hcFreq : Word
  mode : Mode
deriving DecidableEq, Repr

/-- The sticky W1C bits of STATUS (R36). -/
structure Sticky where
  cfgErrLc : Bool
  cfgErrPk : Bool
  cfgErrHc : Bool
  ovrL : Bool
  ovrR : Bool
  protoErr : Bool
  cmdErr : Bool
  busErr : Bool
deriving DecidableEq, Repr

/-- One second-order section `sec[c][s]` (R48). -/
structure Section where
  coef : Coefs
  s1 : Word
  s2 : Word
deriving DecidableEq, Repr

/-- The nine sections `sec[c][0..8]` (R9, R48). -/
structure Cascade where
  lc0 : Section
  lc1 : Section
  lc2 : Section
  lc3 : Section
  pk : Section
  hc0 : Section
  hc1 : Section
  hc2 : Section
  hc3 : Section
deriving DecidableEq, Repr

/-- The FIFO `fifo[c]` (R51). Sample `i` of ring slot `j` is the element `j * B + i` of `ring`. -/
structure Fifo where
  ring : Memory
  w : Word
  r : Word
  wp : Nat
  rp : Nat
  acc : Memory
  k : Nat
  ovr : Word
deriving DecidableEq, Repr

/-- The analyzer `ana[c]` (R52); element 0 of `abuf` is the oldest sample. -/
structure Analyzer where
  abuf : Memory
  fresh : Nat
deriving DecidableEq, Repr

/-- The spectrum output `spec[c]` (R53). -/
structure Spectrum where
  gen : Word
  pub : Memory
  acq : Memory
  acqGen : Word
  avail : Word
deriving DecidableEq, Repr

/-- All state of one channel (R30 (b), (d), (e), (f)); bit `i` of `enLc` is `en[c][LC][i]` (R49). -/
structure Chan where
  sec : Cascade
  enLc : BitVec 4
  enHc : BitVec 4
  bypLc : Bool
  bypPk : Bool
  bypHc : Bool
  fifo : Fifo
  ana : Analyzer
  spec : Spectrum
deriving DecidableEq, Repr

/-- A control-port response: RDATA and ERR (R100). -/
structure Resp where
  rdata : Word
  err : Bool
deriving DecidableEq, Repr

/-- The state: the registers of R32..R47 that hold a value, the two channels (R48..R53), IN_BLOCK (R54), and after them
the model's own fields: the parameters (log 1), the ports and the schedule (log 2), the index of the next free value
(log 3, log 4). -/
structure State where
  ctrl : Ctrl
  dirty : Bool
  inBlock : Bool
  sticky : Sticky
  coefGen : Word
  floorDb : Word
  staged : Settings
  committed : Settings
  blkCnt : Word
  frameCnt : Word
  l : Chan
  r : Chan
  /-- The parameters of R10 and R82, which no step changes. -/
  cfg : Params
  /-- Requests not yet taken, in issue order (R84). -/
  ctrlIn : List PortWord
  /-- Beats not yet taken, in stream order (R84, R106). -/
  audioIn : List PortWord
  /-- Responses given, oldest first (R84, R100). -/
  ctrlOut : List Resp
  /-- Output beats emitted, oldest first: YR in [63:32], YL in [31:0] (R103, R106). -/
  audioOut : List (BitVec 64)
  /-- Who takes the coming steps (R83); where it is empty the turn is a free value. -/
  sched : List Turn
  /-- The index of the next free value. -/
  draws : Nat
deriving DecidableEq, Repr

/-- SEQ-CORE has no fault: every transaction and agent step completes (R219, R221, R224), so no step can answer one. -/
inductive Fault where
deriving DecidableEq, Repr

/-- Why a step has no meaning. -/
inductive Refusal where
  /-- Raised by an arm of `exec` that has no meaning yet; safe. No arm raises it. -/
  | notModelled (mnemonic : String)
  /-- Raised by `step` where the parameters lie outside R10: such a device is not a SEQ-CORE (R10, R223, U10); safe. -/
  | illegalConfiguration (p : Params)
  /-- Raised by `step` where a port is offered a term of another width (R223, U11); safe. -/
  | notATransaction (e : DecodeError)
deriving DecidableEq, Repr

/-- The staged settings after reset (R40, R42). -/
def Settings.reset : Settings where
  sr := 0x473B8000#32
  pkFreq := 0x443B8000#32
  pkGain := 0x00000000#32
  pkQ := 0x3F800000#32
  lcFreq := 0x41A00000#32
  hcFreq := 0x469C4000#32
  mode := { lcSlope := 0#2, hcSlope := 0#2, lcByp := false, pkByp := false, hcByp := false }

/-- Every sticky bit 0 (R36). -/
def Sticky.clear : Sticky := ⟨false, false, false, false, false, false, false, false⟩

/-- The identity section with zero state (R48). -/
def Section.reset : Section where
  coef := { b0 := 0x3F800000#32, b1 := 0#32, b2 := 0#32, a1 := 0#32, a2 := 0#32 }
  s1 := 0#32
  s2 := 0#32

/-- One channel after reset (R48, R49, R51, R52, R53). The contents of ring and acc are unspecified (R245); R51 lets a
model start them with any values: +0.0, DESIGN CHOICE (log 5). -/
def Chan.reset : Chan where
  sec := ⟨.reset, .reset, .reset, .reset, .reset, .reset, .reset, .reset, .reset⟩
  enLc := 0#4
  enHc := 0#4
  bypLc := false
  bypPk := false
  bypHc := false
  fifo := { ring := [], w := 0#32, r := 0#32, wp := 0, rp := 0, acc := [], k := 0, ovr := 0#32 }
  ana := { abuf := [], fresh := 0 }
  spec := { gen := 0#32, pub := [], acq := [], acqGen := 0#32, avail := 0#32 }

/-- The machine right after reset (R244), under the parameter values the spec takes when none is given (R10), with
nothing at the ports (log 2). -/
def State.reset : State where
  ctrl := { anaEn := true, tap := false }
  dirty := true
  inBlock := false
  sticky := .clear
  coefGen := 0#32
  floorDb := 0xC2400000#32
  staged := .reset
  committed := .reset
  blkCnt := 0#32
  frameCnt := 0#32
  l := .reset
  r := .reset
  cfg := .default
  ctrlIn := []
  audioIn := []
  ctrlOut := []
  audioOut := []
  sched := []
  draws := 0

end Sys2Proof.Machine
end

