-- ==== Sys2Proof/Machine/Float.lean ====
section
/-! DEFINITION. binary32 (R13, R14, R73) and the datapath operations fadd, fsub and fmul (R15, R16, R17), exact over the
integers: every finite binary32 value is a whole multiple of 2^-149. -/

namespace Sys2Proof.Machine

/-- Bit 31, the sign (R73). -/
def signBit (w : Word) : Bool := w.getLsbD 31

/-- Bits [30:23], the biased exponent (R73). -/
def expField (w : Word) : Nat := (w.extractLsb' 23 8).toNat

/-- Bits [22:0], the fraction (R73). -/
def fracField (w : Word) : Nat := (w.extractLsb' 0 23).toNat

/-- A NaN: exponent field 0xFF, nonzero fraction (R17). -/
def isNaN (w : Word) : Bool := expField w == 255 && fracField w != 0

/-- ±∞. -/
def isInf (w : Word) : Bool := expField w == 255 && fracField w == 0

/-- Neither NaN nor ±∞. -/
def isFinite (w : Word) : Bool := expField w != 255

/-- Nonzero with magnitude below 2^-126 (R15). -/
def isSubnormal (w : Word) : Bool := expField w == 0 && fracField w != 0

/-- A zero of either sign. -/
def isZero (w : Word) : Bool := expField w == 0 && fracField w == 0

/-- The magnitude of a finite word in units of 2^-149. For ±∞ it is 2^277, above every finite magnitude, so that
comparisons need no case of their own. -/
def magnitude (w : Word) : Nat :=
  if expField w = 0 then fracField w else (2 ^ 23 + fracField w) * 2 ^ (expField w - 1)

/-- `val(w)` in units of 2^-149 (R13). -/
def scaled (w : Word) : Int := if signBit w then -(magnitude w : Int) else (magnitude w : Int)

/-- `x < y` on binary32 values; false where either is NaN (R17). -/
def fless (x y : Word) : Bool := !isNaN x && !isNaN y && decide (scaled x < scaled y)

/-- The word with sign `neg` and the 31 lower bits `m`. -/
def pack (neg : Bool) (m : Nat) : Word := BitVec.ofNat 32 ((if neg then 2 ^ 31 else 0) + m)

/-- The 31 lower bits of `b32(r)` (R13) for the real magnitude r = n · 2^-(149 + sh): nearest, ties to even, gradual
underflow, overflow to ∞. `drop` low bits of `n` lie below the last place of the result. -/
def roundMag (n sh : Nat) : Nat :=
  let drop := max (Nat.log2 n + 1 - 24) sh
  let q := n / 2 ^ drop
  let rest := n % 2 ^ drop
  let up := if 2 * rest > 2 ^ drop ∨ (2 * rest = 2 ^ drop ∧ q % 2 = 1) then 1 else 0
  min ((drop - sh) * 2 ^ 23 + q + up) 0x7F800000

/-- Under FTZ_DAZ a subnormal becomes a zero of its sign (R15 steps 1 and 5). -/
def flush (d : Denorm) (w : Word) : Word :=
  match d with
  | .ieee => w
  | .ftzDaz => if isSubnormal w then pack (signBit w) 0 else w

/-- The `n`-th drawn NaN (R17, U1): any word with exponent field 0xFF and a nonzero fraction, a free value (log 4). -/
def nanDraw (n : Nat) : Word := pack (Config.nanSign n) (0x7F800000 + 1 + (Config.nanFraction n).val)

/-- `−b` in R15: the sign bit flipped. -/
def fneg (b : Word) : Word := b ^^^ 0x80000000#32

/-- The exact sum of two flushed operands, rounded once (R15 steps 2 to 5); `n` indexes the NaN draw. -/
def addFlushed (d : Denorm) (n : Nat) (a b : Word) : Word :=
  if isNaN a || isNaN b || (isInf a && isInf b && signBit a != signBit b) then nanDraw n
  else if isInf a then a
  else if isInf b then b
  else if scaled a + scaled b = 0 then pack (signBit a && signBit b) 0
  else flush d (pack (decide (scaled a + scaled b < 0)) (roundMag (scaled a + scaled b).natAbs 0))

/-- `fadd(a, b)` (R15). -/
def fadd (d : Denorm) (n : Nat) (a b : Word) : Word := addFlushed d n (flush d a) (flush d b)

/-- `fsub(a, b)` is `fadd(a, −b)` (R15). -/
def fsub (d : Denorm) (n : Nat) (a b : Word) : Word := fadd d n a (fneg b)

/-- The exact product of two flushed operands, rounded once (R15 steps 2 to 5). -/
def mulFlushed (d : Denorm) (n : Nat) (a b : Word) : Word :=
  let neg := signBit a != signBit b
  if isNaN a || isNaN b || (isInf a && isZero b) || (isZero a && isInf b) then nanDraw n
  else if isInf a || isInf b then pack neg 0x7F800000
  else flush d (pack neg (roundMag (magnitude a * magnitude b) 149))

/-- `fmul(a, b)` (R15). -/
def fmul (d : Denorm) (n : Nat) (a b : Word) : Word := mulFlushed d n (flush d a) (flush d b)

/-- T = b32(1e-8) (R151). -/
def snapThreshold : Word := 0x322BCC77#32

/-- `snap(w)` (R151): +0.0 unless w < -T or w > T. -/
def snap (w : Word) : Word :=
  if fless w (fneg snapThreshold) || fless snapThreshold w then w else 0#32

end Sys2Proof.Machine
end

