-- ==== Sys2Proof/Machine/Flags.lean ====
section
/-! DEFINITION. The words software reads from flag state and the flag state a written word gives: STATUS (R36, R114),
CTRL (R35, R113), MODE (R42, R116), ACT_FLAGS (R45), CFG0 and CFG1 (R33, R34). -/

namespace Sys2Proof.Machine

/-- A word with bit `i` set to `b` and the other bits 0. -/
def bitAt (b : Bool) (i : Nat) : Word := if b then 1#32 <<< i else 0#32

/-- The error conditions (R211). -/
inductive ErrorBit where
  | cfgErrLc
  | cfgErrPk
  | cfgErrHc
  | ovr (c : Channel)
  | protoErr
  | cmdErr
  | busErr
deriving DecidableEq, Repr

/-- The code of a condition: the position of its STATUS bit (R211). -/
def ErrorBit.code : ErrorBit → Nat
  | .cfgErrLc => 4
  | .cfgErrPk => 5
  | .cfgErrHc => 6
  | .ovr .L => 8
  | .ovr .R => 9
  | .protoErr => 12
  | .cmdErr => 13
  | .busErr => 14

/-- The sticky bit of a condition. -/
def Sticky.get (f : Sticky) : ErrorBit → Bool
  | .cfgErrLc => f.cfgErrLc
  | .cfgErrPk => f.cfgErrPk
  | .cfgErrHc => f.cfgErrHc
  | .ovr .L => f.ovrL
  | .ovr .R => f.ovrR
  | .protoErr => f.protoErr
  | .cmdErr => f.cmdErr
  | .busErr => f.busErr

/-- Set the sticky bit of a condition (R13 `raise`). -/
def Sticky.set (f : Sticky) : ErrorBit → Sticky
  | .cfgErrLc => { f with cfgErrLc := true }
  | .cfgErrPk => { f with cfgErrPk := true }
  | .cfgErrHc => { f with cfgErrHc := true }
  | .ovr .L => { f with ovrL := true }
  | .ovr .R => { f with ovrR := true }
  | .protoErr => { f with protoErr := true }
  | .cmdErr => { f with cmdErr := true }
  | .busErr => { f with busErr := true }

/-- Every W1C bit whose bit in `d` is 1 becomes 0 (R114). -/
def Sticky.writeOneToClear (f : Sticky) (d : Word) : Sticky where
  cfgErrLc := f.cfgErrLc && !d.getLsbD 4
  cfgErrPk := f.cfgErrPk && !d.getLsbD 5
  cfgErrHc := f.cfgErrHc && !d.getLsbD 6
  ovrL := f.ovrL && !d.getLsbD 8
  ovrR := f.ovrR && !d.getLsbD 9
  protoErr := f.protoErr && !d.getLsbD 12
  cmdErr := f.cmdErr && !d.getLsbD 13
  busErr := f.busErr && !d.getLsbD 14

/-- The sticky bits at their positions (R36). -/
def Sticky.word (f : Sticky) : Word :=
  bitAt f.cfgErrLc 4 ||| bitAt f.cfgErrPk 5 ||| bitAt f.cfgErrHc 6 ||| bitAt f.ovrL 8 ||| bitAt f.ovrR 9 |||
  bitAt f.protoErr 12 ||| bitAt f.cmdErr 13 ||| bitAt f.busErr 14

/-- STATUS (R36); SPEC_NEW_c reads 1 exactly when `spec[c].avail ≠ 0`. -/
def statusWord (s : State) : Word :=
  bitAt s.dirty 0 ||| bitAt s.inBlock 1 ||| s.sticky.word |||
  bitAt (s.l.spec.avail != 0#32) 16 ||| bitAt (s.r.spec.avail != 0#32) 17

/-- CTRL (R35). -/
def Ctrl.word (x : Ctrl) : Word := bitAt x.anaEn 0 ||| bitAt x.tap 1

/-- What a write of `d` leaves in CTRL (R113). -/
def Ctrl.ofWord (d : Word) : Ctrl where
  anaEn := d.getLsbD 0
  tap := d.getLsbD 1

/-- MODE (R42). -/
def Mode.word (m : Mode) : Word :=
  m.lcSlope.setWidth 32 ||| (m.hcSlope.setWidth 32 <<< 2) ||| bitAt m.lcByp 8 ||| bitAt m.pkByp 9 ||| bitAt m.hcByp 10

/-- What a write of `d` leaves in MODE (R116). -/
def Mode.ofWord (d : Word) : Mode where
  lcSlope := d.extractLsb' 0 2
  hcSlope := d.extractLsb' 2 2
  lcByp := d.getLsbD 8
  pkByp := d.getLsbD 9
  hcByp := d.getLsbD 10

/-- ACT_FLAGS of a channel (R45). -/
def Chan.actFlags (x : Chan) : Word :=
  x.enLc.setWidth 32 ||| (x.enHc.setWidth 32 <<< 8) ||| bitAt x.bypLc 16 ||| bitAt x.bypPk 17 ||| bitAt x.bypHc 18

/-- CFG0 (R33). -/
def cfg0Word (p : Params) : Word :=
  BitVec.ofNat 32 p.fftOrder ||| (BitVec.ofNat 32 p.fifoCap <<< 8) ||| bitAt p.snapEn 16 ||| bitAt (p.denorm == .ftzDaz) 17

/-- CFG1 (R34). -/
def cfg1Word (p : Params) : Word := BitVec.ofNat 32 p.fifoBlock ||| (BitVec.ofNat 32 p.hopBlocks <<< 16)

/-- The constant of ID (R32). -/
def idWord : Word := 0x53455107#32

end Sys2Proof.Machine
end

