-- ==== Sys2Proof/Machine/Ops.lean ====
section
/-! DEFINITION. The shared operations: memories (R78), access to channels and sections (R12), `raise` (R13), the
control-port response (R100), the output beat (R106) and the reset event (R241). -/

namespace Sys2Proof.Machine

/-! Memories: `MemRead` and `MemWrite` (R13, R78). -/

/-- `MemRead`: element `i`; an element that is not listed holds +0.0. -/
def Memory.read (m : Memory) (i : Nat) : Word := (m.lookup i).getD 0#32

/-- `MemWrite`: element `i` becomes `v`. Keeps the canonical form: a written +0.0 is not listed. -/
def Memory.write : Memory → Nat → Word → Memory
  | [], i, v => if v = 0#32 then [] else [(i, v)]
  | (j, u) :: rest, i, v =>
    if i < j then (if v = 0#32 then (j, u) :: rest else (i, v) :: (j, u) :: rest)
    else if i = j then (if v = 0#32 then rest else (i, v) :: rest)
    else (j, u) :: Memory.write rest i v

/-- The canonical form: indices strictly rising, no listed +0.0. -/
def Memory.wf (m : Memory) : Bool :=
  decide (m.Pairwise fun x y => x.1 < y.1) && m.all fun x => x.2 != 0#32

/-- Every listed index is below `n`, the number of elements of the space (R78). -/
def Memory.below (m : Memory) (n : Nat) : Bool := m.all fun x => decide (x.1 < n)

/-- Write the words of a list to consecutive elements from `i` on. -/
def Memory.writeAll (m : Memory) (i : Nat) : List Word → Memory
  | [] => m
  | v :: vs => Memory.writeAll (m.write i v) (i + 1) vs

/-- The `n` elements from `i` on. -/
def Memory.readAll (m : Memory) (i n : Nat) : List Word := (List.range n).map fun t => m.read (i + t)

/-- Elements `b` to `n - 1` moved down by `b` places, their old places left at +0.0 (R195, first line). -/
def Memory.shiftDown (m : Memory) (b n : Nat) : Memory :=
  (m.filter fun x => decide (b ≤ x.1) && decide (x.1 < n)).map fun x => (x.1 - b, x.2)

/-! Channels and sections. -/

/-- Channel `c` of the state. -/
def State.chan (s : State) : Channel → Chan
  | .L => s.l
  | .R => s.r

/-- The state with channel `c` replaced. -/
def State.setChan (s : State) (c : Channel) (x : Chan) : State :=
  match c with
  | .L => { s with l := x }
  | .R => { s with r := x }

/-- Section `s` of the cascade (R48). -/
def Cascade.get (k : Cascade) : SecId → Section
  | .lc0 => k.lc0
  | .lc1 => k.lc1
  | .lc2 => k.lc2
  | .lc3 => k.lc3
  | .pk => k.pk
  | .hc0 => k.hc0
  | .hc1 => k.hc1
  | .hc2 => k.hc2
  | .hc3 => k.hc3

/-- The cascade with section `s` replaced. -/
def Cascade.set (k : Cascade) (s : SecId) (x : Section) : Cascade :=
  match s with
  | .lc0 => { k with lc0 := x }
  | .lc1 => { k with lc1 := x }
  | .lc2 => { k with lc2 := x }
  | .lc3 => { k with lc3 := x }
  | .pk => { k with pk := x }
  | .hc0 => { k with hc0 := x }
  | .hc1 => { k with hc1 := x }
  | .hc2 => { k with hc2 := x }
  | .hc3 => { k with hc3 := x }

/-- A function applied to every section. -/
def Cascade.map (k : Cascade) (f : SecId → Section → Section) : Cascade where
  lc0 := f .lc0 k.lc0
  lc1 := f .lc1 k.lc1
  lc2 := f .lc2 k.lc2
  lc3 := f .lc3 k.lc3
  pk := f .pk k.pk
  hc0 := f .hc0 k.hc0
  hc1 := f .hc1 k.hc1
  hc2 := f .hc2 k.hc2
  hc3 := f .hc3 k.hc3

/-! Error conditions and answers. -/

/-- `raise E` (R13, R220): set the sticky bit; no state is saved and no control is transferred. This is all that
SEQ-CORE has in place of exception entry (R219, R220), and there is nothing to return from (R221). -/
def raise (e : ErrorBit) (s : State) : State := { s with sticky := s.sticky.set e }

/-- Give a control-port response (R84, R100). -/
def respond (a : Resp) (s : State) : State := { s with ctrlOut := s.ctrlOut ++ [a] }

/-- The response of a request that completes without error; RDATA is 0 for a write (R100). -/
def ack (s : State) : State := respond { rdata := 0#32, err := false } s

/-- The error response (R81): STATUS.BUS_ERR, read data 0, no other change. -/
def busError (s : State) : State := respond { rdata := 0#32, err := true } (raise .busErr s)

/-- The 33 bits of a response: ERR in [32], RDATA in [31:0] (R100). -/
def Resp.bits (a : Resp) : BitVec 33 := BitVec.ofBool a.err ++ a.rdata

/-- Emit an output beat (R103, R106). -/
def emit (yl yr : Word) (s : State) : State := { s with audioOut := s.audioOut ++ [(yr ++ yl : BitVec 64)] }

/-- The reset event (R241): every piece of state takes its reset value (R244); an open block is discarded without a
snap. The parameters stay (R241), and so do the model's own fields: what waits at the ports, what was answered and
emitted ("An output beat already emitted is not recalled"), the schedule and the index of the next free value (log 13). -/
def resetEvent (s : State) : State :=
  { State.reset with
    cfg := s.cfg
    ctrlIn := s.ctrlIn
    audioIn := s.audioIn
    ctrlOut := s.ctrlOut
    audioOut := s.audioOut
    sched := s.sched
    draws := s.draws }

/-! The bus the block sits on. -/

/-- The byte at address 4a + i of a bus with byte lanes: data bits [8i+7 : 8i] of the word at 4a (R72). -/
def byteLane (w : Word) (i : Fin 4) : BitVec 8 := w.extractLsb' (8 * i.val) 8

/-- Where the control space's offset lies in the host's address space (R82). -/
def hostAddress (p : Params) (off : BitVec 16) : Nat := p.base + off.toNat

end Sys2Proof.Machine
end

