-- ==== Sys2Proof/Machine/Fifo.lean ====
section
/-! DEFINITION. The channel sample FIFO (R166..R176). -/

namespace Sys2Proof.Machine

/-- `occ(c) = wrap32(W − R)` (R167). -/
def Fifo.occ (f : Fifo) : Word := f.w - f.r

/-- The B samples of ring slot `j` (R51, R78). -/
def Fifo.slot (f : Fifo) (b j : Nat) : List Word := f.ring.readAll (j * b) b

/-- The FIFO is full: W − R = CAP (R169). -/
def Fifo.full (f : Fifo) (p : Params) : Bool := f.occ == BitVec.ofNat 32 p.fifoCap

/-- Retire the oldest block: R and rp move on (R169, R171). -/
def Fifo.retire (f : Fifo) (p : Params) : Fifo := { f with r := wrapInc f.r, rp := (f.rp + 1) % p.fifoCap }

/-- `push(c, blk)` (R169): a full FIFO first drops its oldest block and counts it (R170). -/
def Fifo.push (f : Fifo) (p : Params) (blk : List Word) : Fifo :=
  let g := if f.full p then { f.retire p with ovr := wrapInc f.ovr } else f
  { g with ring := g.ring.writeAll (g.wp * p.fifoBlock) blk, wp := (g.wp + 1) % p.fifoCap, w := wrapInc g.w }

/-- `pop(c)` (R171): nothing where the FIFO is empty, else the oldest block and the FIFO without it. -/
def Fifo.pop (f : Fifo) (p : Params) : Option (List Word × Fifo) :=
  if f.w = f.r then none else some (f.slot p.fifoBlock f.rp, f.retire p)

/-- The accumulator takes a sample: acc[k] <- t, k <- k + 1 (R168). -/
def Fifo.collect (f : Fifo) (t : Word) : Fifo := { f with acc := f.acc.write f.k t, k := f.k + 1 }

/-- After the sample is collected, the accumulator holds a whole block (R168). -/
def Fifo.completes (f : Fifo) (p : Params) : Bool := f.k + 1 == p.fifoBlock

/-- `fifo_accept(c, t)` (R168): collect the sample, and push the block when the accumulator is full. -/
def Fifo.accept (f : Fifo) (p : Params) (t : Word) : Fifo :=
  if f.completes p then
    { (f.collect t).push p ((f.collect t).acc.readAll 0 p.fifoBlock) with k := 0 }
  else f.collect t

/-- The push inside this accept drops a block (R170). -/
def Fifo.overruns (f : Fifo) (p : Params) : Bool := f.completes p && f.full p

/-- `fifo_accept(c, t)` in the state, with STATUS.OVR_c set by a push that drops a block (R168, R169). -/
def fifoAccept (c : Channel) (t : Word) (s : State) : State :=
  let x := s.chan c
  let s' := s.setChan c { x with fifo := x.fifo.accept s.cfg t }
  if x.fifo.overruns s.cfg then raise (.ovr c) s' else s'

/-- The blocks in the FIFO, oldest first (R167). -/
def Fifo.queue (f : Fifo) (p : Params) : List (List Word) :=
  (List.range f.occ.toNat).map fun i => f.slot p.fifoBlock ((f.rp + i) % p.fifoCap)

end Sys2Proof.Machine
end

