-- ==== Sys2Proof/Machine/Coefficients.lean ====
section
/-! DEFINITION. The coefficient refresh (R135..R137, R140, R143..R146). -/

namespace Sys2Proof.Machine

/-- `valid_fs` (R136), on exact values, without DAZ. -/
def validFs (fs : Word) : Bool := isFinite fs && decide (0 < scaled fs)

/-- `valid_cut` (R136): 0 < f and 2 f < fs. -/
def validCut (fs f : Word) : Bool :=
  validFs fs && isFinite f && decide (0 < scaled f) && decide (2 * scaled f < scaled fs)

/-- `valid_pk` (R136). -/
def validPk (fs f q g : Word) : Bool :=
  validCut fs f && isFinite q && decide (0 < scaled q) && isFinite g

/-- Every word is finite (R135). -/
def coefsFinite (c : Coefs) : Bool :=
  isFinite c.b0 && isFinite c.b1 && isFinite c.b2 && isFinite c.a1 && isFinite c.a2

/-- The number of sections a slope index enables (R43, R137). -/
def slopeSections (i : BitVec 2) : Nat := i.toNat + 1

/-- The enables of a slope index: bit j is 1 exactly for j ≤ i (R43, R137). -/
def slopeEnables (i : BitVec 2) : BitVec 4 := BitVec.ofNat 4 (2 ^ slopeSections i - 1)

/-- The coefficients a cut stage is refreshed with, or nothing where the stage is rejected (R136): `design` is CALC's
part for the stage, already given the sample rate and the frequency. -/
def cutStage (fs f : Word) (i : BitVec 2) (design : Nat → Nat → Coefs) : Option (List Coefs) :=
  let cf := (List.range (slopeSections i)).map (design (2 * slopeSections i))
  if validCut fs f && cf.all coefsFinite then some cf else none

/-- The low-cut stage (R135). -/
def lowcutStage (k : Settings) : Option (List Coefs) :=
  cutStage k.sr k.lcFreq k.mode.lcSlope (Config.calcLowcut k.sr k.lcFreq)

/-- The high-cut stage, from the HIGH-cut frequency (R135, R143). -/
def highcutStage (k : Settings) : Option (List Coefs) :=
  cutStage k.sr k.hcFreq k.mode.hcSlope (Config.calcHighcut k.sr k.hcFreq)

/-- The peak stage (R135, R144). -/
def peakStage (k : Settings) : Option Coefs :=
  let p := Config.calcPeak k.sr k.pkFreq k.pkQ k.pkGain
  if validPk k.sr k.pkFreq k.pkQ k.pkGain && coefsFinite p then some p else none

/-- Replace the coefficients of one section; s1 and s2 are not touched (R145). -/
def Cascade.setCoef (k : Cascade) (s : SecId) (c : Coefs) : Cascade := k.set s { k.get s with coef := c }

/-- Give the first sections of a stage their new coefficients; the others keep theirs (R137). -/
def Cascade.setCoefs (k : Cascade) : List SecId → List Coefs → Cascade
  | s :: ss, c :: cs => (k.setCoef s c).setCoefs ss cs
  | [], _ => k
  | _ :: _, [] => k

/-- A channel after the low-cut part of a refresh (R135). -/
def Chan.refreshLc (x : Chan) (k : Settings) : Chan :=
  match lowcutStage k with
  | some cf => { x with sec := x.sec.setCoefs SecId.lowcut cf, enLc := slopeEnables k.mode.lcSlope }
  | none => x

/-- A channel after the peak part (R135). -/
def Chan.refreshPk (x : Chan) (k : Settings) : Chan :=
  match peakStage k with
  | some p => { x with sec := x.sec.setCoef .pk p }
  | none => x

/-- A channel after the high-cut part (R135). -/
def Chan.refreshHc (x : Chan) (k : Settings) : Chan :=
  match highcutStage k with
  | some cf => { x with sec := x.sec.setCoefs SecId.highcut cf, enHc := slopeEnables k.mode.hcSlope }
  | none => x

/-- A channel after a refresh; the bypass flags are written even where a stage is rejected (R135, R146). -/
def Chan.refresh (x : Chan) (k : Settings) : Chan :=
  { ((x.refreshLc k).refreshPk k).refreshHc k with bypLc := k.mode.lcByp, bypPk := k.mode.pkByp, bypHc := k.mode.hcByp }

/-- The CFG_ERR bits after a refresh: the bit of each rejected stage becomes 1 (R136). -/
def Sticky.refresh (f : Sticky) (k : Settings) : Sticky :=
  { f with
    cfgErrLc := f.cfgErrLc || (lowcutStage k).isNone
    cfgErrPk := f.cfgErrPk || (peakStage k).isNone
    cfgErrHc := f.cfgErrHc || (highcutStage k).isNone }

/-- `refresh()` (R135): both channels from the committed settings, and COEF_GEN. -/
def refresh (s : State) : State :=
  { s with
    l := s.l.refresh s.committed
    r := s.r.refresh s.committed
    sticky := s.sticky.refresh s.committed
    coefGen := wrapInc s.coefGen }

end Sys2Proof.Machine
end

