-- ==== Sys2Proof/Machine/FilterChain.lean ====
section
/-! DEFINITION. The cascade (R147..R151) and the procedures the audio beats share (R152, R154, R155). -/

namespace Sys2Proof.Machine

/-- Section `s` of the channel is active (R147). -/
def Chan.active (x : Chan) : SecId → Bool
  | .lc0 => !x.bypLc && x.enLc.getLsbD 0
  | .lc1 => !x.bypLc && x.enLc.getLsbD 1
  | .lc2 => !x.bypLc && x.enLc.getLsbD 2
  | .lc3 => !x.bypLc && x.enLc.getLsbD 3
  | .pk => !x.bypPk
  | .hc0 => !x.bypHc && x.enHc.getLsbD 0
  | .hc1 => !x.bypHc && x.enHc.getLsbD 1
  | .hc2 => !x.bypHc && x.enHc.getLsbD 2
  | .hc3 => !x.bypHc && x.enHc.getLsbD 3

/-- The number of datapath operations of one section, each of which has its own NaN draw (R17, R149, log 4). -/
def biquadOps : Nat := 9

/-- `out` of R149; `n` indexes the first of the section's NaN draws. -/
def biquadOut (d : Denorm) (n : Nat) (q : Section) (x : Word) : Word :=
  fadd d (n + 1) (fmul d n x q.coef.b0) q.s1

/-- `n1` of R149. -/
def biquadS1 (d : Denorm) (n : Nat) (q : Section) (x out : Word) : Word :=
  fadd d (n + 5) (fsub d (n + 4) (fmul d (n + 2) x q.coef.b1) (fmul d (n + 3) out q.coef.a1)) q.s2

/-- `n2` of R149. -/
def biquadS2 (d : Denorm) (n : Nat) (q : Section) (x out : Word) : Word :=
  fsub d (n + 8) (fmul d (n + 6) x q.coef.b2) (fmul d (n + 7) out q.coef.a2)

/-- `biquad(c, s, x)` (R149): transposed direct form II, in exactly the order and association of the rule. Answers the
output and the section with its new state words. -/
def biquad (d : Denorm) (n : Nat) (q : Section) (x : Word) : Word × Section :=
  let out := biquadOut d n q x
  (out, { q with s1 := biquadS1 d n q x out, s2 := biquadS2 d n q x out })

/-- A value on its way through a cascade: the running word, the cascade so far and the next draw. -/
structure Lane where
  v : Word
  sec : Cascade
  draws : Nat
deriving DecidableEq, Repr

/-- One position of the cascade: an inactive section passes the value and keeps its state (R147, R148). -/
def Lane.stage (act : SecId → Bool) (d : Denorm) (a : Lane) (s : SecId) : Lane :=
  if act s then
    let o := biquad d a.draws (a.sec.get s) a.v
    { v := o.1, sec := a.sec.set s o.2, draws := a.draws + biquadOps }
  else a

/-- `chain(c, x)` (R148) on channel `x`, with `n` the index of the next NaN draw. -/
def Chan.chain (x : Chan) (d : Denorm) (n : Nat) (w : Word) : Lane :=
  SecId.order.foldl (Lane.stage x.active d) { v := w, sec := x.sec, draws := n }

/-- The state words of one section after `snap` (R151). -/
def Section.snap (q : Section) : Section := { q with s1 := Machine.snap q.s1, s2 := Machine.snap q.s2 }

/-- `snap` of both state words of every active section (R151, R155). -/
def Chan.snap (x : Chan) : Chan := { x with sec := x.sec.map fun s q => if x.active s then q.snap else q }

/-- `end_block()` (R155). -/
def closeBlock (s : State) : State :=
  if s.cfg.snapEn then { s with l := s.l.snap, r := s.r.snap, inBlock := false } else { s with inBlock := false }

/-- Read-then-clear of DIRTY, with the refresh (R88, R135, R152). -/
def takeSettings (s : State) : State :=
  if s.dirty then refresh { s with dirty := false } else s

/-- `begin_block()` (R152). -/
def openBlock (s : State) : State :=
  let t := takeSettings s
  { t with inBlock := true, blkCnt := wrapInc t.blkCnt }

/-- One lane of FRAME (R154, R158): the channel's sample through its chain, the tap into its FIFO. Answers the output
word and the state. -/
def frameLane (c : Channel) (x : Word) (s : State) : Word × State :=
  let a := (s.chan c).chain s.cfg.denorm s.draws x
  let s' := { s.setChan c { s.chan c with sec := a.sec } with draws := a.draws }
  (a.v, fifoAccept c (if s.ctrl.tap then x else a.v) s')

/-- A frame inside a block (R154): both lanes, the output beat, FRAME_CNT. -/
def processFrame (xl xr : Word) (s : State) : State :=
  let a := frameLane .L xl s
  let b := frameLane .R xr a.2
  let t := emit a.1 b.1 b.2
  { t with frameCnt := wrapInc t.frameCnt }

end Sys2Proof.Machine
end

