-- ==== Sys2Proof/Machine/AudioPort.lean ====
section
/-! DEFINITION. The meanings of the audio beats (R152..R157), each one step of HOST_AUDIO. -/

namespace Sys2Proof.Machine

/-- FRAME xl, xr (R154): outside a block it opens one first and raises PROTO_ERR. -/
def execFrame (xl xr : Word) (s : State) : Host.Outcome State Fault Refusal :=
  .next (processFrame xl xr (if s.inBlock then s else raise .protoErr (openBlock s)))

/-- BEGIN (R152): inside a block it closes it first and raises PROTO_ERR. -/
def execBeginBlock (s : State) : Host.Outcome State Fault Refusal :=
  .next (openBlock (if s.inBlock then raise .protoErr (closeBlock s) else s))

/-- END (R155): outside a block it only raises PROTO_ERR. -/
def execEndBlock (s : State) : Host.Outcome State Fault Refusal :=
  .next (if s.inBlock then closeBlock s else raise .protoErr s)

/-- A reserved beat (R157): PROTO_ERR and nothing else. -/
def execReservedBeat (s : State) : Host.Outcome State Fault Refusal := .next (raise .protoErr s)

end Sys2Proof.Machine
end

