-- ==== Sys2Proof/Machine/Analyzer.lean ====
section
/-! DEFINITION. The spectrum analyzer (R190..R206): ANA_STEP, publish and acquire. -/

namespace Sys2Proof.Machine

/-- `shift_in(c, blk)` (R195), `n` the size of the buffer. -/
def shiftIn (abuf : Memory) (n : Nat) (blk : List Word) : Memory :=
  (abuf.shiftDown blk.length n).writeAll (n - blk.length) blk

/-- `SPECTRUM(x, F)` (R199): a deterministic function of the buffer words and the floor word (a). Silence (b), a
non-finite sample (c) and a NaN floor (d) give F in every bin; otherwise a bin is the hardware's value where that value
is above F, and F's own word elsewhere (d). The hardware's values are uninterpreted (log 7). -/
def spectrum (x : List Word) (f : Word) (n : Nat) : List Word :=
  (List.range n).map fun k =>
    if x.all isZero || !x.all isFinite || isNaN f then f
    else if fless f (Config.spectrumBin x f k) then Config.spectrumBin x f k
    else f

/-- `publish(c, bins)` (R201). -/
def Spectrum.publish (o : Spectrum) (bins : List Word) : Spectrum :=
  { o with pub := Memory.writeAll [] 0 bins, gen := wrapInc o.gen, avail := satInc o.avail }

/-- `acquire(c)` (R203). -/
def Spectrum.acquire (o : Spectrum) : Spectrum :=
  if o.avail = 0#32 then o else { o with acq := o.pub, acqGen := o.gen, avail := 0#32 }

/-- ANA_STEP(c) is enabled exactly when CTRL.ANA_EN = 1 and occ(c) > 0 (R193). -/
def anaEnabled (c : Channel) (s : State) : Bool := s.ctrl.anaEn && (s.chan c).fifo.occ != 0#32

/-- What ANA_STEP(c) does with the popped block (R194). -/
def Chan.analyze (x : Chan) (p : Params) (floor : Word) (blk : List Word) (rest : Fifo) : Chan :=
  let abuf := shiftIn x.ana.abuf p.fftSize blk
  if x.ana.fresh + 1 = p.hopBlocks then
    { x with
      fifo := rest
      ana := { abuf := abuf, fresh := 0 }
      spec := x.spec.publish (spectrum (abuf.readAll 0 p.fftSize) floor p.bins) }
  else { x with fifo := rest, ana := { abuf := abuf, fresh := x.ana.fresh + 1 } }

/-- A turn of ANA_c: ANA_STEP(c) where it is enabled (R194); a disabled ANA_c takes no step (R193). -/
def anaTurn (c : Channel) (s : State) : State :=
  if anaEnabled c s then
    match (s.chan c).fifo.pop s.cfg with
    | none => s
    | some (blk, rest) => s.setChan c ((s.chan c).analyze s.cfg s.floorDb blk rest)
  else s

/-- SPEC_ACQ of channel `c` (R122, R203). -/
def acquire (c : Channel) (s : State) : State :=
  s.setChan c { s.chan c with spec := (s.chan c).spec.acquire }

end Sys2Proof.Machine
end

