-- ==== Sys2Proof/Machine/Operands.lean ====
section
/-! DEFINITION. The operand forms of the control port: what a read of each location answers (R32..R50, R80, R111) and
what a write of each location does (R112..R118). -/

namespace Sys2Proof.Machine

/-- A setting of the settings block (R40, R44). -/
def Settings.get (k : Settings) : Setting → Word
  | .sr => k.sr
  | .pkFreq => k.pkFreq
  | .pkGain => k.pkGain
  | .pkQ => k.pkQ
  | .lcFreq => k.lcFreq
  | .hcFreq => k.hcFreq

/-- The settings block with one setting replaced. -/
def Settings.set (k : Settings) (r : Setting) (d : Word) : Settings :=
  match r with
  | .sr => { k with sr := d }
  | .pkFreq => { k with pkFreq := d }
  | .pkGain => { k with pkGain := d }
  | .pkQ => { k with pkQ := d }
  | .lcFreq => { k with lcFreq := d }
  | .hcFreq => { k with hcFreq := d }

/-- Word `j` of a section in the coefficient window; words 5, 6 and 7 read 0 (R50). -/
def coefWord (c : Coefs) : Nat → Word
  | 0 => c.b0
  | 1 => c.b1
  | 2 => c.b2
  | 3 => c.a1
  | 4 => c.a2
  | _ => 0#32

/-- `readval` (R111): the word the location holds now. A read changes nothing (R76). -/
def readLoc (s : State) : Loc → Word
  | .id => idWord
  | .cfg0 => cfg0Word s.cfg
  | .cfg1 => cfg1Word s.cfg
  | .ctrl => s.ctrl.word
  | .status => statusWord s
  | .cmd => 0#32
  | .coefGen => s.coefGen
  | .floorDb => s.floorDb
  | .staged r => s.staged.get r
  | .mode => s.staged.mode.word
  | .committed r => s.committed.get r
  | .committedMode => s.committed.mode.word
  | .actFlags => s.l.actFlags
  | .fifoLvl c => (s.chan c).fifo.occ
  | .fifoOvr c => (s.chan c).fifo.ovr
  | .specSeq c => (s.chan c).spec.acqGen
  | .specAvail c => (s.chan c).spec.avail
  | .blkCnt => s.blkCnt
  | .frameCnt => s.frameCnt
  | .coef i j => coefWord (s.l.sec.get i).coef j
  | .bin c k => if k < s.cfg.bins then (s.chan c).spec.acq.read k else 0#32

/-- RD (R111): the word at the offset, or the error response. -/
def readControl (off : BitVec 16) (s : State) : State :=
  match locate off with
  | some a => respond { rdata := readLoc s a, err := false } s
  | none => busError s

/-- WR CTRL (R113). -/
def storeCtrl (d : Word) (s : State) : State := { s with ctrl := .ofWord d }

/-- WR STATUS (R114). -/
def storeStatus (d : Word) (s : State) : State := { s with sticky := s.sticky.writeOneToClear d }

/-- WR of a staged binary32 register: all 32 bits, whatever they encode (R115, R41). -/
def storeSetting (r : Setting) (d : Word) (s : State) : State := { s with staged := s.staged.set r d }

/-- WR FLOOR_DB (R115). -/
def storeFloor (d : Word) (s : State) : State := { s with floorDb := d }

/-- WR MODE (R116). -/
def storeMode (d : Word) (s : State) : State := { s with staged := { s.staged with mode := .ofWord d } }

/-- COMMIT (R120): the staged settings become the committed ones, and DIRTY is set (R88). -/
def commitSettings (s : State) : State := { s with committed := s.staged, dirty := true }

/-- The history of one channel cleared by PREPARE (R121). The ring and the accumulator keep their words (U3). -/
def Chan.clearHistory (x : Chan) : Chan :=
  { x with
    sec := x.sec.map fun _ q => { q with s1 := 0#32, s2 := 0#32 }
    fifo := { x.fifo with w := 0#32, r := 0#32, wp := 0, rp := 0, k := 0, ovr := 0#32 }
    ana := { abuf := [], fresh := 0 }
    spec := { gen := 0#32, pub := [], acq := [], acqGen := 0#32, avail := 0#32 } }

/-- PREPARE (R121). -/
def prepareStream (s : State) : State :=
  let t := commitSettings s
  { t with
    l := t.l.clearHistory
    r := t.r.clearHistory
    sticky := { t.sticky with ovrL := false, ovrR := false } }

/-- The command of a word written to CMD, performed within the write's step (R104, R118..R124). -/
def performCommand (w : Word) (s : State) : State :=
  if w = 0x00000000#32 then s
  else if w = 0x00000001#32 then commitSettings s
  else if w = 0x00000002#32 then prepareStream s
  else if w = 0x00000003#32 then acquire .L s
  else if w = 0x00000103#32 then acquire .R s
  else if w = 0x0000000F#32 then resetEvent s
  else raise .cmdErr s

/-- The effect of a legal write, by the case list of R112. -/
def writeLoc (a : Loc) (d : Word) (s : State) : State :=
  match a with
  | .ctrl => storeCtrl d s
  | .status => storeStatus d s
  | .staged r => storeSetting r d s
  | .floorDb => storeFloor d s
  | .mode => storeMode d s
  | .cmd => performCommand d s
  | .id | .cfg0 | .cfg1 | .coefGen | .committed _ | .committedMode | .actFlags | .fifoLvl _ | .fifoOvr _ | .specSeq _
  | .specAvail _ | .blkCnt | .frameCnt | .coef _ _ | .bin _ _ => s

/-- WR (R112). -/
def writeControl (off : BitVec 16) (d : Word) (s : State) : State :=
  match locate off with
  | some a => ack (writeLoc a d s)
  | none => busError s

end Sys2Proof.Machine
end

