-- ==== Sys2Proof/Machine/ControlPort.lean ====
section
/-! DEFINITION. The meanings of the control-port transactions (R111..R124), each one step of HOST_CTRL. -/

namespace Sys2Proof.Machine

/-- RD off (R111). -/
def execRd (off : BitVec 16) (s : State) : Host.Outcome State Fault Refusal := .next (readControl off s)

/-- WR off, d (R112). -/
def execWr (off : BitVec 16) (d : Word) (s : State) : Host.Outcome State Fault Refusal := .next (writeControl off d s)

/-- WR CTRL, d (R113). -/
def execWrCtrl (d : Word) (s : State) : Host.Outcome State Fault Refusal := .next (ack (storeCtrl d s))

/-- WR STATUS, d (R114). -/
def execWrStatus (d : Word) (s : State) : Host.Outcome State Fault Refusal := .next (ack (storeStatus d s))

/-- WR SR, d (R115). -/
def execWrSr (d : Word) (s : State) : Host.Outcome State Fault Refusal := .next (ack (storeSetting .sr d s))

/-- WR PK_FREQ, d (R115). -/
def execWrPkFreq (d : Word) (s : State) : Host.Outcome State Fault Refusal := .next (ack (storeSetting .pkFreq d s))

/-- WR PK_GAIN, d (R115). -/
def execWrPkGain (d : Word) (s : State) : Host.Outcome State Fault Refusal := .next (ack (storeSetting .pkGain d s))

/-- WR PK_Q, d (R115). -/
def execWrPkQ (d : Word) (s : State) : Host.Outcome State Fault Refusal := .next (ack (storeSetting .pkQ d s))

/-- WR LC_FREQ, d (R115). -/
def execWrLcFreq (d : Word) (s : State) : Host.Outcome State Fault Refusal := .next (ack (storeSetting .lcFreq d s))

/-- WR HC_FREQ, d (R115). -/
def execWrHcFreq (d : Word) (s : State) : Host.Outcome State Fault Refusal := .next (ack (storeSetting .hcFreq d s))

/-- WR FLOOR_DB, d (R115). -/
def execWrFloorDb (d : Word) (s : State) : Host.Outcome State Fault Refusal := .next (ack (storeFloor d s))

/-- WR MODE, d (R116). -/
def execWrMode (d : Word) (s : State) : Host.Outcome State Fault Refusal := .next (ack (storeMode d s))

/-- WR to a mapped read-only offset (R117): ignored, and no error. -/
def execWrReadOnly (_off : BitVec 16) (_d : Word) (s : State) : Host.Outcome State Fault Refusal := .next (ack s)

/-- NOP (R119). -/
def execNop (s : State) : Host.Outcome State Fault Refusal := .next (ack s)

/-- COMMIT (R120). -/
def execCommit (s : State) : Host.Outcome State Fault Refusal := .next (ack (commitSettings s))

/-- PREPARE (R121). -/
def execPrepare (s : State) : Host.Outcome State Fault Refusal := .next (ack (prepareStream s))

/-- SPEC_ACQ L (R122). -/
def execSpecAcqL (s : State) : Host.Outcome State Fault Refusal := .next (ack (acquire .L s))

/-- SPEC_ACQ R (R122). -/
def execSpecAcqR (s : State) : Host.Outcome State Fault Refusal := .next (ack (acquire .R s))

/-- SOFT_RESET (R123): the reset event at the end of the step; the write itself completes normally. -/
def execSoftReset (s : State) : Host.Outcome State Fault Refusal := .next (ack (resetEvent s))

/-- A reserved command (R124): CMD_ERR, and no bus error. -/
def execReservedCmd (_w : Word) (s : State) : Host.Outcome State Fault Refusal := .next (ack (raise .cmdErr s))

/-- An illegal request (R81, R101, R108): the error response. -/
def execIllegalCtl (_size : BitVec 2) (_we : Bool) (_addr : BitVec 16) (_wdata : Word) (s : State) :
    Host.Outcome State Fault Refusal :=
  .next (busError s)

end Sys2Proof.Machine
end

