-- ==== Sys2Proof/Machine/Dispatch.lean ====
section
/-! DEFINITION. The dispatch of a transaction to its meaning: one arm per constructor of Instr. -/

namespace Sys2Proof.Machine

def exec (i : Instr) (s : State) : Host.Outcome State Fault Refusal :=
  match i with
  | .rd off => Sys2Proof.Machine.execRd off s
  | .wr off d => Sys2Proof.Machine.execWr off d s
  | .wrCtrl d => Sys2Proof.Machine.execWrCtrl d s
  | .wrStatus d => Sys2Proof.Machine.execWrStatus d s
  | .wrSr d => Sys2Proof.Machine.execWrSr d s
  | .wrPkFreq d => Sys2Proof.Machine.execWrPkFreq d s
  | .wrPkGain d => Sys2Proof.Machine.execWrPkGain d s
  | .wrPkQ d => Sys2Proof.Machine.execWrPkQ d s
  | .wrLcFreq d => Sys2Proof.Machine.execWrLcFreq d s
  | .wrHcFreq d => Sys2Proof.Machine.execWrHcFreq d s
  | .wrFloorDb d => Sys2Proof.Machine.execWrFloorDb d s
  | .wrMode d => Sys2Proof.Machine.execWrMode d s
  | .wrReadOnly off d => Sys2Proof.Machine.execWrReadOnly off d s
  | .nop => Sys2Proof.Machine.execNop s
  | .commit => Sys2Proof.Machine.execCommit s
  | .prepare => Sys2Proof.Machine.execPrepare s
  | .specAcqL => Sys2Proof.Machine.execSpecAcqL s
  | .specAcqR => Sys2Proof.Machine.execSpecAcqR s
  | .softReset => Sys2Proof.Machine.execSoftReset s
  | .reservedCmd w => Sys2Proof.Machine.execReservedCmd w s
  | .illegalCtl size we addr wdata => Sys2Proof.Machine.execIllegalCtl size we addr wdata s
  | .frame xl xr => Sys2Proof.Machine.execFrame xl xr s
  | .beginBlock => Sys2Proof.Machine.execBeginBlock s
  | .endBlock => Sys2Proof.Machine.execEndBlock s
  | .reservedBeat => Sys2Proof.Machine.execReservedBeat s

end Sys2Proof.Machine
end

