-- ==== Sys2Proof/Machine/Agents.lean ====
section
/-! DEFINITION. The turns of the agents (R8, R83): who steps next, and what a turn of each does. -/

namespace Sys2Proof.Machine

/-- Who takes the next step, and the state with that choice taken: the head of the schedule, or, where the schedule is
empty, a free value (R83, U14, log 3). -/
def nextTurn (s : State) : Turn × State :=
  match s.sched with
  | t :: rest => (t, { s with sched := rest })
  | [] => (Config.freeTurn s.draws, { s with draws := s.draws + 1 })

/-- Perform a decoded term: its transaction's meaning, or a refusal by name where it is none (R223, U11). -/
def perform (r : Except DecodeError Instr) (s : State) : Host.Outcome State Fault Refusal :=
  match r with
  | .ok i => exec i s
  | .error e => .refused (.notATransaction e)

/-- A turn of HOST_CTRL (R83, R84): the oldest request waiting at the control port. With none waiting the agent takes
no step (log 8). -/
def ctrlTurn (s : State) : Host.Outcome State Fault Refusal :=
  match s.ctrlIn with
  | [] => .next s
  | w :: rest => perform (decode .control w) { s with ctrlIn := rest }

/-- A turn of HOST_AUDIO (R83, R84, R106): the oldest beat waiting at the audio port. With none waiting the agent takes
no step (log 8). -/
def audioTurn (s : State) : Host.Outcome State Fault Refusal :=
  match s.audioIn with
  | [] => .next s
  | w :: rest => perform (decode .audio w) { s with audioIn := rest }

/-- One turn (R83). -/
def takeTurn (t : Turn) (s : State) : Host.Outcome State Fault Refusal :=
  match t with
  | .hostCtrl => ctrlTurn s
  | .hostAudio => audioTurn s
  | .ana c => .next (anaTurn c s)
  | .resetInput => .next (resetEvent s)

/-- One step of a machine whose parameters are legal; any other is no SEQ-CORE and is refused (R10, R223, U10). -/
def stepOnce (s : State) : Host.Outcome State Fault Refusal :=
  if s.cfg.legal then takeTurn (nextTurn s).1 (nextTurn s).2 else .refused (.illegalConfiguration s.cfg)

/-- The term put at the head of its port, and its port's agent at the head of the schedule. -/
def offer (p : Port) (w : PortWord) (s : State) : State :=
  match p with
  | .control => { s with ctrlIn := w :: s.ctrlIn, sched := .hostCtrl :: s.sched }
  | .audio => { s with audioIn := w :: s.audioIn, sched := .hostAudio :: s.sched }

end Sys2Proof.Machine
end

