-- ==== Sys2Proof/Machine/Step.lean ====
section
/-! DEFINITION. The step of the machine (R83), and where it takes its next transaction from. -/

namespace Sys2Proof.Machine

/-- One indivisible step (R83). -/
def step (s : State) : Host.Outcome State Fault Refusal := stepOnce s

/-- The state whose next step performs the transaction with these bits (log 2): the term waits first at its port and
the port's agent is next in the schedule. -/
def State.withFetchWord (s : State) (nbits w : Nat) : State := offer (tableTerm nbits w).1 (tableTerm nbits w).2 s

end Sys2Proof.Machine
end

