-- ==== Sys2Proof/Machine/Reference.lean ====
section
/-! DEFINITION. The reference formulas over the reals (R13 `b32`, R19, R138, R139, R141, R142, R144, R196..R200) and the
named assumptions `CALC = REF` and `SPECTRUM = REF` (R140, R199 (e)). The step reads none of this (log 14): a claim may
take an assumption as a hypothesis, and no rule makes it a fact of the hardware. -/

namespace Sys2Proof.Machine

open Real

/-- `val(w)` of a finite word (R13). -/
noncomputable def valReal (w : Word) : ℝ := (scaled w : ℝ) * (2 : ℝ) ^ (-149 : ℤ)

open Classical in
/-- The natural number nearest `y`, ties to even, for `y ≥ 0`. -/
noncomputable def roundHalfEven (y : ℝ) : ℕ :=
  if y - ⌊y⌋₊ > 1 / 2 ∨ (y - ⌊y⌋₊ = 1 / 2 ∧ ⌊y⌋₊ % 2 = 1) then ⌊y⌋₊ + 1 else ⌊y⌋₊

/-- The exponent of the last place of the binary32 values near `x > 0`: 2^-149 for subnormals (R13). -/
noncomputable def lastPlace (x : ℝ) : ℤ := max (Int.log 2 x - 23) (-149)

open Classical in
/-- The 31 lower bits of `b32(x)` for `x ≥ 0` (R13). -/
noncomputable def realMag (x : ℝ) : ℕ :=
  if x = 0 then 0
  else min ((lastPlace x + 149).toNat * 2 ^ 23 + roundHalfEven (x / (2 : ℝ) ^ lastPlace x)) 0x7F800000

open Classical in
/-- `b32(r)` (R13): the binary32 value nearest `r`, ties to even, overflow to ±∞, gradual underflow. -/
noncomputable def b32 (r : ℝ) : Word := pack (decide (r < 0)) (realMag |r|)

/-- The linear gain of a gain in decibels (R144), with no cut-off. -/
noncomputable def linearGain (g : ℝ) : ℝ := 10 ^ (g / 20)

open Classical in
/-- REF.peak (R138). Nothing where the normalising divisor A0 is 0, where the formula has no value. -/
noncomputable def refPeak (sr f q g : Word) : Option Coefs :=
  let a := √(linearGain (valReal g))
  let w := 2 * π * max (valReal f) 2 / valReal sr
  let alpha := sin w / (2 * valReal q)
  let c2 := -2 * cos w
  let a0 := 1 + alpha / a
  if a0 = 0 then none
  else
    some
      { b0 := b32 ((1 + alpha * a) / a0)
        b1 := b32 (c2 / a0)
        b2 := b32 ((1 - alpha * a) / a0)
        a1 := b32 (c2 / a0)
        a2 := b32 ((1 - alpha / a) / a0) }

/-- Q(M, j) of a Butterworth stage of order M (R139). -/
noncomputable def sectionQ (order j : ℕ) : ℝ := 1 / (2 * cos ((2 * j + 1) * π / (2 * order)))

/-- REF.lowcut (R141). -/
noncomputable def refLowcut (sr f : Word) (order j : ℕ) : Coefs :=
  let q := sectionQ order j
  let n := tan (π * valReal f / valReal sr)
  let c1 := 1 / (1 + n / q + n ^ 2)
  { b0 := b32 c1
    b1 := b32 (-2 * c1)
    b2 := b32 c1
    a1 := b32 (2 * c1 * (n ^ 2 - 1))
    a2 := b32 (c1 * (1 - n / q + n ^ 2)) }

/-- REF.highcut (R142). -/
noncomputable def refHighcut (sr f : Word) (order j : ℕ) : Coefs :=
  let q := sectionQ order j
  let n := 1 / tan (π * valReal f / valReal sr)
  let c1 := 1 / (1 + n / q + n ^ 2)
  { b0 := b32 c1
    b1 := b32 (2 * c1)
    b2 := b32 c1
    a1 := b32 (2 * c1 * (1 - n ^ 2))
    a2 := b32 (c1 * (1 - n / q + n ^ 2)) }

/-- The orders of the cut stages and their section indices (R43, R140). -/
def cutIndex (order j : ℕ) : Prop := order ∈ [2, 4, 6, 8] ∧ j < order / 2

/-- The named assumption CALC = REF (R140), on the inputs the refresh accepts (R136). -/
def CalcIsReference : Prop :=
  (∀ sr f q g p, validPk sr f q g = true → refPeak sr f q g = some p → Config.calcPeak sr f q g = p) ∧
  (∀ sr f order j, validCut sr f = true → cutIndex order j → Config.calcLowcut sr f order j = refLowcut sr f order j) ∧
  (∀ sr f order j, validCut sr f = true → cutIndex order j → Config.calcHighcut sr f order j = refHighcut sr f order j)

/-- u[t] of the 4-term Blackman-Harris window, symmetric (R197). -/
noncomputable def windowTerm (n t : ℕ) : ℝ :=
  0.35875 - 0.48829 * cos (2 * π * t / (n - 1)) + 0.14128 * cos (4 * π * t / (n - 1)) -
    0.01168 * cos (6 * π * t / (n - 1))

/-- w[t], normalised so that the samples sum to N (R197). -/
noncomputable def window (n t : ℕ) : ℝ := windowTerm n t * n / ∑ j ∈ Finset.range n, windowTerm n j

/-- X[k], the forward DFT of the windowed samples (R196). -/
noncomputable def dft (x : List Word) (k : ℕ) : ℂ :=
  ∑ t ∈ Finset.range x.length,
    ((valReal (x.getD t 0#32) * window x.length t : ℝ) : ℂ) *
      Complex.exp (-2 * π * Complex.I * k * t / x.length)

/-- v[k] = |X[k]| / (N/2) (R196, R198). -/
noncomputable def binMagnitude (x : List Word) (k : ℕ) : ℝ := ‖dft x k‖ / ((x.length : ℝ) / 2)

/-- `x > val(F)` for a floor word that may be ±∞ or NaN (R200). -/
def aboveFloor (x : ℝ) (f : Word) : Prop :=
  isNaN f = false ∧ (isInf f = true → signBit f = true) ∧ (isInf f = false → valReal f < x)

open Classical in
/-- dB(v, F), rounded (R199 (e), R200): a bin at the floor is F's own word. -/
noncomputable def decibels (v : ℝ) (f : Word) : Word :=
  if 0 < v ∧ aboveFloor (20 * logb 10 v) f then b32 (20 * logb 10 v) else f

/-- REF of SPECTRUM (R196, R202): N/2 bins. -/
noncomputable def refSpectrum (x : List Word) (f : Word) : List Word :=
  (List.range (x.length / 2)).map fun k => if x.all isFinite then decibels (binMagnitude x k) f else f

/-- The named assumption SPECTRUM = REF (R199 (e)), on buffers of a legal size (R10). -/
def SpectrumIsReference : Prop :=
  ∀ x f, (∃ m, 3 ≤ m ∧ m ≤ 12 ∧ x.length = 2 ^ m) → spectrum x f (x.length / 2) = refSpectrum x f

end Sys2Proof.Machine
end

