-- ==== Sys2Proof/Safety.lean ====
section
/-! DEFINITION. What claims are stated in: the invariants of the reachable states (R49, R137, R167, R205), the launch
premises (R263), the end of a run (R262) and fairness (R193). -/

namespace Sys2Proof.Machine

/-! Invariants. -/

/-- The FIFO's counters, pointers and memories are as every reachable state has them (R51, R167). -/
def Fifo.inv (f : Fifo) (p : Params) : Bool :=
  decide (f.occ.toNat ≤ p.fifoCap) && decide (f.wp < p.fifoCap) && decide (f.rp < p.fifoCap) &&
  decide ((f.rp + f.occ.toNat) % p.fifoCap = f.wp) && decide (f.k < p.fifoBlock) &&
  f.ring.wf && f.ring.below (p.fifoCap * p.fifoBlock) && f.acc.wf && f.acc.below p.fifoBlock

/-- The analyzer's buffer and hop count (R52). -/
def Analyzer.inv (a : Analyzer) (p : Params) : Bool :=
  decide (a.fresh < p.hopBlocks) && a.abuf.wf && a.abuf.below p.fftSize

/-- The spectrum's two snapshots (R53). -/
def Spectrum.inv (o : Spectrum) (p : Params) : Bool :=
  o.pub.wf && o.pub.below p.bins && o.acq.wf && o.acq.below p.bins

/-- Every coefficient word of the cascade is finite (R136, R205). -/
def Cascade.coefsFinite (k : Cascade) : Bool := SecId.order.all fun s => Machine.coefsFinite (k.get s).coef

/-- The enables of a cut stage: none (reset, R49) or those of a slope (R43, R137). -/
def enablesLegal (e : BitVec 4) : Bool := e == 0#4 || e == 1#4 || e == 3#4 || e == 7#4 || e == 15#4

/-- One channel. -/
def Chan.inv (x : Chan) (p : Params) : Bool :=
  x.fifo.inv p && x.ana.inv p && x.spec.inv p && x.sec.coefsFinite && enablesLegal x.enLc && enablesLegal x.enHc

/-- The two channels have equal coefficients, enables and stage bypass (R49). -/
def Chan.sameSettings (x y : Chan) : Bool :=
  (SecId.order.all fun s => (x.sec.get s).coef == (y.sec.get s).coef) &&
  x.enLc == y.enLc && x.enHc == y.enHc && x.bypLc == y.bypLc && x.bypPk == y.bypPk && x.bypHc == y.bypHc

/-- What holds at reset and is kept by every step. -/
def State.inv (s : State) : Bool :=
  s.cfg.legal && s.l.inv s.cfg && s.r.inv s.cfg && s.l.sameSettings s.r

/-! Launch premises (R263). -/

/-- `STATUS & 0x0000_7370 = 0 and IN_BLOCK = 0` (R263 Clean, R223). -/
def State.clean (s : State) : Bool := s.sticky == .clear && !s.inBlock

/-- The channel's history is as PREPARE leaves it (R121, R263). -/
def Chan.historyCleared (x : Chan) : Bool :=
  (SecId.order.all fun i => (x.sec.get i).s1 == 0#32 && (x.sec.get i).s2 == 0#32) &&
  x.fifo.w == 0#32 && x.fifo.r == 0#32 && x.fifo.wp == 0 && x.fifo.rp == 0 && x.fifo.k == 0 && x.fifo.ovr == 0#32 &&
  x.ana.abuf == [] && x.ana.fresh == 0 && x.spec == { gen := 0#32, pub := [], acq := [], acqGen := 0#32, avail := 0#32 }

/-- AfterPrepare(S) (R263). -/
def State.afterPrepare (s : State) (k : Settings) : Bool :=
  s.l.historyCleared && s.r.historyCleared && s.staged == k && s.committed == k && s.dirty &&
  !s.sticky.ovrL && !s.sticky.ovrR

/-- The channel is as at reset, but for the unspecified words of ring and acc (R245). -/
def Chan.afterReset (x : Chan) : Bool :=
  { x with fifo := { x.fifo with ring := [], acc := [] } } == Chan.reset

/-- AfterReset (R263): the state of R244 with ring and acc drawn, whatever the parameters and the model's own fields
hold. -/
def State.afterReset (s : State) : Bool :=
  s.l.afterReset && s.r.afterReset &&
  { s with
    l := State.reset.l
    r := State.reset.r
    cfg := State.reset.cfg
    ctrlIn := State.reset.ctrlIn
    audioIn := State.reset.audioIn
    ctrlOut := State.reset.ctrlOut
    audioOut := State.reset.audioOut
    sched := State.reset.sched
    draws := State.reset.draws } == State.reset

/-- The table of R244 in its own words: what the registers read and the channels hold. The ring slots and the accumulator
are unspecified (R245) and are no part of it. -/
def State.atReset (s : State) : Prop :=
  readLoc s .id = 0x53455107#32 ∧ readLoc s .cfg0 = cfg0Word s.cfg ∧ readLoc s .cfg1 = cfg1Word s.cfg ∧
  readLoc s .ctrl = 0x00000001#32 ∧ readLoc s .status = 0x00000001#32 ∧ readLoc s .coefGen = 0#32 ∧
  readLoc s .floorDb = 0xC2400000#32 ∧ readLoc s .actFlags = 0#32 ∧ readLoc s .blkCnt = 0#32 ∧
  readLoc s .frameCnt = 0#32 ∧
  readLoc s (.staged .sr) = 0x473B8000#32 ∧ readLoc s (.staged .pkFreq) = 0x443B8000#32 ∧
  readLoc s (.staged .pkGain) = 0#32 ∧ readLoc s (.staged .pkQ) = 0x3F800000#32 ∧
  readLoc s (.staged .lcFreq) = 0x41A00000#32 ∧ readLoc s (.staged .hcFreq) = 0x469C4000#32 ∧
  readLoc s .mode = 0#32 ∧ s.committed = s.staged ∧
  s.dirty = true ∧ s.inBlock = false ∧ (∀ e, s.sticky.get e = false) ∧
  ∀ c,
    (∀ i, (s.chan c).sec.get i = { coef := ⟨0x3F800000#32, 0#32, 0#32, 0#32, 0#32⟩, s1 := 0#32, s2 := 0#32 }) ∧
    (s.chan c).enLc = 0#4 ∧ (s.chan c).enHc = 0#4 ∧ (s.chan c).bypLc = false ∧ (s.chan c).bypPk = false ∧
    (s.chan c).bypHc = false ∧ (s.chan c).historyCleared = true

/-! The FIFO as its clients use it. -/

/-- Push a list of blocks, first block first. -/
def pushBlocks (f : Fifo) (p : Params) (blks : List (List Word)) : Fifo := blks.foldl (fun g b => g.push p b) f

/-- Pop up to `n` times: the blocks popped, and the FIFO after them. -/
def popBlocks (p : Params) : Nat → Fifo → List (List Word) × Fifo
  | 0, f => ([], f)
  | n + 1, f =>
    match f.pop p with
    | none => ([], f)
    | some (b, g) => (b :: (popBlocks p n g).1, (popBlocks p n g).2)

/-! Runs. -/

/-- The end of a run (R262): every transaction performed, and no analyzer step enabled. -/
def State.runEnded (s : State) : Bool :=
  s.ctrlIn.isEmpty && s.audioIn.isEmpty && !anaEnabled .L s && !anaEnabled .R s

/-- An infinite execution. -/
def IsTrace (tr : Nat → State) : Prop := ∀ n, step (tr n) = .next (tr (n + 1))

/-- Weak fairness (R193): an ANA_c that stays enabled eventually gets a turn. -/
def WeaklyFair (tr : Nat → State) : Prop :=
  ∀ c n, (∀ m, n ≤ m → anaEnabled c (tr m) = true) → ∃ m, n ≤ m ∧ (nextTurn (tr m)).1 = .ana c

/-- The coefficients and stage flags the datapath uses (R90, R153, R161): nothing of `s1` and `s2`. -/
def Chan.activeState (x : Chan) : List Coefs × BitVec 4 × BitVec 4 × Bool × Bool × Bool :=
  (SecId.order.map fun s => (x.sec.get s).coef, x.enLc, x.enHc, x.bypLc, x.bypPk, x.bypHc)

end Sys2Proof.Machine
end

