-- ==== Sys2Proof/Certificates/Slice0/Obligations.lean ====
section
/-! DEFINITION. The statements for the provers. Each docstring names the rules it formalises. `t` is the next state. -/

open Sys2Proof Sys2Proof.Machine

/-! Encoding (30_encoding.md). -/

/-- R100..R105, R110, R112: for every well-formed transaction, with every operand at every value its encoding admits,
the decoder reads its term back as its row. Only the general WR, whose words are the rows below it, resolves to another
row. -/
def Obligations.DecodeEncodeAgree : Prop :=
  ∀ i : Instr, i.wellFormed = true →
    decode i.port (encode i) = .ok i.resolve ∧ ((∀ off d, i ≠ .wr off d) → i.resolve = i)

/-- R101, R105, R108: every value of the two formats is a well-formed transaction of its port; a term that is not a
value of its port's format is no transaction (U11, R223). That the decoder never answers the general WR, but the row of
R112's case list that the word is, is the model's choice (log 9): R101 calls such a request WR. -/
def Obligations.EveryFormatValueDecodes : Prop :=
  (∀ r : BitVec 51, ∃ i, decode .control (ctlTerm r) = .ok i ∧ i.wellFormed = true ∧ i.port = .control ∧
    ∀ off d, i ≠ .wr off d) ∧
  (∀ b : BitVec 66, ∃ i, decode .audio (audTerm b) = .ok i ∧ i.wellFormed = true ∧ i.port = .audio) ∧
  (∀ (p : Port) (w : PortWord), (∃ i, decode p w = .ok i) ↔ (w.width = p.width ∧ w.bits < 2 ^ p.width))

/-- Words written out from the encoding tables decode to their transactions (95: V-E1, V-E2, V-E4, V-E6, V-E7, V-E8,
V-E11, V-E12, V-E14). -/
def Obligations.SpecWordsDecode : Prop :=
  decodeTableWord 56 0x4000000000000 = some (.rd 0x0000#16) ∧
  decodeTableWord 56 0x50024447A0000 = some (.wrPkFreq 0x447A0000#32) ∧
  decodeTableWord 56 0x3000C00000001 = some (.illegalCtl 0b01#2 true 0x000C#16 1#32) ∧
  decodeTableWord 56 0x5001400000001 = some .commit ∧
  decodeTableWord 56 0x5001400000103 = some .specAcqR ∧
  decodeTableWord 56 0x5001400000101 = some (.reservedCmd 0x101#32) ∧
  decodeTableWord 72 0x0BF8000003F000000 = some (.frame 0x3F000000#32 0xBF800000#32) ∧
  decodeTableWord 72 0x1123456789ABCDEF0 = some .beginBlock ∧
  decodeTableWord 72 0x30000000000000000 = some .reservedBeat

/-- R101, R81: RD and WR are exactly the requests of word size at an aligned, mapped address; every other request is
illegal, gets the error response and changes nothing but STATUS.BUS_ERR. -/
def Obligations.RequestDecoding : Prop :=
  ∀ (r : BitVec 51) (s : State),
    (ctlSize r = 0b10#2 → mapped (ctlAddr r) = true →
      (ctlWe r = false → decodeCtl r = .rd (ctlAddr r)) ∧
      (ctlWe r = true → decodeCtl r = (Instr.wr (ctlAddr r) (ctlData r)).resolve ∧
        ∀ size we addr d, decodeCtl r ≠ .illegalCtl size we addr d)) ∧
    (ctlSize r ≠ 0b10#2 ∨ mapped (ctlAddr r) = false →
      decodeCtl r = .illegalCtl (ctlSize r) (ctlWe r) (ctlAddr r) (ctlData r) ∧
      exec (decodeCtl r) s =
        .next { s with
          sticky := { s.sticky with busErr := true }
          ctrlOut := s.ctrlOut ++ [{ rdata := 0#32, err := true }] })

/-- R74, R79: which offsets are mapped, over all 65536. -/
def Obligations.MappedOffsets : Prop :=
  ∀ off : BitVec 16, mapped off = true ↔
    (off.toNat % 4 = 0 ∧
      (off.toNat ≤ 0x38 ∨ (0x40 ≤ off.toNat ∧ off.toNat ≤ 0x58) ∨ off.toNat = 0x60 ∨
        (0x70 ≤ off.toNat ∧ off.toNat ≤ 0x94) ∨ (0x200 ≤ off.toNat ∧ off.toNat ≤ 0x31F) ∨
        (0x4000 ≤ off.toNat ∧ off.toNat ≤ 0x7FFF)))

/-! The step (20_memory.md, 60_exceptions.md). -/

/-- R83, R84: a turn of a port's host performs the oldest term waiting there: where it decodes to a well-formed
transaction, the step is the transaction's meaning at the state without the term and with the turn taken. And what
`withFetchWord` offers is performed by the very next step. -/
def Obligations.StepRunsDecoded : Prop :=
  (∀ (s : State) (ts : List Turn) (w : PortWord) (ws : List PortWord) (i : Instr),
    s.cfg.legal = true → s.sched = .hostCtrl :: ts → s.ctrlIn = w :: ws → decode .control w = .ok i →
    i.wellFormed = true → step s = exec i { s with sched := ts, ctrlIn := ws }) ∧
  (∀ (s : State) (ts : List Turn) (w : PortWord) (ws : List PortWord) (i : Instr),
    s.cfg.legal = true → s.sched = .hostAudio :: ts → s.audioIn = w :: ws → decode .audio w = .ok i →
    i.wellFormed = true → step s = exec i { s with sched := ts, audioIn := ws }) ∧
  (∀ (s : State) (nbits w : Nat) (i : Instr),
    s.cfg.legal = true → decodeTableWord nbits w = some i → step (s.withFetchWord nbits w) = exec i s)

/-- R83: the turns of the analyzers and of the reset input; and a port's turn with nothing waiting changes only the
schedule (log 8). -/
def Obligations.StepRunsAgents : Prop :=
  ∀ (s : State) (ts : List Turn), s.cfg.legal = true →
    (∀ c, s.sched = .ana c :: ts → step s = .next (anaTurn c { s with sched := ts })) ∧
    (s.sched = .resetInput :: ts → step s = .next (resetEvent { s with sched := ts })) ∧
    (s.sched = .hostCtrl :: ts → s.ctrlIn = [] → step s = .next { s with sched := ts }) ∧
    (s.sched = .hostAudio :: ts → s.audioIn = [] → step s = .next { s with sched := ts })

/-- R223, R224: a step is refused only for a configuration outside R10 or a term that is no transaction; a machine with
a legal configuration and port terms of the two formats always steps. -/
def Obligations.NeverStuck : Prop :=
  (∀ (s : State) (r : Refusal), step s = .refused r →
    (s.cfg.legal = false ∧ r = .illegalConfiguration s.cfg) ∨ ∃ e, r = .notATransaction e) ∧
  (∀ s : State, s.cfg.legal = true → (∀ w ∈ s.ctrlIn, w.fits .control = true) →
    (∀ w ∈ s.audioIn, w.fits .audio = true) → ∃ t, step s = .next t)

/-- R86, R103: every beat has a step in every state, takes exactly its own term from the port, and emits one output beat
where it is a FRAME and none where it is not. -/
def Obligations.AudioPortNeverWaits : Prop :=
  ∀ (s : State) (b : BitVec 66) (bs : List PortWord) (ts : List Turn),
    s.cfg.legal = true → s.sched = .hostAudio :: ts → s.audioIn = audTerm b :: bs →
    ∃ t, step s = .next t ∧ t.audioIn = bs ∧ t.ctrlIn = s.ctrlIn ∧ t.ctrlOut = s.ctrlOut ∧
      t.audioOut.length = s.audioOut.length + (if audTag b = 0b00#2 then 1 else 0) ∧
      t.audioOut.take s.audioOut.length = s.audioOut

/-- R84, R100, R81: every request gets exactly one response, after those given before, and takes exactly its own term
from its port. That a SOFT_RESET request leaves what waits at the ports, and the answers and beats given before, is the
model's choice (log 13). -/
def Obligations.EveryRequestAnswered : Prop :=
  ∀ (s : State) (r : BitVec 51) (rs : List PortWord) (ts : List Turn),
    s.cfg.legal = true → s.sched = .hostCtrl :: ts → s.ctrlIn = ctlTerm r :: rs →
    ∃ t a, step s = .next t ∧ t.ctrlIn = rs ∧ t.audioIn = s.audioIn ∧ t.audioOut = s.audioOut ∧
      t.ctrlOut = s.ctrlOut ++ [a] ∧
      (a.err = true ↔ (ctlSize r ≠ 0b10#2 ∨ mapped (ctlAddr r) = false)) ∧
      (ctlWe r = true → a.rdata = 0#32)

/-! Register reads (10_state.md, R111). -/

/-- R111, R76: RD answers the word its location holds and changes nothing else; at a misaligned or unmapped offset it
answers 0 with the error response and sets STATUS.BUS_ERR. Reading a mapped offset again answers the same word. -/
def Obligations.RdAnswersTheWord : Prop :=
  ∀ (off : BitVec 16) (s : State),
    (∀ a, locate off = some a →
      let t := { s with ctrlOut := s.ctrlOut ++ [{ rdata := readLoc s a, err := false }] }
      exec (.rd off) s = .next t ∧
      exec (.rd off) t = .next { t with ctrlOut := t.ctrlOut ++ [{ rdata := readLoc s a, err := false }] }) ∧
    (mapped off = false →
      exec (.rd off) s =
        .next { s with
          sticky := { s.sticky with busErr := true }
          ctrlOut := s.ctrlOut ++ [{ rdata := 0#32, err := true }] })

/-- What each register offset reads, in the fields of the state (R32..R47): the flag registers CTRL, MODE, C_MODE and
ACT_FLAGS as their fields at their places and 0 between them, STATUS as `statusWord` (StatusBits gives its bits), and
CFG0 and CFG1 field by field under every legal configuration (R33, R34). -/
def Obligations.RegistersRead : Prop :=
  ∀ s : State,
    let reads := fun (off : BitVec 16) (v : Word) => (locate off).map (readLoc s) = some v
    let bit := fun b : Bool => BitVec.ofBool b
    let modeBits := fun m : Machine.Mode =>
      (0#21 ++ bit m.hcByp ++ bit m.pkByp ++ bit m.lcByp ++ 0#4 ++ m.hcSlope ++ m.lcSlope : Word)
    reads 0x0000 0x53455107#32 ∧ reads 0x000C (0#30 ++ bit s.ctrl.tap ++ bit s.ctrl.anaEn) ∧
    reads 0x0010 (statusWord s) ∧ reads 0x0014 0#32 ∧ reads 0x0018 s.coefGen ∧ reads 0x001C s.floorDb ∧
    reads 0x0020 s.staged.sr ∧ reads 0x0024 s.staged.pkFreq ∧ reads 0x0028 s.staged.pkGain ∧
    reads 0x002C s.staged.pkQ ∧ reads 0x0030 s.staged.lcFreq ∧ reads 0x0034 s.staged.hcFreq ∧
    reads 0x0038 (modeBits s.staged.mode) ∧
    reads 0x0040 s.committed.sr ∧ reads 0x0044 s.committed.pkFreq ∧ reads 0x0048 s.committed.pkGain ∧
    reads 0x004C s.committed.pkQ ∧ reads 0x0050 s.committed.lcFreq ∧ reads 0x0054 s.committed.hcFreq ∧
    reads 0x0058 (modeBits s.committed.mode) ∧
    reads 0x0060 (0#13 ++ bit s.l.bypHc ++ bit s.l.bypPk ++ bit s.l.bypLc ++ 0#4 ++ s.l.enHc ++ 0#4 ++ s.l.enLc) ∧
    reads 0x0070 (s.l.fifo.w - s.l.fifo.r) ∧ reads 0x0074 (s.r.fifo.w - s.r.fifo.r) ∧
    reads 0x0078 s.l.fifo.ovr ∧ reads 0x007C s.r.fifo.ovr ∧ reads 0x0080 s.l.spec.acqGen ∧
    reads 0x0084 s.r.spec.acqGen ∧ reads 0x0088 s.l.spec.avail ∧ reads 0x008C s.r.spec.avail ∧
    reads 0x0090 s.blkCnt ∧ reads 0x0094 s.frameCnt ∧
    (s.cfg.legal = true →
      ∃ c0 c1 : Word, reads 0x0004 c0 ∧ reads 0x0008 c1 ∧
        (c0.extractLsb' 0 4).toNat = s.cfg.fftOrder ∧ c0.extractLsb' 4 4 = 0#4 ∧
        (c0.extractLsb' 8 8).toNat = s.cfg.fifoCap ∧ c0.getLsbD 16 = s.cfg.snapEn ∧
        c0.getLsbD 17 = decide (s.cfg.denorm = .ftzDaz) ∧ c0.extractLsb' 18 14 = 0#14 ∧
        (c1.extractLsb' 0 16).toNat = s.cfg.fifoBlock ∧ (c1.extractLsb' 16 16).toNat = s.cfg.hopBlocks)

/-- R36: each bit of STATUS is the flag its table gives, and the reserved bits read 0. -/
def Obligations.StatusBits : Prop :=
  ∀ s : State,
    let w := statusWord s
    w.getLsbD 0 = s.dirty ∧ w.getLsbD 1 = s.inBlock ∧ (∀ e : ErrorBit, w.getLsbD e.code = s.sticky.get e) ∧
    (w.getLsbD 16 = true ↔ s.l.spec.avail ≠ 0#32) ∧ (w.getLsbD 17 = true ↔ s.r.spec.avail ≠ 0#32) ∧
    w &&& 0xFFFC8C8C#32 = 0#32

/-- R50: the coefficient window shows the left channel's coefficients and reads 0 in its reserved words, for every
section and word. -/
def Obligations.CoefficientWindow : Prop :=
  ∀ (s : State) (i : Fin 9) (j : Fin 8),
    ∃ sec, SecId.order[i.val]? = some sec ∧
      (locate (BitVec.ofNat 16 (0x200 + 0x20 * i.val + 4 * j.val))).map (readLoc s) =
        some (([(s.l.sec.get sec).coef.b0, (s.l.sec.get sec).coef.b1, (s.l.sec.get sec).coef.b2,
          (s.l.sec.get sec).coef.a1, (s.l.sec.get sec).coef.a2, 0#32, 0#32, 0#32] : List Word).getD j.val 0#32)

/-- R80: the spectrum windows show the acquired bins, and 0 without error from bin N/2 on. -/
def Obligations.SpectrumWindow : Prop :=
  ∀ (s : State) (c : Channel) (k : Nat), k < 2048 →
    (locate (BitVec.ofNat 16 ((match c with | .L => 0x4000 | .R => 0x6000) + 4 * k))).map (readLoc s) =
      some (if k < s.cfg.bins then (s.chan c).spec.acq.read k else 0#32)

/-! Register writes (R112..R118). -/

/-- R112: the general WR does what the row of its word does; at a misaligned or unmapped offset, the error response. -/
def Obligations.WrIsItsRow : Prop :=
  ∀ (off : BitVec 16) (d : Word) (s : State),
    (mapped off = true → ∃ t, exec (.wr off d) s = .next t ∧ exec (decodeWrite off d) s = .next t ∧
      ∃ u, t.ctrlOut = u ++ [{ rdata := 0#32, err := false }]) ∧
    (mapped off = false →
      exec (.wr off d) s =
        .next { s with
          sticky := { s.sticky with busErr := true }
          ctrlOut := s.ctrlOut ++ [{ rdata := 0#32, err := true }] })

/-- R113: WR CTRL leaves `d & 3` in CTRL, and changes nothing else but the response. -/
def Obligations.WrCtrlStoresTwoBits : Prop :=
  ∀ (d : Word) (s : State), ∃ t,
    exec (.wrCtrl d) s = .next t ∧ readLoc t .ctrl = d &&& 0x00000003#32 ∧
    t.ctrl.anaEn = d.getLsbD 0 ∧ t.ctrl.tap = d.getLsbD 1 ∧
    t = { s with ctrl := t.ctrl, ctrlOut := s.ctrlOut ++ [{ rdata := 0#32, err := false }] }

/-- R114: WR STATUS clears exactly the W1C bits written as 1. -/
def Obligations.WrStatusClearsWrittenOnes : Prop :=
  ∀ (d : Word) (s : State), ∃ t,
    exec (.wrStatus d) s = .next t ∧ statusWord t = statusWord s &&& ~~~(d &&& 0x00007370#32) ∧
    t = { s with sticky := t.sticky, ctrlOut := s.ctrlOut ++ [{ rdata := 0#32, err := false }] }

/-- R115, R41, R90: WR to a binary32 register stores all 32 bits, whatever they encode, and changes nothing else but the
response; the committed copy and the coefficients among it. -/
def Obligations.WrBinary32StoresWord : Prop :=
  ∀ (d : Word) (s : State),
    let a := s.ctrlOut ++ [{ rdata := 0#32, err := false }]
    exec (.wrSr d) s = .next { s with staged := { s.staged with sr := d }, ctrlOut := a } ∧
    exec (.wrPkFreq d) s = .next { s with staged := { s.staged with pkFreq := d }, ctrlOut := a } ∧
    exec (.wrPkGain d) s = .next { s with staged := { s.staged with pkGain := d }, ctrlOut := a } ∧
    exec (.wrPkQ d) s = .next { s with staged := { s.staged with pkQ := d }, ctrlOut := a } ∧
    exec (.wrLcFreq d) s = .next { s with staged := { s.staged with lcFreq := d }, ctrlOut := a } ∧
    exec (.wrHcFreq d) s = .next { s with staged := { s.staged with hcFreq := d }, ctrlOut := a } ∧
    exec (.wrFloorDb d) s = .next { s with floorDb := d, ctrlOut := a }

/-- R116: WR MODE leaves `d & 0x70F` in MODE, and changes nothing else but the response. -/
def Obligations.WrModeStoresLegalBits : Prop :=
  ∀ (d : Word) (s : State), ∃ t,
    exec (.wrMode d) s = .next t ∧ readLoc t .mode = d &&& 0x0000070F#32 ∧
    t = { s with
      staged := { s.staged with mode := t.staged.mode }
      ctrlOut := s.ctrlOut ++ [{ rdata := 0#32, err := false }] }

/-- R117, R119: a write to a read-only offset and NOP change nothing but give the response, which is no error. -/
def Obligations.IgnoredWrites : Prop :=
  ∀ (off : BitVec 16) (d : Word) (s : State),
    let u := { s with ctrlOut := s.ctrlOut ++ [{ rdata := 0#32, err := false }] }
    (∀ a, locate off = some a → a.readOnly = true →
      exec (.wrReadOnly off d) s = .next u ∧ exec (.wr off d) s = .next u ∧ readLoc u a = readLoc s a) ∧
    exec .nop s = .next u

/-- R124, R81, R108: a reserved command sets CMD_ERR and nothing else, and the write is no bus error; an illegal request
sets BUS_ERR and nothing else, and gets the error response. -/
def Obligations.ReservedAndIllegalRequests : Prop :=
  (∀ (w : Word) (s : State), (Instr.reservedCmd w).wellFormed = true →
    exec (.reservedCmd w) s =
      .next { s with
        sticky := { s.sticky with cmdErr := true }
        ctrlOut := s.ctrlOut ++ [{ rdata := 0#32, err := false }] } ∧
    exec (.wr 0x0014#16 w) s = exec (.reservedCmd w) s) ∧
  (∀ (size : BitVec 2) (we : Bool) (addr : BitVec 16) (d : Word) (s : State),
    (Instr.illegalCtl size we addr d).wellFormed = true →
    exec (.illegalCtl size we addr d) s =
      .next { s with
        sticky := { s.sticky with busErr := true }
        ctrlOut := s.ctrlOut ++ [{ rdata := 0#32, err := true }] })

/-! Commands (R119..R123). -/

/-- R120: COMMIT makes the committed settings the staged ones and sets DIRTY; two COMMITs are as one. -/
def Obligations.CommitPublishesSettings : Prop :=
  ∀ s : State, ∃ t,
    exec .commit s = .next t ∧
    t = { s with
      committed := s.staged, dirty := true, ctrlOut := s.ctrlOut ++ [{ rdata := 0#32, err := false }] } ∧
    exec .commit t = .next { t with ctrlOut := t.ctrlOut ++ [{ rdata := 0#32, err := false }] }

/-- R121, R263: PREPARE leaves AfterPrepare of the staged settings, and changes only what the rule lists: the
coefficients, enables, bypass flags, IN_BLOCK, CTRL, FLOOR_DB, COEF_GEN, BLK_CNT, FRAME_CNT and the other sticky bits
keep their values, and so do the words of ring and acc. -/
def Obligations.PrepareClearsHistory : Prop :=
  ∀ s : State, ∃ t,
    exec .prepare s = .next t ∧ t.afterPrepare s.staged = true ∧
    t = { s with
      committed := s.staged, dirty := true, l := t.l, r := t.r
      sticky := { s.sticky with ovrL := false, ovrR := false }
      ctrlOut := s.ctrlOut ++ [{ rdata := 0#32, err := false }] } ∧
    ∀ c, (t.chan c).activeState = (s.chan c).activeState ∧ (t.chan c).fifo.ring = (s.chan c).fifo.ring ∧
      (t.chan c).fifo.acc = (s.chan c).fifo.acc

/-- R122, R203: SPEC_ACQ with something new shows the newest published snapshot; with nothing new it changes nothing; and
a second one straight after it changes nothing. -/
def Obligations.AcquireNewest : Prop :=
  ∀ s : State,
    let a := s.ctrlOut ++ [{ rdata := 0#32, err := false }]
    let got : Machine.Spectrum → Machine.Spectrum := fun o =>
      if o.avail = 0#32 then o else { o with acq := o.pub, acqGen := o.gen, avail := 0#32 }
    exec .specAcqL s = .next { s with l := { s.l with spec := got s.l.spec }, ctrlOut := a } ∧
    exec .specAcqR s = .next { s with r := { s.r with spec := got s.r.spec }, ctrlOut := a } ∧
    (∀ o : Machine.Spectrum, got (got o) = got o) ∧
    (∀ (o : Machine.Spectrum) (bins : List Word) (k : Nat), k < bins.length →
      (got (o.publish bins)).acq.read k = bins.getD k 0#32 ∧
      (got (o.publish bins)).acqGen = o.gen + 1#32)

/-- R123, R241, R244: the reset event, of SOFT_RESET and of the reset input, gives every piece of state the value of R244
(`State.atReset`; the words of ring and acc apart, R245) and leaves the parameters. That what waits at the ports, what
was answered and emitted before, the schedule and the draw counter stay too is the model's choice (log 13). -/
def Obligations.SoftResetRestoresReset : Prop :=
  ∀ s : State,
    let e := resetEvent s
    (e.atReset ∧ e.afterReset = true ∧ e.cfg = s.cfg ∧ e.ctrlIn = s.ctrlIn ∧ e.audioIn = s.audioIn ∧
      e.ctrlOut = s.ctrlOut ∧ e.audioOut = s.audioOut ∧ e.sched = s.sched ∧ e.draws = s.draws) ∧
    ∃ t, exec .softReset s = .next t ∧ t.atReset ∧ t.afterReset = true ∧
      t = { e with ctrlOut := s.ctrlOut ++ [{ rdata := 0#32, err := false }] }

/-! Framing (R152..R157). -/

/-- R156, R157: the framing table, all eight cells: the action, the next state of the sequencer, PROTO_ERR, which is all
that a reserved beat sets. -/
def Obligations.FramingTable : Prop :=
  ∀ (s : State) (xl xr : Word),
    (s.inBlock = false →
      exec .beginBlock s = .next (openBlock s) ∧
      exec (.frame xl xr) s = .next (processFrame xl xr (raise .protoErr (openBlock s))) ∧
      exec .endBlock s = .next (raise .protoErr s) ∧ exec .reservedBeat s = .next (raise .protoErr s)) ∧
    (s.inBlock = true →
      exec .beginBlock s = .next (openBlock (raise .protoErr (closeBlock s))) ∧
      exec (.frame xl xr) s = .next (processFrame xl xr s) ∧
      exec .endBlock s = .next (closeBlock s) ∧ exec .reservedBeat s = .next (raise .protoErr s)) ∧
    raise .protoErr s = { s with sticky := { s.sticky with protoErr := true } } ∧
    (openBlock s).inBlock = true ∧ (closeBlock s).inBlock = false ∧ (openBlock s).sticky.protoErr = s.sticky.protoErr ∧
    (closeBlock s).sticky = s.sticky ∧ (processFrame xl xr s).inBlock = s.inBlock ∧
    (processFrame xl xr s).sticky.protoErr = s.sticky.protoErr

/-- R152, R88, R135: BEGIN clears DIRTY, opens the block and counts it; where DIRTY was 1 it refreshes (`refresh`, of
which RefreshCutStages and RefreshPeakAndFlags say what it does) the state, or inside a block the closed one, and where
DIRTY was 0 it changes no coefficient, enable, bypass flag, CFG_ERR bit or COEF_GEN; inside a block it sets PROTO_ERR and
snaps the active sections first (R155); it emits nothing and leaves the FIFOs, the analyzers, the spectra, the settings
and the other registers alone. -/
def Obligations.BeginOpensBlock : Prop :=
  ∀ s : State, ∃ t,
    let w := if s.inBlock then closeBlock s else s
    exec .beginBlock s = .next t ∧ t.dirty = false ∧ t.inBlock = true ∧ t.blkCnt = s.blkCnt + 1#32 ∧
    t.coefGen = (if s.dirty then s.coefGen + 1#32 else s.coefGen) ∧
    (s.dirty = true →
      (∀ c, (t.chan c).activeState = ((refresh w).chan c).activeState) ∧
      t.sticky = { (refresh w).sticky with protoErr := s.sticky.protoErr || s.inBlock }) ∧
    (s.dirty = false →
      (∀ c, (t.chan c).activeState = (s.chan c).activeState) ∧
      t.sticky = { s.sticky with protoErr := s.sticky.protoErr || s.inBlock }) ∧
    (∀ c i,
      let q := (s.chan c).sec.get i
      let snapped := s.inBlock && s.cfg.snapEn && (s.chan c).active i
      ((t.chan c).sec.get i).s1 = (if snapped then snap q.s1 else q.s1) ∧
      ((t.chan c).sec.get i).s2 = (if snapped then snap q.s2 else q.s2)) ∧
    (∀ c, (t.chan c).fifo = (s.chan c).fifo ∧ (t.chan c).ana = (s.chan c).ana ∧ (t.chan c).spec = (s.chan c).spec) ∧
    t = { s with
      l := t.l, r := t.r, sticky := t.sticky, coefGen := t.coefGen
      dirty := false, inBlock := true, blkCnt := s.blkCnt + 1#32 }

/-- R155, R151: END inside a block snaps both state words of every active section of both channels where SNAP_EN = 1 and
none where it is 0, and closes the block; END outside a block only sets PROTO_ERR. `snap` is +0.0 on every NaN and every
value in [-T, T], and keeps every other word, the infinities included. -/
def Obligations.EndSnapsActiveSections : Prop :=
  ∀ s : State,
    (s.inBlock = true → ∃ t, exec .endBlock s = .next t ∧
      (∀ c i, (t.chan c).sec.get i =
        if s.cfg.snapEn && (s.chan c).active i then
          { (s.chan c).sec.get i with
            s1 := snap ((s.chan c).sec.get i).s1, s2 := snap ((s.chan c).sec.get i).s2 }
        else (s.chan c).sec.get i) ∧
      t = { s with inBlock := false, l := { s.l with sec := t.l.sec }, r := { s.r with sec := t.r.sec } }) ∧
    (s.inBlock = false → exec .endBlock s = .next { s with sticky := { s.sticky with protoErr := true } }) ∧
    ∀ w : Word,
      let T := scaled 0x322BCC77#32
      (isNaN w = true → snap w = 0#32) ∧ (isNaN w = false → -T ≤ scaled w → scaled w ≤ T → snap w = 0#32) ∧
      (isNaN w = false → (scaled w < -T ∨ T < scaled w) → snap w = w) ∧ (isInf w = true → snap w = w)

/-- R154, R168: FRAME emits the two lanes' outputs as one beat, gives each FIFO the tap that CTRL.TAP selects, counts the
frame, and leaves everything else as its block has it: the block that is open, or the one it opens. Which draws the left
lane's NaNs take is the model's choice (log 4). -/
def Obligations.FrameProcessesBothLanes : Prop :=
  ∀ (xl xr : Word) (s : State), ∃ t u ndraw,
    u = (if s.inBlock then s else raise .protoErr (openBlock s)) ∧ exec (.frame xl xr) s = .next t ∧
    (let a := u.l.chain u.cfg.denorm u.draws xl
     let b := u.r.chain u.cfg.denorm ndraw xr
     t.audioOut = u.audioOut ++ [(b.v ++ a.v : BitVec 64)] ∧
     t.l = { u.l with sec := a.sec, fifo := u.l.fifo.accept u.cfg (if u.ctrl.tap then xl else a.v) } ∧
     t.r = { u.r with sec := b.sec, fifo := u.r.fifo.accept u.cfg (if u.ctrl.tap then xr else b.v) } ∧
     t.sticky = { u.sticky with
       ovrL := u.sticky.ovrL || u.l.fifo.overruns u.cfg
       ovrR := u.sticky.ovrR || u.r.fifo.overruns u.cfg }) ∧
    t = { u with
      l := t.l, r := t.r, audioOut := t.audioOut, sticky := t.sticky, draws := t.draws
      frameCnt := u.frameCnt + 1#32 }

/-- R154, R168, R169: the words a FRAME inside a block stores, per channel: the tap at place k of the accumulator, and,
where that completes a block, the accumulator's B words at the ring slot wp; every other word of acc and ring, and every
word of abuf, pub and acq, is as before. -/
def Obligations.FrameStores : Prop :=
  ∀ (xl xr : Word) (s : State) (c : Channel), s.inBlock = true →
    (s.chan c).fifo.acc.wf = true → (s.chan c).fifo.ring.wf = true →
    let f := (s.chan c).fifo
    let b := s.cfg.fifoBlock
    ∃ t tap, exec (.frame xl xr) s = .next t ∧
      (s.ctrl.tap = true → tap = (match c with | .L => xl | .R => xr)) ∧
      (s.ctrl.tap = false → ∃ beat, t.audioOut = s.audioOut ++ [beat] ∧
        tap = (match c with | .L => beat.extractLsb' 0 32 | .R => beat.extractLsb' 32 32)) ∧
      (∀ a, (t.chan c).fifo.acc.read a = if a = f.k then tap else f.acc.read a) ∧
      (∀ a, (t.chan c).fifo.ring.read a =
        if f.k + 1 = b ∧ f.wp * b ≤ a ∧ a < f.wp * b + b then (t.chan c).fifo.acc.read (a - f.wp * b)
        else f.ring.read a) ∧
      (t.chan c).ana = (s.chan c).ana ∧ (t.chan c).spec = (s.chan c).spec

/-! The refresh (R135..R146). -/

/-- R135, R137: what a refresh does to each cut section, with `stage` the accepted coefficients or nothing: an accepted
stage with slope index i gives sections 0..i CALC's coefficients and enables exactly those; sections i+1..3 keep their
coefficients; a rejected stage keeps everything and sets its CFG_ERR bit. -/
def Obligations.RefreshCutStages : Prop :=
  ∀ (s : State) (c : Channel) (j : Nat) (hj : j < 4),
    let k := s.committed
    let lc := SecId.lowcut[j]'hj
    let hc := SecId.highcut[j]'hj
    let t := refresh s
    let lowOk := validCut k.sr k.lcFreq = true ∧ ∀ i, i < slopeSections k.mode.lcSlope →
      Machine.coefsFinite (Config.calcLowcut k.sr k.lcFreq (2 * slopeSections k.mode.lcSlope) i) = true
    let highOk := validCut k.sr k.hcFreq = true ∧ ∀ i, i < slopeSections k.mode.hcSlope →
      Machine.coefsFinite (Config.calcHighcut k.sr k.hcFreq (2 * slopeSections k.mode.hcSlope) i) = true
    (lowOk →
      (t.chan c).enLc.getLsbD j = decide (j ≤ k.mode.lcSlope.toNat) ∧
      ((t.chan c).sec.get lc).coef =
        (if j ≤ k.mode.lcSlope.toNat then Config.calcLowcut k.sr k.lcFreq (2 * slopeSections k.mode.lcSlope) j
         else ((s.chan c).sec.get lc).coef) ∧
      t.sticky.cfgErrLc = s.sticky.cfgErrLc) ∧
    (¬ lowOk → (t.chan c).enLc = (s.chan c).enLc ∧ ((t.chan c).sec.get lc).coef = ((s.chan c).sec.get lc).coef ∧
      t.sticky.cfgErrLc = true) ∧
    (highOk →
      (t.chan c).enHc.getLsbD j = decide (j ≤ k.mode.hcSlope.toNat) ∧
      ((t.chan c).sec.get hc).coef =
        (if j ≤ k.mode.hcSlope.toNat then Config.calcHighcut k.sr k.hcFreq (2 * slopeSections k.mode.hcSlope) j
         else ((s.chan c).sec.get hc).coef) ∧
      t.sticky.cfgErrHc = s.sticky.cfgErrHc) ∧
    (¬ highOk → (t.chan c).enHc = (s.chan c).enHc ∧ ((t.chan c).sec.get hc).coef = ((s.chan c).sec.get hc).coef ∧
      t.sticky.cfgErrHc = true)

/-- R135, R136: the peak stage, the bypass flags (R146), COEF_GEN, and what a refresh leaves alone (R145). -/
def Obligations.RefreshPeakAndFlags : Prop :=
  ∀ (s : State) (c : Channel),
    let k := s.committed
    let t := refresh s
    let p := Config.calcPeak k.sr k.pkFreq k.pkQ k.pkGain
    let ok := validPk k.sr k.pkFreq k.pkQ k.pkGain = true ∧ Machine.coefsFinite p = true
    (ok → (t.chan c).sec.pk.coef = p ∧ t.sticky.cfgErrPk = s.sticky.cfgErrPk) ∧
    (¬ ok → (t.chan c).sec.pk.coef = (s.chan c).sec.pk.coef ∧ t.sticky.cfgErrPk = true) ∧
    (t.chan c).bypLc = k.mode.lcByp ∧ (t.chan c).bypPk = k.mode.pkByp ∧ (t.chan c).bypHc = k.mode.hcByp ∧
    t.coefGen = s.coefGen + 1#32 ∧
    (∀ i, ((t.chan c).sec.get i).s1 = ((s.chan c).sec.get i).s1 ∧
      ((t.chan c).sec.get i).s2 = ((s.chan c).sec.get i).s2) ∧
    (t.chan c).fifo = (s.chan c).fifo ∧ (t.chan c).ana = (s.chan c).ana ∧ (t.chan c).spec = (s.chan c).spec ∧
    t = { s with l := t.l, r := t.r, coefGen := t.coefGen, sticky :=
      { s.sticky with
        cfgErrLc := t.sticky.cfgErrLc, cfgErrPk := t.sticky.cfgErrPk, cfgErrHc := t.sticky.cfgErrHc } }

/-- R136: the validity tests, over the exact values: the bounds are strict, and NaN and ±∞ fail. -/
def Obligations.ValidityTests : Prop :=
  ∀ fs f q g : Word,
    (validCut fs f = true ↔
      (isFinite fs = true ∧ isFinite f = true ∧ 0 < valReal f ∧ 2 * valReal f < valReal fs)) ∧
    (validPk fs f q g = true ↔
      (validCut fs f = true ∧ isFinite q = true ∧ 0 < valReal q ∧ isFinite g = true))

/-- R143: the high-cut stage does not depend on the low-cut frequency, nor the low-cut stage on the high-cut one. -/
def Obligations.StagesUseOwnFrequency : Prop :=
  ∀ (s : State) (f : Word) (c : Channel),
    let lowChanged := refresh { s with committed := { s.committed with lcFreq := f } }
    let highChanged := refresh { s with committed := { s.committed with hcFreq := f } }
    (∀ i ∈ SecId.highcut, (lowChanged.chan c).sec.get i = ((refresh s).chan c).sec.get i) ∧
    (lowChanged.chan c).enHc = ((refresh s).chan c).enHc ∧
    lowChanged.sticky.cfgErrHc = (refresh s).sticky.cfgErrHc ∧
    (∀ i ∈ SecId.lowcut, (highChanged.chan c).sec.get i = ((refresh s).chan c).sec.get i) ∧
    (highChanged.chan c).enLc = ((refresh s).chan c).enLc ∧
    highChanged.sticky.cfgErrLc = (refresh s).sticky.cfgErrLc

/-! The cascade (R147..R150, R158, R205). -/

/-- R149: one section, in the order and association of the rule; its coefficients are kept. Each of the nine operations
may draw a NaN of its own (R17), so the statement leaves their draws open. -/
def Obligations.BiquadOperations : Prop :=
  ∀ (d : Denorm) (n : Nat) (q : Section) (x : Word), ∃ k0 k1 k2 k3 k4 k5 k6 k7 k8 : Nat,
    [k0, k1, k2, k3, k4, k5, k6, k7, k8].Nodup ∧
    (let out := fadd d k1 (fmul d k0 x q.coef.b0) q.s1
     biquad d n q x =
       (out,
        { q with
          s1 := fadd d k5 (fsub d k4 (fmul d k2 x q.coef.b1) (fmul d k3 out q.coef.a1)) q.s2
          s2 := fsub d k8 (fmul d k6 x q.coef.b2) (fmul d k7 out q.coef.a2) }))

/-- R147, R148: which sections are active, over the bypass flags and enables; the cascade runs the value through the nine
sections in the order LC0..LC3, PK, HC0..HC3, an active one by `biquad` and an inactive one not at all; so it never
changes a coefficient, never touches an inactive section, and with every section inactive passes the word bit for bit.
That each active section takes nine draws is the model's choice (log 4). -/
def Obligations.InactiveSectionsSkipped : Prop :=
  ∀ (x : Chan) (d : Denorm) (n : Nat) (w : Word),
    (x.active .lc0 = (!x.bypLc && x.enLc.getLsbD 0) ∧ x.active .lc1 = (!x.bypLc && x.enLc.getLsbD 1) ∧
      x.active .lc2 = (!x.bypLc && x.enLc.getLsbD 2) ∧ x.active .lc3 = (!x.bypLc && x.enLc.getLsbD 3) ∧
      x.active .pk = !x.bypPk ∧
      x.active .hc0 = (!x.bypHc && x.enHc.getLsbD 0) ∧ x.active .hc1 = (!x.bypHc && x.enHc.getLsbD 1) ∧
      x.active .hc2 = (!x.bypHc && x.enHc.getLsbD 2) ∧ x.active .hc3 = (!x.bypHc && x.enHc.getLsbD 3)) ∧
    (let run : SecId → Lane → Lane := fun i a =>
        (if x.active i then
          { v := (biquad d a.draws (a.sec.get i) a.v).1
            sec := a.sec.set i (biquad d a.draws (a.sec.get i) a.v).2
            draws := a.draws + 9 }
        else a)
     x.chain d n w =
       run .hc3 (run .hc2 (run .hc1 (run .hc0 (run .pk (run .lc3 (run .lc2 (run .lc1 (run .lc0
         { v := w, sec := x.sec, draws := n }))))))))) ∧
    (∀ i, ((x.chain d n w).sec.get i).coef = (x.sec.get i).coef) ∧
    (∀ i, x.active i = false → (x.chain d n w).sec.get i = x.sec.get i) ∧
    ((∀ i, x.active i = false) → x.chain d n w = { v := w, sec := x.sec, draws := n })

/-- R150: the identity section from zero state. -/
def Obligations.IdentitySection : Prop :=
  ∀ (d : Denorm) (n : Nat) (x : Word),
    let r := biquad d n Section.reset x
    (isFinite x = true → x ≠ 0x80000000#32 → (isSubnormal x = false ∨ d = .ieee) →
      r = (x, Section.reset)) ∧
    (x = 0x80000000#32 → r = (0#32, { Section.reset with s2 := 0x80000000#32 })) ∧
    (x = 0x7F800000#32 → r.1 = x ∧ isNaN r.2.s1 = true ∧ isNaN r.2.s2 = true) ∧
    (isNaN x = true → isNaN r.1 = true ∧ isNaN r.2.s1 = true ∧ isNaN r.2.s2 = true) ∧
    (isSubnormal x = true → d = .ftzDaz → r.1 = 0#32)

/-- R205, R150: with finite coefficients and every state word a zero, a zero sample gives a zero and leaves every state
word a zero. -/
def Obligations.SilenceStaysSilent : Prop :=
  ∀ (x : Chan) (d : Denorm) (n : Nat) (w : Word),
    x.sec.coefsFinite = true → (∀ i, isZero (x.sec.get i).s1 = true ∧ isZero (x.sec.get i).s2 = true) →
    isZero w = true →
    isZero (x.chain d n w).v = true ∧
    ∀ i, isZero ((x.chain d n w).sec.get i).s1 = true ∧ isZero ((x.chain d n w).sec.get i).s2 = true

/-- R158: no operation combines lanes. The left lane's output and state do not depend on the right input or the right
channel; the right lane's do not depend on the left input, nor on anything of the left channel but its flags, which both
channels share (R49). That the two runs draw equal NaN words, for which the left channel's flags must be the same, is the
model's choice (log 4): R158 itself excepts NaN encodings. -/
def Obligations.LanesAreIndependent : Prop :=
  ∀ (s : State) (xl xl' xr xr' : Word) (y : Chan) (t t' : State),
    (exec (.frame xl xr) s = .next t → exec (.frame xl xr') { s with r := y } = .next t' →
      t'.l = t.l ∧
      (t'.audioOut.getLast?).map (fun b => b.extractLsb' 0 32) = (t.audioOut.getLast?).map fun b => b.extractLsb' 0 32) ∧
    (y.enLc = s.l.enLc → y.enHc = s.l.enHc → y.bypLc = s.l.bypLc → y.bypPk = s.l.bypPk → y.bypHc = s.l.bypHc →
      exec (.frame xl xr) s = .next t → exec (.frame xl' xr) { s with l := y } = .next t' →
      t'.r = t.r ∧
      (t'.audioOut.getLast?).map (fun b => b.extractLsb' 32 32) =
        (t.audioOut.getLast?).map fun b => b.extractLsb' 32 32)

/-! binary32 arithmetic (R13, R15..R17). -/

/-- R15 steps 1, 4 and 5, R13, for both values of DENORM: on finite operands, first flushed, with an exact result that is
not zero, the integer computation of the datapath is `b32` of the exact real sum, difference and product, flushed; an
exact zero sum is +0 but for (-0) + (-0), so x - x is +0; and `flush` is nothing under IEEE and, under FTZ_DAZ, the zero
of its sign for a subnormal. -/
def Obligations.DatapathIsCorrectlyRounded : Prop :=
  (∀ w : Word, flush .ieee w = w ∧
    flush .ftzDaz w = if isSubnormal w then (if signBit w then 0x80000000#32 else 0#32) else w) ∧
  ∀ (d : Denorm) (n : Nat) (a b : Word), isFinite a = true → isFinite b = true →
    let x := valReal (flush d a)
    let y := valReal (flush d b)
    (x + y ≠ 0 → fadd d n a b = flush d (b32 (x + y))) ∧
    (x - y ≠ 0 → fsub d n a b = flush d (b32 (x - y))) ∧
    (x * y ≠ 0 → fmul d n a b = flush d (b32 (x * y))) ∧
    (x + y = 0 → fadd d n a b = if signBit a && signBit b then 0x80000000#32 else 0#32) ∧
    fsub d n a a = 0#32

/-- R15 steps 2 to 5, R17: NaN operands and invalid operations give NaNs; infinities; signed zeros; and under FTZ_DAZ a
result is never subnormal and a subnormal operand counts as the zero of its sign. -/
def Obligations.DatapathSpecialCases : Prop :=
  ∀ (d : Denorm) (n : Nat) (a b : Word),
    (isNaN a = true ∨ isNaN b = true → isNaN (fadd d n a b) = true ∧ isNaN (fmul d n a b) = true) ∧
    (isInf a = true → isInf b = true → signBit a ≠ signBit b → isNaN (fadd d n a b) = true) ∧
    (isInf a = true → isFinite b = true → fadd d n a b = a ∧ fadd d n b a = a) ∧
    (isInf a = true → isZero b = true → isNaN (fmul d n a b) = true ∧ isNaN (fmul d n b a) = true) ∧
    (isInf a = true → isNaN b = false → isZero b = false → isSubnormal b = false →
      isInf (fmul d n a b) = true ∧ signBit (fmul d n a b) = (signBit a != signBit b)) ∧
    (isZero a = true → isZero b = true →
      fadd d n a b = (if signBit a && signBit b then 0x80000000#32 else 0#32)) ∧
    (isZero a = true → isFinite b = true →
      fmul d n a b = (if signBit a != signBit b then 0x80000000#32 else 0#32)) ∧
    isSubnormal (fadd .ftzDaz n a b) = false ∧ isSubnormal (fmul .ftzDaz n a b) = false ∧
    (isSubnormal a = true →
      fadd .ftzDaz n a b = fadd .ftzDaz n (if signBit a then 0x80000000#32 else 0#32) b ∧
      fmul .ftzDaz n a b = fmul .ftzDaz n (if signBit a then 0x80000000#32 else 0#32) b)

/-- R138: at 0 dB, on legal inputs with a sample rate of at least 4 Hz (twice the formula's 2 Hz floor), the reference
peak section is defined and has b0 = 1.0 exactly, b1 = a1 and b2 = a2. -/
def Obligations.ReferencePeakAtZeroDb : Prop :=
  ∀ sr f q : Word, validPk sr f q 0#32 = true → 4 ≤ valReal sr →
    ∃ p, refPeak sr f q 0#32 = some p ∧ p.b0 = 0x3F800000#32 ∧ p.b1 = p.a1 ∧ p.b2 = p.a2

/-! The FIFO (R166..R176). -/

/-- R167, R169, R170: on the FIFO of a reachable state, push is push on a queue of at most CAP blocks: a full queue loses
its oldest block, which FIFO_OVR counts, and the new block is last. -/
def Obligations.PushRefinesQueue : Prop :=
  ∀ (f : Fifo) (p : Params) (blk : List Word), p.legal = true → f.inv p = true → blk.length = p.fifoBlock →
    let g := f.push p blk
    g.queue p = (if f.full p then (f.queue p).tail else f.queue p) ++ [blk] ∧
    g.ovr = (if f.full p then f.ovr + 1#32 else f.ovr) ∧
    (f.full p = true ↔ (f.queue p).length = p.fifoCap) ∧
    (∀ a, g.ring.read a =
      if f.wp * p.fifoBlock ≤ a ∧ a < f.wp * p.fifoBlock + p.fifoBlock then blk.getD (a - f.wp * p.fifoBlock) 0#32
      else f.ring.read a) ∧
    g.w = f.w + 1#32 ∧ g.acc = f.acc ∧ g.k = f.k ∧ g.inv p = true

/-- R171, R172: pop answers the oldest block and leaves the others; it answers nothing exactly where the queue is empty,
that is where FIFO_LVL is 0. -/
def Obligations.PopRefinesQueue : Prop :=
  ∀ (f : Fifo) (p : Params), p.legal = true → f.inv p = true →
    (f.queue p = [] → f.pop p = none) ∧
    (∀ blk rest, f.queue p = blk :: rest →
      ∃ g, f.pop p = some (blk, g) ∧ g.queue p = rest ∧ g.ovr = f.ovr ∧ g.w = f.w ∧ g.inv p = true) ∧
    (f.queue p).length = f.occ.toNat

/-- R173, R174: from an empty FIFO, pushing m blocks and popping as often as one likes gives the last min(m, CAP) of them
in push order, then nothing; ovr has grown by the number dropped, and min(m, CAP) blocks wait before the pops. -/
def Obligations.FifoRoundTripAndOverrun : Prop :=
  ∀ (f : Fifo) (p : Params) (blks : List (List Word)) (n : Nat),
    p.legal = true → f.inv p = true → f.occ = 0#32 → (∀ b ∈ blks, b.length = p.fifoBlock) →
    blks.length ≤ n →
    let g := pushBlocks f p blks
    (popBlocks p n g).1 = blks.drop (blks.length - p.fifoCap) ∧ ((popBlocks p n g).2.pop p = none) ∧
    g.ovr = f.ovr + BitVec.ofNat 32 (blks.length - p.fifoCap) ∧ g.occ.toNat = min blks.length p.fifoCap

/-- R168: B samples accepted from an empty accumulator are one push of those samples in order, and leave the accumulator
empty; fewer are no push. -/
def Obligations.AccumulatorGathersBlocks : Prop :=
  ∀ (f : Fifo) (p : Params) (xs : List Word),
    p.legal = true → f.inv p = true → f.k = 0 →
    let g := xs.foldl (fun h x => h.accept p x) f
    (xs.length < p.fifoBlock →
      g.k = xs.length ∧ g.queue p = f.queue p ∧ g.w = f.w ∧ g.r = f.r ∧ g.ovr = f.ovr ∧
        ∀ i, i < xs.length → g.acc.read i = xs.getD i 0#32) ∧
    (xs.length = p.fifoBlock →
      g.k = 0 ∧ g.queue p = (f.push p xs).queue p ∧ g.w = f.w + 1#32 ∧ g.ovr = (f.push p xs).ovr)

/-! The analyzer (R190..R206). -/

/-- R195, R191: shifting a block in leaves the last N samples of the old buffer followed by the block, oldest first. -/
def Obligations.ShiftInKeepsNewest : Prop :=
  ∀ (m : Memory) (n : Nat) (blk : List Word), m.wf = true → blk.length ≤ n →
    (shiftIn m n blk).readAll 0 n = (m.readAll 0 n ++ blk).drop blk.length ∧
    (shiftIn m n blk).wf = true ∧ (shiftIn m n blk).below n = true

/-- R193, R194: an enabled ANA_STEP takes the oldest block, shifts it in and, on every K-th, publishes the spectrum of
the shifted buffer under the FLOOR_DB of this step; a disabled one changes nothing. R190: it touches nothing but its own
channel's FIFO indices R and rp, `ana[c]`, and `pub`, `gen` and `avail`. -/
def Obligations.AnaStep : Prop :=
  ∀ (c : Channel) (s : State),
    (s.ctrl.anaEn = false ∨ (s.chan c).fifo.w = (s.chan c).fifo.r → anaTurn c s = s) ∧
    (s.ctrl.anaEn = true → (s.chan c).fifo.w ≠ (s.chan c).fifo.r →
      let x := s.chan c
      let y := (anaTurn c s).chan c
      let buf := shiftIn x.ana.abuf s.cfg.fftSize (x.fifo.slot s.cfg.fifoBlock x.fifo.rp)
      y.ana.abuf = buf ∧ y.fifo.r = x.fifo.r + 1#32 ∧ y.fifo.rp = (x.fifo.rp + 1) % s.cfg.fifoCap ∧
      (x.ana.fresh + 1 = s.cfg.hopBlocks →
        y.ana.fresh = 0 ∧ y.spec.gen = x.spec.gen + 1#32 ∧
        y.spec.avail = (if x.spec.avail = 0xFFFFFFFF#32 then 0xFFFFFFFF#32 else x.spec.avail + 1#32) ∧
        ∀ k, k < s.cfg.bins →
          y.spec.pub.read k =
            (spectrum (buf.readAll 0 s.cfg.fftSize) s.floorDb s.cfg.bins).getD k 0#32) ∧
      (x.ana.fresh + 1 ≠ s.cfg.hopBlocks → y.ana.fresh = x.ana.fresh + 1 ∧ y.spec = x.spec)) ∧
    (let x := s.chan c
     let y := (anaTurn c s).chan c
     anaTurn c s = s.setChan c y ∧
     y = { x with
       fifo := { x.fifo with r := y.fifo.r, rp := y.fifo.rp }
       ana := y.ana
       spec := { x.spec with pub := y.spec.pub, gen := y.spec.gen, avail := y.spec.avail } })

/-- R190, R264: nothing an analyzer does changes the audio path: a beat after an ANA_STEP emits what it emits without it,
and leaves the same filter state, coefficients, flags and counters. That both runs draw equal NaN words, and the draw
counter itself, are the model's choice (log 4). -/
def Obligations.AnalyzerNeverAffectsAudio : Prop :=
  ∀ (c : Channel) (i : Instr) (s t u : State), i.port = .audio → exec i s = .next t → exec i (anaTurn c s) = .next u →
    u.audioOut = t.audioOut ∧ u.inBlock = t.inBlock ∧ u.dirty = t.dirty ∧ u.coefGen = t.coefGen ∧
    u.blkCnt = t.blkCnt ∧ u.frameCnt = t.frameCnt ∧ u.draws = t.draws ∧
    ∀ d, (u.chan d).sec = (t.chan d).sec ∧ (u.chan d).activeState = (t.chan d).activeState

/-- R199 (b), (c), (d), R202: silence, a non-finite sample and a NaN floor give F's own word in every bin; every bin is F
or a value above F; and there are as many bins as asked for. -/
def Obligations.SpectrumProperties : Prop :=
  ∀ (x : List Word) (f : Word) (n : Nat),
    (spectrum x f n).length = n ∧
    ((∀ w ∈ x, isZero w = true) → ∀ b ∈ spectrum x f n, b = f) ∧
    ((∃ w ∈ x, isFinite w = false) → ∀ b ∈ spectrum x f n, b = f) ∧
    (isNaN f = true → ∀ b ∈ spectrum x f n, b = f) ∧
    (∀ b ∈ spectrum x f n, b = f ∨ fless f b = true)

/-- R203, R251: the spectrum window and SPEC_SEQ of a channel change only at SPEC_ACQ of that channel, PREPARE and
SOFT_RESET among the transactions, and never in an ANA_STEP. -/
def Obligations.WindowChangesOnlyOnAcquire : Prop :=
  ∀ (c d : Channel) (i : Instr) (s t : State),
    (exec i s = .next t →
      (i.resolve ≠ (match c with | .L => Instr.specAcqL | .R => Instr.specAcqR)) →
      i.resolve ≠ .prepare → i.resolve ≠ .softReset →
      ∀ k, readLoc t (.bin c k) = readLoc s (.bin c k) ∧ readLoc t (.specSeq c) = readLoc s (.specSeq c)) ∧
    ∀ k, readLoc (anaTurn d s) (.bin c k) = readLoc s (.bin c k) ∧
      readLoc (anaTurn d s) (.specSeq c) = readLoc s (.specSeq c)

/-- R193, R262: with ANA_EN = 1, as many turns of ANA_c as there are blocks waiting drain channel c's FIFO, and ANA_c is
then disabled. -/
def Obligations.AnalyzerDrainsFifo : Prop :=
  ∀ (c : Channel) (s : State) (ts : List Turn),
    s.cfg.legal = true → s.ctrl.anaEn = true →
    s.sched = List.replicate (s.chan c).fifo.occ.toNat (Turn.ana c) ++ ts →
    ∃ t, Sys2Proof.core.run (s.chan c).fifo.occ.toNat s = .next t ∧ anaEnabled c t = false ∧
      (t.chan c).fifo.occ = 0#32 ∧ t.sched = ts ∧ t.ctrlIn = s.ctrlIn ∧ t.audioIn = s.audioIn

/-! Whole-machine rules. -/

/-- R30: no step changes the configuration. -/
def Obligations.ConfigurationNeverChanges : Prop := ∀ s t : State, step s = .next t → t.cfg = s.cfg

/-- R36, R212: a sticky bit that is 1 stays 1 but for the host's write of 1 to it, PREPARE (OVR_L and OVR_R only) and
SOFT_RESET; no ANA_STEP clears one. -/
def Obligations.StickyBitsPersist : Prop :=
  ∀ (i : Instr) (s t : State) (e : ErrorBit) (c : Channel), s.sticky.get e = true →
    (exec i s = .next t →
      t.sticky.get e = true ∨ (∃ d : Word, i.resolve = .wrStatus d ∧ d.getLsbD e.code = true) ∨
      (i.resolve = .prepare ∧ ∃ ch, e = .ovr ch) ∨ i.resolve = .softReset) ∧
    (anaTurn c s).sticky.get e = true

/-- R90, R153: the coefficients, enables and bypass flags of the datapath change only in a step that opens a block with
DIRTY = 1, and at SOFT_RESET; in particular no write to a staged register and no COMMIT reaches them. -/
def Obligations.CoefficientsChangeOnlyAtBlockStart : Prop :=
  ∀ (i : Instr) (s t : State) (c d : Channel),
    (exec i s = .next t → (t.chan c).activeState ≠ (s.chan c).activeState →
      i.resolve = .softReset ∨
      (s.dirty = true ∧ (i = .beginBlock ∨ (s.inBlock = false ∧ ∃ xl xr, i = .frame xl xr)))) ∧
    ((anaTurn d s).chan c).activeState = (s.chan c).activeState

/-- R44, R39: the committed settings change only at COMMIT, PREPARE and SOFT_RESET, and after the first two they are the
staged ones, all at once. -/
def Obligations.CommittedOnlyByCommit : Prop :=
  ∀ (i : Instr) (s t : State), exec i s = .next t →
    t.committed = s.committed ∨ ((i.resolve = .commit ∨ i.resolve = .prepare) ∧ t.committed = s.staged) ∨
    (i.resolve = .softReset ∧ t.committed = Settings.reset)

/-- The invariant of the reachable states (R49, R137, R167, R205 and the canonical memories) is kept by every step, from
every state that has it. -/
def Obligations.StepKeepsInv : Prop := ∀ s t : State, s.inv = true → step s = .next t → t.inv = true

/-- The invariant holds at reset. -/
def Obligations.ResetInv : Prop := State.reset.inv = true

/-- R244: what the spec's registers read after reset, and the channels. The words of ring and acc, the parameters and the
model's own fields are the model's choice (log 1, log 2, log 5) and are not part of it. -/
def Obligations.ResetValues : Prop := State.reset.atReset
end

