-- ==== Sys2Proof/Laws/Decode.lean ====
section
/-! SUPPORT. The fields of an encoded request or beat are the fields it was made of (R100, R103). -/

namespace Sys2Proof

@[simp] theorem ctlData_ctlWord (size : BitVec 2) (we : Bool) (addr : BitVec 16) (d : Word) :
    ctlData (ctlWord size we addr d) = d :=
  BitVec.extractLsb'_append_eq_right

theorem ctlWord_eq_append (size : BitVec 2) (we : Bool) (addr : BitVec 16) (d : Word) :
    ctlWord size we addr d = (((size ++ BitVec.ofBool we : BitVec 3) ++ addr : BitVec 19) ++ d : BitVec 51) := rfl

@[simp] theorem ctlAddr_ctlWord (size : BitVec 2) (we : Bool) (addr : BitVec 16) (d : Word) :
    ctlAddr (ctlWord size we addr d) = addr := by
  ext i hi
  rw [ctlAddr, ctlWord_eq_append, BitVec.getElem_extractLsb', BitVec.getLsbD_append, BitVec.getLsbD_append]
  simp [hi, BitVec.getLsbD_eq_getElem]

@[simp] theorem ctlWe_ctlWord (size : BitVec 2) (we : Bool) (addr : BitVec 16) (d : Word) :
    ctlWe (ctlWord size we addr d) = we := by
  rw [ctlWe, ctlWord_eq_append, BitVec.getLsbD_append, BitVec.getLsbD_append, BitVec.getLsbD_append]
  simp

@[simp] theorem ctlSize_ctlWord (size : BitVec 2) (we : Bool) (addr : BitVec 16) (d : Word) :
    ctlSize (ctlWord size we addr d) = size := by
  ext i hi
  rw [ctlSize, ctlWord_eq_append, BitVec.getElem_extractLsb', BitVec.getLsbD_append, BitVec.getLsbD_append,
    BitVec.getLsbD_append]
  have h32 : ¬ 49 + i < 32 := by omega
  have h16 : ¬ 49 + i - 32 < 16 := by omega
  have h1 : ¬ 49 + i - 32 - 16 < 1 := by omega
  have hs : 49 + i - 32 - 16 - 1 = i := by omega
  simp [h32, h16, h1, hs, BitVec.getLsbD_eq_getElem hi]

theorem audWord_eq_append (tag : BitVec 2) (xr xl : Word) :
    audWord tag xr xl = ((tag ++ xr : BitVec 34) ++ xl : BitVec 66) := rfl

@[simp] theorem audXl_audWord (tag : BitVec 2) (xr xl : Word) : audXl (audWord tag xr xl) = xl :=
  BitVec.extractLsb'_append_eq_right

@[simp] theorem audXr_audWord (tag : BitVec 2) (xr xl : Word) : audXr (audWord tag xr xl) = xr := by
  ext i hi
  rw [audXr, audWord_eq_append, BitVec.getElem_extractLsb', BitVec.getLsbD_append, BitVec.getLsbD_append]
  simp [hi, BitVec.getLsbD_eq_getElem]

@[simp] theorem audTag_audWord (tag : BitVec 2) (xr xl : Word) : audTag (audWord tag xr xl) = tag := by
  ext i hi
  rw [audTag, audWord_eq_append, BitVec.getElem_extractLsb', BitVec.getLsbD_append, BitVec.getLsbD_append]
  have h32 : ¬ 64 + i < 32 := by omega
  have h32' : ¬ 64 + i - 32 < 32 := by omega
  have hs : 64 + i - 32 - 32 = i := by omega
  simp [h32, h32', hs, BitVec.getLsbD_eq_getElem hi]

/-- A control request is read back from its term. -/
@[simp] theorem decode_ctlTerm (r : BitVec 51) : decode .control (ctlTerm r) = .ok (decodeCtl r) := by
  have h : r.toNat < 2251799813685248 := r.isLt
  simp [decode, ctlTerm, PortWord.fits, Port.width, h]

/-- An audio beat is read back from its term. -/
@[simp] theorem decode_audTerm (b : BitVec 66) : decode .audio (audTerm b) = .ok (decodeAud b) := by
  have h : b.toNat < 73786976294838206464 := b.isLt
  simp [decode, audTerm, PortWord.fits, Port.width, h]

/-- A legal write decodes by its offset and data word. -/
theorem decodeCtl_wrWord (off : BitVec 16) (d : Word) (h : Machine.mapped off = true) :
    decodeCtl (wrWord off d) = decodeWrite off d := by
  simp [decodeCtl, wrWord, legalRequest, h]

end Sys2Proof
end

