-- ==== Sys2Proof/Laws/Memory.lean ====
section
/-! SUPPORT. The internal memories (R78): read after write, and the canonical form is kept by every operation. -/

namespace Sys2Proof.Machine

/-- Strictly rising indices, no listed +0.0: the canonical form as a proposition. -/
def Memory.Canonical (m : Memory) : Prop := (m.Pairwise fun x y => x.1 < y.1) ∧ ∀ x ∈ m, x.2 ≠ 0#32

theorem Memory.wf_iff (m : Memory) : m.wf = true ↔ m.Canonical := by
  simp [Memory.wf, Memory.Canonical]

theorem Memory.below_iff (m : Memory) (n : Nat) : m.below n = true ↔ ∀ x ∈ m, x.1 < n := by
  simp [Memory.below]

@[simp] theorem Memory.read_nil (i : Nat) : Memory.read [] i = 0#32 := rfl

theorem Memory.read_cons (j : Nat) (u : Word) (m : Memory) (i : Nat) :
    Memory.read ((j, u) :: m) i = if i = j then u else Memory.read m i := by
  by_cases h : i = j
  · simp [Memory.read, h]
  · have hb : (i == j) = false := by simpa using h
    simp [Memory.read, List.lookup_cons, h, hb]

/-- An element below every listed index holds +0.0. -/
theorem Memory.read_of_lt {m : Memory} {i : Nat} (h : ∀ x ∈ m, i < x.1) : Memory.read m i = 0#32 := by
  induction m with
  | nil => rfl
  | cons x m ih =>
    obtain ⟨j, u⟩ := x
    have hj : i < j := h (j, u) (by simp)
    rw [Memory.read_cons, if_neg (by omega), ih fun x hx => h x (by simp [hx])]

theorem Memory.mem_write {m : Memory} {i : Nat} {v : Word} {x : Nat × Word} (hx : x ∈ m.write i v) :
    x ∈ m ∨ (x = (i, v) ∧ v ≠ 0#32) := by
  induction m with
  | nil =>
    simp only [Memory.write] at hx
    split at hx <;> simp_all
  | cons y m ih =>
    obtain ⟨j, u⟩ := y
    simp only [Memory.write] at hx
    split at hx
    · split at hx <;> simp_all
      tauto
    · split at hx
      · split at hx <;> simp_all
        tauto
      · rcases List.mem_cons.1 hx with rfl | hx
        · simp
        · rcases ih hx with h | h <;> simp [h]

/-- A write keeps the canonical form. -/
theorem Memory.Canonical.write {m : Memory} (h : m.Canonical) (i : Nat) (v : Word) :
    Memory.Canonical (m.write i v) := by
  refine ⟨?_, fun x hx => ?_⟩
  · induction m with
    | nil =>
      simp only [Memory.write]
      split <;> simp
    | cons y m ih =>
      obtain ⟨j, u⟩ := y
      obtain ⟨hp, hz⟩ := h
      rw [List.pairwise_cons] at hp
      have hm : Memory.Canonical m := ⟨hp.2, fun x hx => hz x (by simp [hx])⟩
      simp only [Memory.write]
      split
      · split
        · exact List.pairwise_cons.2 hp
        · refine List.pairwise_cons.2 ⟨fun x hx => ?_, List.pairwise_cons.2 hp⟩
          rcases List.mem_cons.1 hx with rfl | hx
          · assumption
          · have := hp.1 x hx
            simp only at this ⊢
            omega
      · split
        · subst i
          split
          · exact hp.2
          · exact List.pairwise_cons.2 hp
        · refine List.pairwise_cons.2 ⟨fun x hx => ?_, ih hm⟩
          rcases Memory.mem_write hx with hx | ⟨rfl, _⟩
          · exact hp.1 x hx
          · simp only
            omega
  · rcases Memory.mem_write hx with hx | ⟨rfl, hv⟩
    · exact h.2 x hx
    · exact hv

/-- A read after a write: the written element holds the value, every other element what it held. -/
theorem Memory.read_write {m : Memory} (h : m.Canonical) (i : Nat) (v : Word) (a : Nat) :
    (m.write i v).read a = if a = i then v else m.read a := by
  induction m with
  | nil =>
    simp only [Memory.write]
    split <;> by_cases ha : a = i <;> simp_all [Memory.read_cons]
  | cons y m ih =>
    obtain ⟨j, u⟩ := y
    obtain ⟨hp, hz⟩ := h
    rw [List.pairwise_cons] at hp
    have hm : Memory.Canonical m := ⟨hp.2, fun x hx => hz x (by simp [hx])⟩
    have hlow : ∀ b, b ≤ j → Memory.read m b = 0#32 := fun b hb =>
      Memory.read_of_lt fun x hx => Nat.lt_of_le_of_lt hb (hp.1 x hx)
    simp only [Memory.write]
    split
    · rename_i hij
      split
      · rename_i hv
        by_cases ha : a = i
        · subst a
          rw [Memory.read_cons, if_neg (by omega), hlow i (by omega), if_pos rfl, hv]
        · rw [if_neg ha]
      · rw [Memory.read_cons]
    · rename_i hij
      split
      · rename_i hij'
        subst i
        split
        · rename_i hv
          by_cases ha : a = j
          · rw [if_pos ha, ha, hlow j (le_refl j), hv]
          · rw [if_neg ha, Memory.read_cons, if_neg ha]
        · rw [Memory.read_cons, Memory.read_cons]
          by_cases ha : a = j <;> simp [ha]
      · rw [Memory.read_cons, ih hm, Memory.read_cons]
        by_cases ha : a = i <;> by_cases hb : a = j <;> simp_all

theorem Memory.below_write {m : Memory} {n i : Nat} {v : Word} (h : ∀ x ∈ m, x.1 < n) (hi : i < n) :
    ∀ x ∈ m.write i v, x.1 < n := by
  intro x hx
  rcases Memory.mem_write hx with hx | ⟨rfl, _⟩
  · exact h x hx
  · exact hi

/-- Writing a list of words keeps the canonical form. -/
theorem Memory.Canonical.writeAll {m : Memory} (h : m.Canonical) (i : Nat) (vs : List Word) :
    Memory.Canonical (m.writeAll i vs) := by
  induction vs generalizing m i with
  | nil => exact h
  | cons v vs ih => exact ih (h.write i v) (i + 1)

theorem Memory.below_writeAll {m : Memory} {n i : Nat} {vs : List Word} (h : ∀ x ∈ m, x.1 < n)
    (hi : i + vs.length ≤ n) : ∀ x ∈ m.writeAll i vs, x.1 < n := by
  induction vs generalizing m i with
  | nil => exact h
  | cons v vs ih =>
    simp only [List.length_cons] at hi
    exact ih (Memory.below_write h (by omega)) (by omega)

/-- A read after a list is written: the element at place `t` of the list is at `i + t`, the others are as before. -/
theorem Memory.read_writeAll {m : Memory} (h : m.Canonical) (i : Nat) (vs : List Word) (a : Nat) :
    (m.writeAll i vs).read a = if i ≤ a ∧ a < i + vs.length then vs.getD (a - i) 0#32 else m.read a := by
  induction vs generalizing m i with
  | nil =>
    have : ¬ (i ≤ a ∧ a < i + ([] : List Word).length) := by simp
    rw [if_neg this]
    rfl
  | cons v vs ih =>
    rw [Memory.writeAll, ih (h.write i v), Memory.read_write h]
    simp only [List.length_cons]
    by_cases h1 : a = i
    · subst a
      rw [if_neg (by omega), if_pos rfl, if_pos (by omega)]
      simp
    · by_cases h2 : i ≤ a ∧ a < i + (vs.length + 1)
      · have hs : a - i = (a - (i + 1)) + 1 := by omega
        rw [if_pos (by omega), if_pos h2, hs, List.getD_cons_succ]
      · rw [if_neg (by omega), if_neg h1, if_neg h2]

/-- Moving down keeps the canonical form. -/
theorem Memory.Canonical.shiftDown {m : Memory} (h : m.Canonical) (b n : Nat) :
    Memory.Canonical (m.shiftDown b n) := by
  obtain ⟨hp, hz⟩ := h
  refine ⟨?_, ?_⟩
  · rw [Memory.shiftDown, List.pairwise_map]
    refine (hp.filter _).imp_of_mem fun {x y} hx hy hxy => ?_
    simp only [List.mem_filter, Bool.and_eq_true, decide_eq_true_eq] at hx hy ⊢
    omega
  · intro x hx
    simp only [Memory.shiftDown, List.mem_map, List.mem_filter] at hx
    obtain ⟨y, ⟨hy, _⟩, rfl⟩ := hx
    exact hz y hy

theorem Memory.below_shiftDown (m : Memory) (b n : Nat) : ∀ x ∈ m.shiftDown b n, x.1 < n := by
  intro x hx
  simp only [Memory.shiftDown, List.mem_map, List.mem_filter, Bool.and_eq_true, decide_eq_true_eq] at hx
  obtain ⟨y, ⟨_, hb, hn⟩, rfl⟩ := hx
  simp only
  omega

/-- A read after moving down: element `a` is the old element `a + b` where that lies below `n`. -/
theorem Memory.read_shiftDown (m : Memory) (b n a : Nat) :
    (m.shiftDown b n).read a = if a + b < n then m.read (a + b) else 0#32 := by
  induction m with
  | nil => simp [Memory.shiftDown]
  | cons y m ih =>
    obtain ⟨j, u⟩ := y
    by_cases hj : b ≤ j ∧ j < n
    · have hs : Memory.shiftDown ((j, u) :: m) b n = (j - b, u) :: Memory.shiftDown m b n := by
        simp [Memory.shiftDown, hj.1, hj.2]
      rw [hs, Memory.read_cons, ih, Memory.read_cons]
      by_cases ha : a = j - b
      · have : a + b = j := by omega
        rw [if_pos ha, this, if_pos rfl, if_pos hj.2]
      · have : ¬ a + b = j := by omega
        rw [if_neg ha, if_neg this]
    · have hs : Memory.shiftDown ((j, u) :: m) b n = Memory.shiftDown m b n := by
        have : (decide (b ≤ j) && decide (j < n)) = false := by
          simpa using hj
        simp [Memory.shiftDown, this]
      rw [hs, ih, Memory.read_cons]
      by_cases ha : a + b < n
      · have : ¬ a + b = j := by omega
        simp [this]
      · simp [ha]

/-- Two canonical memories that read the same at every element are the same data. -/
theorem Memory.ext_read {m m' : Memory} (h : m.Canonical) (h' : m'.Canonical) (hr : ∀ a, m.read a = m'.read a) :
    m = m' := by
  induction m generalizing m' with
  | nil =>
    cases m' with
    | nil => rfl
    | cons y m' =>
      obtain ⟨j, u⟩ := y
      have := hr j
      simp only [Memory.read_nil, Memory.read_cons, if_true] at this
      exact absurd this.symm (h'.2 (j, u) (by simp))
  | cons x m ih =>
    obtain ⟨i, v⟩ := x
    have hm : Memory.Canonical m := ⟨(List.pairwise_cons.1 h.1).2, fun x hx => h.2 x (by simp [hx])⟩
    have hlow := (List.pairwise_cons.1 h.1).1
    have hv : v ≠ 0#32 := h.2 (i, v) (by simp)
    cases m' with
    | nil =>
      have := hr i
      simp only [Memory.read_nil, Memory.read_cons, if_true] at this
      exact absurd this hv
    | cons y m' =>
      obtain ⟨j, u⟩ := y
      have hm' : Memory.Canonical m' := ⟨(List.pairwise_cons.1 h'.1).2, fun x hx => h'.2 x (by simp [hx])⟩
      have hlow' := (List.pairwise_cons.1 h'.1).1
      have hu : u ≠ 0#32 := h'.2 (j, u) (by simp)
      have hi0 : ∀ b, b ≤ i → Memory.read m b = 0#32 := fun b hb =>
        Memory.read_of_lt fun x hx => Nat.lt_of_le_of_lt hb (hlow x hx)
      have hj0 : ∀ b, b ≤ j → Memory.read m' b = 0#32 := fun b hb =>
        Memory.read_of_lt fun x hx => Nat.lt_of_le_of_lt hb (hlow' x hx)
      have hij : i = j := by
        rcases Nat.lt_trichotomy i j with hlt | heq | hgt
        · have := hr i
          rw [Memory.read_cons, if_pos rfl, Memory.read_cons, if_neg (by omega), hj0 i (by omega)] at this
          exact absurd this hv
        · exact heq
        · have := hr j
          rw [Memory.read_cons, if_neg (by omega), hi0 j (by omega), Memory.read_cons, if_pos rfl] at this
          exact absurd this.symm hu
      subst j
      have hvu : v = u := by
        have := hr i
        simpa [Memory.read_cons] using this
      subst u
      have : m = m' := ih hm hm' fun a => by
        by_cases ha : a = i
        · rw [ha, hi0 i (le_refl i), hj0 i (le_refl i)]
        · have := hr a
          simpa [Memory.read_cons, ha] using this
      rw [this]

@[simp] theorem Memory.length_readAll (m : Memory) (i n : Nat) : (m.readAll i n).length = n := by
  simp [Memory.readAll]

theorem Memory.getElem_readAll (m : Memory) (i n t : Nat) (h : t < (m.readAll i n).length) :
    (m.readAll i n)[t] = m.read (i + t) := by
  simp [Memory.readAll]

/-- Shifting a block in keeps the canonical form. -/
theorem shiftIn_canonical {m : Memory} (h : m.Canonical) (n : Nat) (blk : List Word) :
    Memory.Canonical (shiftIn m n blk) :=
  (h.shiftDown _ _).writeAll _ _

end Sys2Proof.Machine
end

