-- ==== Sys2Proof/Laws/State.lean ====
section
/-! SUPPORT. One lemma per field for each update of the state that the meanings share, so that no proof unfolds a record
update; and what a channel and a section are after one of them is replaced. -/

namespace Sys2Proof.Machine

/-! `setChan` -/

@[simp] theorem State.setChan_ctrl (s : State) (c : Channel) (x : Chan) : (s.setChan c x).ctrl = s.ctrl :=
    by cases c <;> rfl
@[simp] theorem State.setChan_dirty (s : State) (c : Channel) (x : Chan) : (s.setChan c x).dirty = s.dirty :=
    by cases c <;> rfl
@[simp] theorem State.setChan_inBlock (s : State) (c : Channel) (x : Chan) : (s.setChan c x).inBlock = s.inBlock :=
    by cases c <;> rfl
@[simp] theorem State.setChan_sticky (s : State) (c : Channel) (x : Chan) : (s.setChan c x).sticky = s.sticky :=
    by cases c <;> rfl
@[simp] theorem State.setChan_coefGen (s : State) (c : Channel) (x : Chan) : (s.setChan c x).coefGen = s.coefGen :=
    by cases c <;> rfl
@[simp] theorem State.setChan_floorDb (s : State) (c : Channel) (x : Chan) : (s.setChan c x).floorDb = s.floorDb :=
    by cases c <;> rfl
@[simp] theorem State.setChan_staged (s : State) (c : Channel) (x : Chan) : (s.setChan c x).staged = s.staged :=
    by cases c <;> rfl
@[simp] theorem State.setChan_committed (s : State) (c : Channel) (x : Chan) : (s.setChan c x).committed = s.committed :=
    by cases c <;> rfl
@[simp] theorem State.setChan_blkCnt (s : State) (c : Channel) (x : Chan) : (s.setChan c x).blkCnt = s.blkCnt :=
    by cases c <;> rfl
@[simp] theorem State.setChan_frameCnt (s : State) (c : Channel) (x : Chan) : (s.setChan c x).frameCnt = s.frameCnt :=
    by cases c <;> rfl
@[simp] theorem State.setChan_cfg (s : State) (c : Channel) (x : Chan) : (s.setChan c x).cfg = s.cfg :=
    by cases c <;> rfl
@[simp] theorem State.setChan_ctrlIn (s : State) (c : Channel) (x : Chan) : (s.setChan c x).ctrlIn = s.ctrlIn :=
    by cases c <;> rfl
@[simp] theorem State.setChan_audioIn (s : State) (c : Channel) (x : Chan) : (s.setChan c x).audioIn = s.audioIn :=
    by cases c <;> rfl
@[simp] theorem State.setChan_ctrlOut (s : State) (c : Channel) (x : Chan) : (s.setChan c x).ctrlOut = s.ctrlOut :=
    by cases c <;> rfl
@[simp] theorem State.setChan_audioOut (s : State) (c : Channel) (x : Chan) : (s.setChan c x).audioOut = s.audioOut :=
    by cases c <;> rfl
@[simp] theorem State.setChan_sched (s : State) (c : Channel) (x : Chan) : (s.setChan c x).sched = s.sched :=
    by cases c <;> rfl
@[simp] theorem State.setChan_draws (s : State) (c : Channel) (x : Chan) : (s.setChan c x).draws = s.draws :=
    by cases c <;> rfl

/-! `raise` -/

@[simp] theorem raise_ctrl (e : ErrorBit) (s : State) : (raise e s).ctrl = s.ctrl := rfl
@[simp] theorem raise_dirty (e : ErrorBit) (s : State) : (raise e s).dirty = s.dirty := rfl
@[simp] theorem raise_inBlock (e : ErrorBit) (s : State) : (raise e s).inBlock = s.inBlock := rfl
@[simp] theorem raise_sticky (e : ErrorBit) (s : State) : (raise e s).sticky = s.sticky.set e := rfl
@[simp] theorem raise_coefGen (e : ErrorBit) (s : State) : (raise e s).coefGen = s.coefGen := rfl
@[simp] theorem raise_floorDb (e : ErrorBit) (s : State) : (raise e s).floorDb = s.floorDb := rfl
@[simp] theorem raise_staged (e : ErrorBit) (s : State) : (raise e s).staged = s.staged := rfl
@[simp] theorem raise_committed (e : ErrorBit) (s : State) : (raise e s).committed = s.committed := rfl
@[simp] theorem raise_blkCnt (e : ErrorBit) (s : State) : (raise e s).blkCnt = s.blkCnt := rfl
@[simp] theorem raise_frameCnt (e : ErrorBit) (s : State) : (raise e s).frameCnt = s.frameCnt := rfl
@[simp] theorem raise_l (e : ErrorBit) (s : State) : (raise e s).l = s.l := rfl
@[simp] theorem raise_r (e : ErrorBit) (s : State) : (raise e s).r = s.r := rfl
@[simp] theorem raise_cfg (e : ErrorBit) (s : State) : (raise e s).cfg = s.cfg := rfl
@[simp] theorem raise_ctrlIn (e : ErrorBit) (s : State) : (raise e s).ctrlIn = s.ctrlIn := rfl
@[simp] theorem raise_audioIn (e : ErrorBit) (s : State) : (raise e s).audioIn = s.audioIn := rfl
@[simp] theorem raise_ctrlOut (e : ErrorBit) (s : State) : (raise e s).ctrlOut = s.ctrlOut := rfl
@[simp] theorem raise_audioOut (e : ErrorBit) (s : State) : (raise e s).audioOut = s.audioOut := rfl
@[simp] theorem raise_sched (e : ErrorBit) (s : State) : (raise e s).sched = s.sched := rfl
@[simp] theorem raise_draws (e : ErrorBit) (s : State) : (raise e s).draws = s.draws := rfl

/-! `respond` -/

@[simp] theorem respond_ctrl (a : Resp) (s : State) : (respond a s).ctrl = s.ctrl := rfl
@[simp] theorem respond_dirty (a : Resp) (s : State) : (respond a s).dirty = s.dirty := rfl
@[simp] theorem respond_inBlock (a : Resp) (s : State) : (respond a s).inBlock = s.inBlock := rfl
@[simp] theorem respond_sticky (a : Resp) (s : State) : (respond a s).sticky = s.sticky := rfl
@[simp] theorem respond_coefGen (a : Resp) (s : State) : (respond a s).coefGen = s.coefGen := rfl
@[simp] theorem respond_floorDb (a : Resp) (s : State) : (respond a s).floorDb = s.floorDb := rfl
@[simp] theorem respond_staged (a : Resp) (s : State) : (respond a s).staged = s.staged := rfl
@[simp] theorem respond_committed (a : Resp) (s : State) : (respond a s).committed = s.committed := rfl
@[simp] theorem respond_blkCnt (a : Resp) (s : State) : (respond a s).blkCnt = s.blkCnt := rfl
@[simp] theorem respond_frameCnt (a : Resp) (s : State) : (respond a s).frameCnt = s.frameCnt := rfl
@[simp] theorem respond_l (a : Resp) (s : State) : (respond a s).l = s.l := rfl
@[simp] theorem respond_r (a : Resp) (s : State) : (respond a s).r = s.r := rfl
@[simp] theorem respond_cfg (a : Resp) (s : State) : (respond a s).cfg = s.cfg := rfl
@[simp] theorem respond_ctrlIn (a : Resp) (s : State) : (respond a s).ctrlIn = s.ctrlIn := rfl
@[simp] theorem respond_audioIn (a : Resp) (s : State) : (respond a s).audioIn = s.audioIn := rfl
@[simp] theorem respond_ctrlOut (a : Resp) (s : State) : (respond a s).ctrlOut = s.ctrlOut ++ [a] := rfl
@[simp] theorem respond_audioOut (a : Resp) (s : State) : (respond a s).audioOut = s.audioOut := rfl
@[simp] theorem respond_sched (a : Resp) (s : State) : (respond a s).sched = s.sched := rfl
@[simp] theorem respond_draws (a : Resp) (s : State) : (respond a s).draws = s.draws := rfl

/-! `ack` -/

@[simp] theorem ack_ctrl (s : State) : (ack s).ctrl = s.ctrl := rfl
@[simp] theorem ack_dirty (s : State) : (ack s).dirty = s.dirty := rfl
@[simp] theorem ack_inBlock (s : State) : (ack s).inBlock = s.inBlock := rfl
@[simp] theorem ack_sticky (s : State) : (ack s).sticky = s.sticky := rfl
@[simp] theorem ack_coefGen (s : State) : (ack s).coefGen = s.coefGen := rfl
@[simp] theorem ack_floorDb (s : State) : (ack s).floorDb = s.floorDb := rfl
@[simp] theorem ack_staged (s : State) : (ack s).staged = s.staged := rfl
@[simp] theorem ack_committed (s : State) : (ack s).committed = s.committed := rfl
@[simp] theorem ack_blkCnt (s : State) : (ack s).blkCnt = s.blkCnt := rfl
@[simp] theorem ack_frameCnt (s : State) : (ack s).frameCnt = s.frameCnt := rfl
@[simp] theorem ack_l (s : State) : (ack s).l = s.l := rfl
@[simp] theorem ack_r (s : State) : (ack s).r = s.r := rfl
@[simp] theorem ack_cfg (s : State) : (ack s).cfg = s.cfg := rfl
@[simp] theorem ack_ctrlIn (s : State) : (ack s).ctrlIn = s.ctrlIn := rfl
@[simp] theorem ack_audioIn (s : State) : (ack s).audioIn = s.audioIn := rfl
@[simp] theorem ack_ctrlOut (s : State) : (ack s).ctrlOut = s.ctrlOut ++ [{ rdata := 0#32, err := false }] := rfl
@[simp] theorem ack_audioOut (s : State) : (ack s).audioOut = s.audioOut := rfl
@[simp] theorem ack_sched (s : State) : (ack s).sched = s.sched := rfl
@[simp] theorem ack_draws (s : State) : (ack s).draws = s.draws := rfl

/-! `busError` -/

@[simp] theorem busError_ctrl (s : State) : (busError s).ctrl = s.ctrl := rfl
@[simp] theorem busError_dirty (s : State) : (busError s).dirty = s.dirty := rfl
@[simp] theorem busError_inBlock (s : State) : (busError s).inBlock = s.inBlock := rfl
@[simp] theorem busError_sticky (s : State) : (busError s).sticky = s.sticky.set .busErr := rfl
@[simp] theorem busError_coefGen (s : State) : (busError s).coefGen = s.coefGen := rfl
@[simp] theorem busError_floorDb (s : State) : (busError s).floorDb = s.floorDb := rfl
@[simp] theorem busError_staged (s : State) : (busError s).staged = s.staged := rfl
@[simp] theorem busError_committed (s : State) : (busError s).committed = s.committed := rfl
@[simp] theorem busError_blkCnt (s : State) : (busError s).blkCnt = s.blkCnt := rfl
@[simp] theorem busError_frameCnt (s : State) : (busError s).frameCnt = s.frameCnt := rfl
@[simp] theorem busError_l (s : State) : (busError s).l = s.l := rfl
@[simp] theorem busError_r (s : State) : (busError s).r = s.r := rfl
@[simp] theorem busError_cfg (s : State) : (busError s).cfg = s.cfg := rfl
@[simp] theorem busError_ctrlIn (s : State) : (busError s).ctrlIn = s.ctrlIn := rfl
@[simp] theorem busError_audioIn (s : State) : (busError s).audioIn = s.audioIn := rfl
@[simp] theorem busError_ctrlOut (s : State) : (busError s).ctrlOut = s.ctrlOut ++ [{ rdata := 0#32, err := true }] :=
    rfl
@[simp] theorem busError_audioOut (s : State) : (busError s).audioOut = s.audioOut := rfl
@[simp] theorem busError_sched (s : State) : (busError s).sched = s.sched := rfl
@[simp] theorem busError_draws (s : State) : (busError s).draws = s.draws := rfl

/-! `emit` -/

@[simp] theorem emit_ctrl (yl yr : Word) (s : State) : (emit yl yr s).ctrl = s.ctrl := rfl
@[simp] theorem emit_dirty (yl yr : Word) (s : State) : (emit yl yr s).dirty = s.dirty := rfl
@[simp] theorem emit_inBlock (yl yr : Word) (s : State) : (emit yl yr s).inBlock = s.inBlock := rfl
@[simp] theorem emit_sticky (yl yr : Word) (s : State) : (emit yl yr s).sticky = s.sticky := rfl
@[simp] theorem emit_coefGen (yl yr : Word) (s : State) : (emit yl yr s).coefGen = s.coefGen := rfl
@[simp] theorem emit_floorDb (yl yr : Word) (s : State) : (emit yl yr s).floorDb = s.floorDb := rfl
@[simp] theorem emit_staged (yl yr : Word) (s : State) : (emit yl yr s).staged = s.staged := rfl
@[simp] theorem emit_committed (yl yr : Word) (s : State) : (emit yl yr s).committed = s.committed := rfl
@[simp] theorem emit_blkCnt (yl yr : Word) (s : State) : (emit yl yr s).blkCnt = s.blkCnt := rfl
@[simp] theorem emit_frameCnt (yl yr : Word) (s : State) : (emit yl yr s).frameCnt = s.frameCnt := rfl
@[simp] theorem emit_l (yl yr : Word) (s : State) : (emit yl yr s).l = s.l := rfl
@[simp] theorem emit_r (yl yr : Word) (s : State) : (emit yl yr s).r = s.r := rfl
@[simp] theorem emit_cfg (yl yr : Word) (s : State) : (emit yl yr s).cfg = s.cfg := rfl
@[simp] theorem emit_ctrlIn (yl yr : Word) (s : State) : (emit yl yr s).ctrlIn = s.ctrlIn := rfl
@[simp] theorem emit_audioIn (yl yr : Word) (s : State) : (emit yl yr s).audioIn = s.audioIn := rfl
@[simp] theorem emit_ctrlOut (yl yr : Word) (s : State) : (emit yl yr s).ctrlOut = s.ctrlOut := rfl
@[simp] theorem emit_audioOut (yl yr : Word) (s : State) : (emit yl yr s).audioOut = s.audioOut ++ [yr ++ yl] := rfl
@[simp] theorem emit_sched (yl yr : Word) (s : State) : (emit yl yr s).sched = s.sched := rfl
@[simp] theorem emit_draws (yl yr : Word) (s : State) : (emit yl yr s).draws = s.draws := rfl

/-! `resetEvent` -/

@[simp] theorem resetEvent_ctrl (s : State) : (resetEvent s).ctrl = State.reset.ctrl := rfl
@[simp] theorem resetEvent_dirty (s : State) : (resetEvent s).dirty = State.reset.dirty := rfl
@[simp] theorem resetEvent_inBlock (s : State) : (resetEvent s).inBlock = State.reset.inBlock := rfl
@[simp] theorem resetEvent_sticky (s : State) : (resetEvent s).sticky = State.reset.sticky := rfl
@[simp] theorem resetEvent_coefGen (s : State) : (resetEvent s).coefGen = State.reset.coefGen := rfl
@[simp] theorem resetEvent_floorDb (s : State) : (resetEvent s).floorDb = State.reset.floorDb := rfl
@[simp] theorem resetEvent_staged (s : State) : (resetEvent s).staged = State.reset.staged := rfl
@[simp] theorem resetEvent_committed (s : State) : (resetEvent s).committed = State.reset.committed := rfl
@[simp] theorem resetEvent_blkCnt (s : State) : (resetEvent s).blkCnt = State.reset.blkCnt := rfl
@[simp] theorem resetEvent_frameCnt (s : State) : (resetEvent s).frameCnt = State.reset.frameCnt := rfl
@[simp] theorem resetEvent_l (s : State) : (resetEvent s).l = State.reset.l := rfl
@[simp] theorem resetEvent_r (s : State) : (resetEvent s).r = State.reset.r := rfl
@[simp] theorem resetEvent_cfg (s : State) : (resetEvent s).cfg = s.cfg := rfl
@[simp] theorem resetEvent_ctrlIn (s : State) : (resetEvent s).ctrlIn = s.ctrlIn := rfl
@[simp] theorem resetEvent_audioIn (s : State) : (resetEvent s).audioIn = s.audioIn := rfl
@[simp] theorem resetEvent_ctrlOut (s : State) : (resetEvent s).ctrlOut = s.ctrlOut := rfl
@[simp] theorem resetEvent_audioOut (s : State) : (resetEvent s).audioOut = s.audioOut := rfl
@[simp] theorem resetEvent_sched (s : State) : (resetEvent s).sched = s.sched := rfl
@[simp] theorem resetEvent_draws (s : State) : (resetEvent s).draws = s.draws := rfl

/-! Channels. -/

@[simp] theorem State.chan_L (s : State) : s.chan .L = s.l := rfl
@[simp] theorem State.chan_R (s : State) : s.chan .R = s.r := rfl
@[simp] theorem State.setChan_L (s : State) (x : Chan) : s.setChan .L x = { s with l := x } := rfl
@[simp] theorem State.setChan_R (s : State) (x : Chan) : s.setChan .R x = { s with r := x } := rfl
@[simp] theorem State.chan_setChan_self (s : State) (c : Channel) (x : Chan) : (s.setChan c x).chan c = x := by
  cases c <;> rfl

theorem State.chan_setChan_other (s : State) {c d : Channel} (x : Chan) (h : d ≠ c) :
    (s.setChan c x).chan d = s.chan d := by
  cases c <;> cases d <;> first | rfl | exact absurd rfl h

theorem State.chan_setChan (s : State) (c d : Channel) (x : Chan) :
    (s.setChan c x).chan d = if d = c then x else s.chan d := by
  cases c <;> cases d <;> rfl
@[simp] theorem State.setChan_self (s : State) (c : Channel) : s.setChan c (s.chan c) = s := by cases c <;> rfl
@[simp] theorem State.setChan_setChan (s : State) (c : Channel) (x y : Chan) :
    (s.setChan c x).setChan c y = s.setChan c y := by
  cases c <;> rfl
@[simp] theorem raise_chan (e : ErrorBit) (s : State) (c : Channel) : (raise e s).chan c = s.chan c := by cases c <;> rfl
@[simp] theorem respond_chan (a : Resp) (s : State) (c : Channel) : (respond a s).chan c = s.chan c := by cases c <;> rfl
@[simp] theorem ack_chan (s : State) (c : Channel) : (ack s).chan c = s.chan c := by cases c <;> rfl
@[simp] theorem busError_chan (s : State) (c : Channel) : (busError s).chan c = s.chan c := by cases c <;> rfl
@[simp] theorem emit_chan (yl yr : Word) (s : State) (c : Channel) : (emit yl yr s).chan c = s.chan c := by
  cases c <;> rfl
@[simp] theorem resetEvent_chan (s : State) (c : Channel) : (resetEvent s).chan c = Chan.reset := by cases c <;> rfl

/-! Sections. -/

@[simp] theorem Cascade.get_set_self (k : Cascade) (i : SecId) (x : Section) : (k.set i x).get i = x := by
  cases i <;> rfl

theorem Cascade.get_set_other (k : Cascade) {i j : SecId} (x : Section) (h : j ≠ i) :
    (k.set i x).get j = k.get j := by
  cases i <;> cases j <;> first | rfl | exact absurd rfl h

theorem Cascade.get_set (k : Cascade) (i j : SecId) (x : Section) :
    (k.set i x).get j = if j = i then x else k.get j := by
  cases i <;> cases j <;> rfl

@[simp] theorem Cascade.set_self (k : Cascade) (i : SecId) : k.set i (k.get i) = k := by cases i <;> rfl

@[simp] theorem Cascade.get_map (k : Cascade) (f : SecId → Section → Section) (i : SecId) :
    (k.map f).get i = f i (k.get i) := by
  cases i <;> rfl

/-- A cascade is its nine sections. -/
theorem Cascade.ext_get {k k' : Cascade} (h : ∀ i, k.get i = k'.get i) : k = k' := by
  obtain ⟨_, _, _, _, _, _, _, _, _⟩ := k
  obtain ⟨_, _, _, _, _, _, _, _, _⟩ := k'
  rw [Cascade.mk.injEq]
  exact ⟨h .lc0, h .lc1, h .lc2, h .lc3, h .pk, h .hc0, h .hc1, h .hc2, h .hc3⟩

theorem SecId.mem_order (i : SecId) : i ∈ SecId.order := by cases i <;> decide

/-! Sticky bits. -/

@[simp] theorem Sticky.get_set_self (f : Sticky) (e : ErrorBit) : (f.set e).get e = true := by
  rcases e with _ | _ | _ | ⟨_ | _⟩ | _ | _ | _ <;> rfl

theorem Sticky.get_set (f : Sticky) (e d : ErrorBit) : (f.set e).get d = (f.get d || decide (d = e)) := by
  rcases e with _ | _ | _ | ⟨_ | _⟩ | _ | _ | _ <;> rcases d with _ | _ | _ | ⟨_ | _⟩ | _ | _ | _ <;>
    simp [Sticky.set, Sticky.get]

theorem Sticky.get_writeOneToClear (f : Sticky) (d : Word) (e : ErrorBit) :
    (f.writeOneToClear d).get e = (f.get e && !d.getLsbD e.code) := by
  rcases e with _ | _ | _ | ⟨_ | _⟩ | _ | _ | _ <;> rfl

end Sys2Proof.Machine
end

