-- ==== Sys2Proof/Laws/Ops.lean ====
section
/-! SUPPORT. For each shared operation, once, what it can do: to be cited in place of unfolding it. -/

namespace Sys2Proof.Machine

/-! The FIFO. -/

@[simp] theorem Fifo.retire_w (f : Fifo) (p : Params) : (f.retire p).w = f.w := rfl
@[simp] theorem Fifo.retire_wp (f : Fifo) (p : Params) : (f.retire p).wp = f.wp := rfl
@[simp] theorem Fifo.retire_ring (f : Fifo) (p : Params) : (f.retire p).ring = f.ring := rfl
@[simp] theorem Fifo.retire_acc (f : Fifo) (p : Params) : (f.retire p).acc = f.acc := rfl
@[simp] theorem Fifo.retire_k (f : Fifo) (p : Params) : (f.retire p).k = f.k := rfl
@[simp] theorem Fifo.retire_ovr (f : Fifo) (p : Params) : (f.retire p).ovr = f.ovr := rfl

/-- All that a push changes: the ring slot `wp`, `W`, `wp`, and, where the FIFO was full, `R`, `rp` and `ovr`. -/
theorem Fifo.push_eq (f : Fifo) (p : Params) (blk : List Word) :
    f.push p blk =
      { f with
        ring := f.ring.writeAll (f.wp * p.fifoBlock) blk
        w := wrapInc f.w
        wp := (f.wp + 1) % p.fifoCap
        r := if f.full p then wrapInc f.r else f.r
        rp := if f.full p then (f.rp + 1) % p.fifoCap else f.rp
        ovr := if f.full p then wrapInc f.ovr else f.ovr } := by
  unfold Fifo.push Fifo.retire
  cases f.full p <;> rfl

/-- All that an accept does: a push of the collected block where the sample completes it, else the sample is kept. -/
theorem Fifo.accept_cases (f : Fifo) (p : Params) (t : Word) :
    (f.k + 1 = p.fifoBlock ∧
      f.accept p t = { (f.collect t).push p ((f.collect t).acc.readAll 0 p.fifoBlock) with k := 0 }) ∨
    (f.k + 1 ≠ p.fifoBlock ∧ f.accept p t = f.collect t) := by
  by_cases h : f.k + 1 = p.fifoBlock
  · exact .inl ⟨h, by simp [Fifo.accept, Fifo.completes, h]⟩
  · exact .inr ⟨h, by simp [Fifo.accept, Fifo.completes, h]⟩

/-- A pop answers exactly where W ≠ R: the block of slot `rp`, and the FIFO without it. -/
theorem Fifo.pop_eq_some {f g : Fifo} {p : Params} {blk : List Word} :
    f.pop p = some (blk, g) ↔ f.w ≠ f.r ∧ blk = f.slot p.fifoBlock f.rp ∧ g = f.retire p := by
  unfold Fifo.pop
  split
  · simp_all
  · simp_all [eq_comm]

theorem Fifo.occ_eq_zero {f : Fifo} : f.occ = 0#32 ↔ f.w = f.r := by
  unfold Fifo.occ
  constructor
  · intro h
    bv_omega
  · rintro h
    rw [h]
    exact BitVec.sub_self _

/-- `fifo_accept` in the state changes the channel's FIFO, and STATUS.OVR_c where the push drops a block. -/
theorem fifoAccept_eq (c : Channel) (t : Word) (s : State) :
    fifoAccept c t s =
      { s.setChan c { s.chan c with fifo := (s.chan c).fifo.accept s.cfg t } with
        sticky := if (s.chan c).fifo.overruns s.cfg then s.sticky.set (.ovr c) else s.sticky } := by
  unfold fifoAccept
  by_cases h : (s.chan c).fifo.overruns s.cfg = true <;> cases c <;> simp_all [raise]

/-! The analyzer. -/

/-- All that a turn of an analyzer does: nothing where it is disabled; else the oldest block is analysed. -/
theorem anaTurn_cases (c : Channel) (s : State) :
    ((s.ctrl.anaEn = false ∨ (s.chan c).fifo.w = (s.chan c).fifo.r) ∧ anaTurn c s = s) ∨
    (s.ctrl.anaEn = true ∧ (s.chan c).fifo.w ≠ (s.chan c).fifo.r ∧
      anaTurn c s = s.setChan c ((s.chan c).analyze s.cfg s.floorDb
        ((s.chan c).fifo.slot s.cfg.fifoBlock (s.chan c).fifo.rp) ((s.chan c).fifo.retire s.cfg))) := by
  unfold anaTurn anaEnabled
  by_cases h : (s.chan c).fifo.w = (s.chan c).fifo.r
  · exact .inl ⟨.inr h, by simp [Fifo.occ_eq_zero.2 h]⟩
  · cases ha : s.ctrl.anaEn
    · exact .inl ⟨.inl rfl, by simp⟩
    · refine .inr ⟨rfl, h, ?_⟩
      have ho : (s.chan c).fifo.occ ≠ 0#32 := fun he => h (Fifo.occ_eq_zero.1 he)
      simp [Fifo.pop, h, ho]

/-- What an analysed block changes in its channel. -/
theorem Chan.analyze_cases (x : Chan) (p : Params) (f : Word) (blk : List Word) (rest : Fifo) :
    (x.ana.fresh + 1 = p.hopBlocks ∧
      x.analyze p f blk rest =
        { x with
          fifo := rest
          ana := { abuf := shiftIn x.ana.abuf p.fftSize blk, fresh := 0 }
          spec := x.spec.publish
            (spectrum ((shiftIn x.ana.abuf p.fftSize blk).readAll 0 p.fftSize) f p.bins) }) ∨
    (x.ana.fresh + 1 ≠ p.hopBlocks ∧
      x.analyze p f blk rest =
        { x with
          fifo := rest
          ana := { abuf := shiftIn x.ana.abuf p.fftSize blk, fresh := x.ana.fresh + 1 } }) := by
  unfold Chan.analyze
  by_cases h : x.ana.fresh + 1 = p.hopBlocks
  · exact .inl ⟨h, by simp [h]⟩
  · exact .inr ⟨h, by simp [h]⟩

@[simp] theorem Spectrum.publish_acq (o : Spectrum) (b : List Word) : (o.publish b).acq = o.acq := rfl
@[simp] theorem Spectrum.publish_acqGen (o : Spectrum) (b : List Word) : (o.publish b).acqGen = o.acqGen := rfl

/-- Publishing leaves something to acquire. -/
theorem Spectrum.publish_avail_ne (o : Spectrum) (b : List Word) : (o.publish b).avail ≠ 0#32 := by
  simp only [Spectrum.publish, satInc]
  split <;> bv_omega

/-! The refresh. -/

@[simp] theorem Cascade.get_setCoef_s1 (k : Cascade) (i j : SecId) (c : Coefs) :
    ((k.setCoef i c).get j).s1 = (k.get j).s1 := by
  unfold Cascade.setCoef
  rw [Cascade.get_set]
  split <;> simp_all

@[simp] theorem Cascade.get_setCoef_s2 (k : Cascade) (i j : SecId) (c : Coefs) :
    ((k.setCoef i c).get j).s2 = (k.get j).s2 := by
  unfold Cascade.setCoef
  rw [Cascade.get_set]
  split <;> simp_all

theorem Cascade.get_setCoef_coef (k : Cascade) (i j : SecId) (c : Coefs) :
    ((k.setCoef i c).get j).coef = if j = i then c else (k.get j).coef := by
  unfold Cascade.setCoef
  rw [Cascade.get_set]
  split <;> simp_all

/-- New coefficients never touch a state word (R145). -/
theorem Cascade.get_setCoefs_state (k : Cascade) (is : List SecId) (cs : List Coefs) (j : SecId) :
    ((k.setCoefs is cs).get j).s1 = (k.get j).s1 ∧ ((k.setCoefs is cs).get j).s2 = (k.get j).s2 := by
  induction is generalizing k cs with
  | nil => exact ⟨rfl, rfl⟩
  | cons i is ih =>
    cases cs with
    | nil => exact ⟨rfl, rfl⟩
    | cons c cs => simpa [Cascade.setCoefs] using ih (k.setCoef i c) cs

/-- A section outside the list keeps its coefficients. -/
theorem Cascade.get_setCoefs_of_not_mem (k : Cascade) {is : List SecId} (cs : List Coefs) {j : SecId} (h : j ∉ is) :
    (k.setCoefs is cs).get j = k.get j := by
  induction is generalizing k cs with
  | nil => rfl
  | cons i is ih =>
    simp only [List.mem_cons, not_or] at h
    cases cs with
    | nil => rfl
    | cons c cs => rw [Cascade.setCoefs, ih _ _ h.2, Cascade.setCoef, Cascade.get_set, if_neg h.1]

/-- A refresh changes no FIFO, analyzer or spectrum and sets the bypass flags from the settings (R145, R146). -/
theorem Chan.refresh_frame (x : Chan) (k : Settings) :
    x.refresh k =
      { x with
        sec := (x.refresh k).sec
        enLc := (x.refresh k).enLc
        enHc := (x.refresh k).enHc
        bypLc := k.mode.lcByp
        bypPk := k.mode.pkByp
        bypHc := k.mode.hcByp } := by
  unfold Chan.refresh Chan.refreshLc Chan.refreshPk Chan.refreshHc
  cases lowcutStage k <;> cases peakStage k <;> cases highcutStage k <;> rfl

/-- The sections after a refresh, stage by stage. -/
theorem Chan.refresh_sec (x : Chan) (k : Settings) :
    (x.refresh k).sec =
      let a := match lowcutStage k with
        | some cf => x.sec.setCoefs SecId.lowcut cf
        | none => x.sec
      let b := match peakStage k with
        | some p => a.setCoef .pk p
        | none => a
      match highcutStage k with
      | some cf => b.setCoefs SecId.highcut cf
      | none => b := by
  unfold Chan.refresh Chan.refreshLc Chan.refreshPk Chan.refreshHc
  cases lowcutStage k <;> cases peakStage k <;> cases highcutStage k <;> rfl

/-- A refresh never touches a state word (R145). -/
theorem Chan.refresh_state (x : Chan) (k : Settings) (i : SecId) :
    ((x.refresh k).sec.get i).s1 = (x.sec.get i).s1 ∧ ((x.refresh k).sec.get i).s2 = (x.sec.get i).s2 := by
  rw [Chan.refresh_sec]
  cases lowcutStage k <;> cases peakStage k <;> cases highcutStage k <;> simp [Cascade.get_setCoefs_state]

/-- What a cut stage is refreshed with: as many sections as its slope enables, each CALC's and finite. -/
theorem cutStage_eq_some {fs f : Word} {i : BitVec 2} {design : Nat → Nat → Coefs} {cf : List Coefs}
    (h : cutStage fs f i design = some cf) :
    validCut fs f = true ∧ cf = (List.range (slopeSections i)).map (design (2 * slopeSections i)) ∧
      ∀ c ∈ cf, Machine.coefsFinite c = true := by
  unfold cutStage at h
  simp only [Bool.and_eq_true, List.all_eq_true] at h
  split at h
  · rename_i hv
    obtain rfl := Option.some.inj h
    exact ⟨hv.1, rfl, hv.2⟩
  · cases h

/-! The cascade. -/

/-- The channel of a lane keeps its coefficients in every section, and an inactive section is not touched at all. -/
theorem Lane.stage_sec (act : SecId → Bool) (d : Denorm) (a : Lane) (i j : SecId) :
    ((a.stage act d i).sec.get j).coef = (a.sec.get j).coef ∧
      (act j = false → (a.stage act d i).sec.get j = a.sec.get j) := by
  unfold Lane.stage
  split
  · rename_i ha
    rw [Cascade.get_set]
    split
    · rename_i hj
      subst hj
      exact ⟨rfl, fun h => absurd h (by simp [ha])⟩
    · exact ⟨rfl, fun _ => rfl⟩
  · exact ⟨rfl, fun _ => rfl⟩

/-- What every position of the cascade keeps, the whole chain keeps. -/
theorem Chan.chain_induction {P : Lane → Prop} (x : Chan) (d : Denorm) (n : Nat) (w : Word)
    (start : P { v := w, sec := x.sec, draws := n }) (keep : ∀ a i, P a → P (a.stage x.active d i)) :
    P (x.chain d n w) := by
  unfold Chan.chain
  generalize SecId.order = is
  generalize ({ v := w, sec := x.sec, draws := n } : Lane) = a at start
  induction is generalizing a with
  | nil => exact start
  | cons i is ih => exact ih _ (keep a i start)

/-! Blocks and frames. -/

/-- All that `end_block` does: the snap where SNAP_EN = 1, and the block is closed. -/
theorem closeBlock_eq (s : State) :
    closeBlock s =
      { s with
        l := if s.cfg.snapEn then s.l.snap else s.l
        r := if s.cfg.snapEn then s.r.snap else s.r
        inBlock := false } := by
  unfold closeBlock
  split <;> rfl

/-- All that `begin_block` does. -/
theorem openBlock_eq (s : State) :
    openBlock s =
      { s with
        dirty := false
        inBlock := true
        blkCnt := wrapInc s.blkCnt
        l := if s.dirty then s.l.refresh s.committed else s.l
        r := if s.dirty then s.r.refresh s.committed else s.r
        sticky := if s.dirty then s.sticky.refresh s.committed else s.sticky
        coefGen := if s.dirty then wrapInc s.coefGen else s.coefGen } := by
  unfold openBlock takeSettings refresh
  cases h : s.dirty <;> simp [h]

/-- One lane of a frame changes its channel's sections and FIFO, OVR of its channel and the draw index. -/
theorem frameLane_eq (c : Channel) (x : Word) (s : State) :
    let a := (s.chan c).chain s.cfg.denorm s.draws x
    let tap := if s.ctrl.tap then x else a.v
    frameLane c x s =
      (a.v,
        { s.setChan c { s.chan c with sec := a.sec, fifo := (s.chan c).fifo.accept s.cfg tap } with
          sticky := if (s.chan c).fifo.overruns s.cfg then s.sticky.set (.ovr c) else s.sticky
          draws := a.draws }) := by
  simp only [frameLane, fifoAccept_eq]
  cases c <;> rfl

/-! The control port. -/

/-- All that a read does: it answers the word, or the error response. -/
theorem readControl_cases (off : BitVec 16) (s : State) :
    (∃ a, locate off = some a ∧ readControl off s = respond { rdata := readLoc s a, err := false } s) ∨
    (locate off = none ∧ readControl off s = busError s) := by
  unfold readControl
  cases h : locate off with
  | none => exact .inr ⟨rfl, rfl⟩
  | some a => exact .inl ⟨a, rfl, rfl⟩

/-- All that a write does: the effect of its location, or the error response. -/
theorem writeControl_cases (off : BitVec 16) (d : Word) (s : State) :
    (∃ a, locate off = some a ∧ writeControl off d s = ack (writeLoc a d s)) ∨
    (locate off = none ∧ writeControl off d s = busError s) := by
  unfold writeControl
  cases h : locate off with
  | none => exact .inr ⟨rfl, rfl⟩
  | some a => exact .inl ⟨a, rfl, rfl⟩

/-- A write to a read-only location is ignored (R117). -/
theorem writeLoc_readOnly {a : Loc} (h : a.readOnly = true) (d : Word) (s : State) : writeLoc a d s = s := by
  cases a <;> first | rfl | cases h

/-- All that a word written to CMD can do (R118). -/
theorem performCommand_cases (w : Word) (s : State) :
    (w = 0x00000000#32 ∧ performCommand w s = s) ∨
    (w = 0x00000001#32 ∧ performCommand w s = commitSettings s) ∨
    (w = 0x00000002#32 ∧ performCommand w s = prepareStream s) ∨
    (w = 0x00000003#32 ∧ performCommand w s = acquire .L s) ∨
    (w = 0x00000103#32 ∧ performCommand w s = acquire .R s) ∨
    (w = 0x0000000F#32 ∧ performCommand w s = resetEvent s) ∨
    (w ∉ definedCommands ∧ performCommand w s = raise .cmdErr s) := by
  by_cases h : w ∈ definedCommands
  · simp only [definedCommands, List.mem_cons, List.not_mem_nil, or_false] at h
    rcases h with rfl | rfl | rfl | rfl | rfl | rfl <;> simp [performCommand]
  · have h' := h
    simp only [definedCommands, List.mem_cons, List.not_mem_nil, or_false, not_or] at h'
    simp [performCommand, h, h']

/-- A legal write does what the transaction that the decoder reads from it does: the case list of R112. -/
theorem exec_decodeWrite {off : BitVec 16} {a : Loc} (h : locate off = some a) (d : Word) (s : State) :
    exec (decodeWrite off d) s = .next (ack (writeLoc a d s)) := by
  unfold decodeWrite
  rw [h]
  cases a <;> try rfl
  case staged r => cases r <;> rfl
  case cmd =>
    simp only [decodeCmd, writeLoc, performCommand]
    split_ifs <;> rfl

/-- Every transaction completes (R219, R224). -/
theorem exec_next (i : Instr) (s : State) : ∃ t, exec i s = .next t := by cases i <;> exact ⟨_, rfl⟩

/-! The step. -/

/-- All that a step can do. -/
theorem step_cases (s : State) :
    (s.cfg.legal = false ∧ step s = .refused (.illegalConfiguration s.cfg)) ∨
    (s.cfg.legal = true ∧ step s = takeTurn (nextTurn s).1 (nextTurn s).2) := by
  unfold step stepOnce
  cases s.cfg.legal <;> simp

/-- The state a turn starts from: the schedule's head is taken, or one free value is. -/
theorem nextTurn_cases (s : State) :
    (∃ t ts, s.sched = t :: ts ∧ nextTurn s = (t, { s with sched := ts })) ∨
    (s.sched = [] ∧ nextTurn s = (Config.freeTurn s.draws, { s with draws := s.draws + 1 })) := by
  unfold nextTurn
  cases h : s.sched with
  | nil => exact .inr ⟨rfl, rfl⟩
  | cons t ts => exact .inl ⟨t, ts, rfl, rfl⟩

/-- All that a turn of a port's host can do: nothing, a transaction's meaning, or a refusal. -/
theorem ctrlTurn_cases (s : State) :
    (s.ctrlIn = [] ∧ ctrlTurn s = .next s) ∨
    (∃ w ws i, s.ctrlIn = w :: ws ∧ decode .control w = .ok i ∧ ctrlTurn s = exec i { s with ctrlIn := ws }) ∨
    (∃ w ws e, s.ctrlIn = w :: ws ∧ decode .control w = .error e ∧ ctrlTurn s = .refused (.notATransaction e)) := by
  unfold ctrlTurn
  cases h : s.ctrlIn with
  | nil => exact .inl ⟨rfl, rfl⟩
  | cons w ws =>
    cases hd : decode .control w with
    | ok i => exact .inr (.inl ⟨w, ws, i, rfl, hd, by simp [perform, hd]⟩)
    | error e => exact .inr (.inr ⟨w, ws, e, rfl, hd, by simp [perform, hd]⟩)

theorem audioTurn_cases (s : State) :
    (s.audioIn = [] ∧ audioTurn s = .next s) ∨
    (∃ w ws i, s.audioIn = w :: ws ∧ decode .audio w = .ok i ∧ audioTurn s = exec i { s with audioIn := ws }) ∨
    (∃ w ws e, s.audioIn = w :: ws ∧ decode .audio w = .error e ∧ audioTurn s = .refused (.notATransaction e)) := by
  unfold audioTurn
  cases h : s.audioIn with
  | nil => exact .inl ⟨rfl, rfl⟩
  | cons w ws =>
    cases hd : decode .audio w with
    | ok i => exact .inr (.inl ⟨w, ws, i, rfl, hd, by simp [perform, hd]⟩)
    | error e => exact .inr (.inr ⟨w, ws, e, rfl, hd, by simp [perform, hd]⟩)

end Sys2Proof.Machine
end

