-- ==== Sys2Proof/Laws/PerInstr.lean ====
section
/-! SUPPORT. The family RoundTrip: decoding the term of a well-formed transaction gives its row (R100..R105). -/

namespace Sys2Proof.Laws.RoundTrip

/-- The decoder reads a well-formed transaction back from its term, as the most specific row. -/
def Statement (i : Instr) : Prop := i.wellFormed = true → decode i.port (encode i) = .ok i.resolve

theorem rd (off : BitVec 16) : Statement (.rd off) := by
  intro h
  have h' : Machine.mapped off = true := h
  simp [Instr.port, encode, decodeCtl, legalRequest, h', Instr.resolve]

theorem wr (off : BitVec 16) (d : Word) : Statement (.wr off d) := by
  intro h
  have h' : Machine.mapped off = true := h
  simp [Instr.port, encode, decodeCtl_wrWord _ _ h', Instr.resolve]

/-- A write to a fixed, mapped offset decodes to the row of that offset. -/
theorem ofWrite {i : Instr} {off : BitVec 16} {d : Word} (hp : i.port = .control)
    (he : encode i = ctlTerm (wrWord off d)) (hm : Machine.mapped off = true) (hd : decodeWrite off d = i.resolve) :
    decode i.port (encode i) = .ok i.resolve := by
  rw [hp, he, decode_ctlTerm, decodeCtl_wrWord _ _ hm, hd]

theorem wrCtrl (d : Word) : Statement (.wrCtrl d) := fun _ => ofWrite rfl rfl (by decide) rfl
theorem wrStatus (d : Word) : Statement (.wrStatus d) := fun _ => ofWrite rfl rfl (by decide) rfl
theorem wrSr (d : Word) : Statement (.wrSr d) := fun _ => ofWrite rfl rfl (by decide) rfl
theorem wrPkFreq (d : Word) : Statement (.wrPkFreq d) := fun _ => ofWrite rfl rfl (by decide) rfl
theorem wrPkGain (d : Word) : Statement (.wrPkGain d) := fun _ => ofWrite rfl rfl (by decide) rfl
theorem wrPkQ (d : Word) : Statement (.wrPkQ d) := fun _ => ofWrite rfl rfl (by decide) rfl
theorem wrLcFreq (d : Word) : Statement (.wrLcFreq d) := fun _ => ofWrite rfl rfl (by decide) rfl
theorem wrHcFreq (d : Word) : Statement (.wrHcFreq d) := fun _ => ofWrite rfl rfl (by decide) rfl
theorem wrFloorDb (d : Word) : Statement (.wrFloorDb d) := fun _ => ofWrite rfl rfl (by decide) rfl
theorem wrMode (d : Word) : Statement (.wrMode d) := fun _ => ofWrite rfl rfl (by decide) rfl

theorem wrReadOnly (off : BitVec 16) (d : Word) : Statement (.wrReadOnly off d) := by
  intro h
  have h' : (Machine.locate off).any Machine.Loc.readOnly = true := h
  cases ha : Machine.locate off with
  | none => simp [ha] at h'
  | some a =>
    refine ofWrite (off := off) (d := d) rfl rfl (by simp [Machine.mapped, ha]) ?_
    rw [ha] at h'
    cases a <;> simp_all [decodeWrite, Machine.Loc.readOnly, Instr.resolve]

theorem nop : Statement .nop := fun _ => ofWrite rfl rfl (by decide) rfl
theorem commit : Statement .commit := fun _ => ofWrite rfl rfl (by decide) rfl
theorem prepare : Statement .prepare := fun _ => ofWrite rfl rfl (by decide) rfl
theorem specAcqL : Statement .specAcqL := fun _ => ofWrite rfl rfl (by decide) rfl
theorem specAcqR : Statement .specAcqR := fun _ => ofWrite rfl rfl (by decide) rfl
theorem softReset : Statement .softReset := fun _ => ofWrite rfl rfl (by decide) rfl

theorem reservedCmd (w : Word) : Statement (.reservedCmd w) := by
  intro h
  refine ofWrite (off := 0x0014#16) (d := w) rfl rfl (by decide) ?_
  have hw : decodeCmd w = .reservedCmd w := by
    simp only [Instr.wellFormed, definedCommands, List.contains_cons, List.contains_nil, Bool.or_false,
      Bool.not_eq_true', Bool.or_eq_false_iff, beq_eq_false_iff_ne, ne_eq] at h
    simp only [decodeCmd, h, if_false]
  exact hw

theorem illegalCtl (size : BitVec 2) (we : Bool) (addr : BitVec 16) (d : Word) :
    Statement (.illegalCtl size we addr d) := by
  intro h
  have h' : legalRequest size addr = false := by simpa [Instr.wellFormed] using h
  simp [Instr.port, encode, decodeCtl, h', Instr.resolve]

theorem frame (xl xr : Word) : Statement (.frame xl xr) := by
  intro _
  simp [Instr.port, encode, decodeAud, Instr.resolve]

theorem beginBlock : Statement .beginBlock := fun _ => by simp [Instr.port, encode, decodeAud, Instr.resolve]
theorem endBlock : Statement .endBlock := fun _ => by simp [Instr.port, encode, decodeAud, Instr.resolve]
theorem reservedBeat : Statement .reservedBeat := fun _ => by simp [Instr.port, encode, decodeAud, Instr.resolve]

end Sys2Proof.Laws.RoundTrip
end

