-- ==== Sys2Proof/Tests/Slice0.lean ====
section
/-! SUPPORT. Small tests, each on one step, and for each obligation with hypotheses a named witness. Words and results
are those of spec/30_encoding.md and spec/95_test_vectors.md (V-…), or are worked out by hand from the rule named. -/

namespace Sys2Proof.Tests

open Sys2Proof.Machine

/-! WellFormed: an ill-formed term for each check (R74, R79, R101, R104, R117). -/

theorem test_wellFormed_rd_misaligned : (Instr.rd 0x0002#16).wellFormed = false := by decide
theorem test_wellFormed_rd_unmapped : (Instr.rd 0x003C#16).wellFormed = false := by decide
theorem test_wellFormed_wr_unmapped : (Instr.wr 0x8000#16 0#32).wellFormed = false := by decide
theorem test_wellFormed_wrReadOnly_writable : (Instr.wrReadOnly 0x000C#16 0#32).wellFormed = false := by decide
theorem test_wellFormed_wrReadOnly_unmapped : (Instr.wrReadOnly 0x0320#16 0#32).wellFormed = false := by decide
theorem test_wellFormed_reservedCmd_defined : (Instr.reservedCmd 0x00000103#32).wellFormed = false := by decide
theorem test_wellFormed_illegalCtl_legal : (Instr.illegalCtl 0b10#2 true 0x0000#16 0#32).wellFormed = false := by decide
theorem test_wellFormed_accepts :
    (Instr.rd 0x7FFC#16).wellFormed = true ∧ (Instr.wr 0x0094#16 0#32).wellFormed = true ∧
    (Instr.wrReadOnly 0x031C#16 0#32).wellFormed = true ∧ (Instr.reservedCmd 0x00000004#32).wellFormed = true ∧
    (Instr.illegalCtl 0b11#2 false 0x0000#16 0#32).wellFormed = true ∧
    (Instr.illegalCtl 0b10#2 false 0x003C#16 0#32).wellFormed = true := by decide

/-! Decoding: the word of every constructor, written out from R100..R105, R110 and the vectors V-E. -/

/-- V-E1. -/
theorem test_decode_rd : decodeTableWord 56 0x4000000000000 = some (.rd 0x0000#16) := by decide
/-- R112, log 9: the general WR's words are the rows below it; this one is WR ID. -/
theorem test_decode_wr : decodeTableWord 56 0x5000000000005 = some ((Instr.wr 0x0000#16 5#32).resolve) := by decide
theorem test_decode_wrCtrl : decodeTableWord 56 0x5000C00000001 = some (.wrCtrl 1#32) := by decide
/-- P5 row 3. -/
theorem test_decode_wrStatus : decodeTableWord 56 0x5001000004000 = some (.wrStatus 0x00004000#32) := by decide
theorem test_decode_wrSr : decodeTableWord 56 0x50020473B8000 = some (.wrSr 0x473B8000#32) := by decide
/-- V-E2. -/
theorem test_decode_wrPkFreq : decodeTableWord 56 0x50024447A0000 = some (.wrPkFreq 0x447A0000#32) := by decide
theorem test_decode_wrPkGain : decodeTableWord 56 0x5002840C00000 = some (.wrPkGain 0x40C00000#32) := by decide
theorem test_decode_wrPkQ : decodeTableWord 56 0x5002C3F800000 = some (.wrPkQ 0x3F800000#32) := by decide
theorem test_decode_wrLcFreq : decodeTableWord 56 0x5003042A00000 = some (.wrLcFreq 0x42A00000#32) := by decide
/-- P5 row 5. -/
theorem test_decode_wrHcFreq : decodeTableWord 56 0x5003446EA6000 = some (.wrHcFreq 0x46EA6000#32) := by decide
theorem test_decode_wrFloorDb : decodeTableWord 56 0x5001CC1A00000 = some (.wrFloorDb 0xC1A00000#32) := by decide
/-- V-E16. -/
theorem test_decode_wrMode : decodeTableWord 56 0x500380000070F = some (.wrMode 0x0000070F#32) := by decide
/-- V-P22: the coefficient window is read-only. -/
theorem test_decode_wrReadOnly :
    decodeTableWord 56 0x5020012345678 = some (.wrReadOnly 0x0200#16 0x12345678#32) := by decide
theorem test_decode_nop : decodeTableWord 56 0x5001400000000 = some .nop := by decide
/-- V-E6. -/
theorem test_decode_commit : decodeTableWord 56 0x5001400000001 = some .commit := by decide
theorem test_decode_prepare : decodeTableWord 56 0x5001400000002 = some .prepare := by decide
/-- P4 row 24. -/
theorem test_decode_specAcqL : decodeTableWord 56 0x5001400000003 = some .specAcqL := by decide
/-- P4 row 33. -/
theorem test_decode_specAcqR : decodeTableWord 56 0x5001400000103 = some .specAcqR := by decide
theorem test_decode_softReset : decodeTableWord 56 0x500140000000F = some .softReset := by decide
/-- V-E8, V-E9, V-E10. -/
theorem test_decode_reservedCmd :
    decodeTableWord 56 0x5001400000101 = some (.reservedCmd 0x101#32) ∧
    decodeTableWord 56 0x5001400000200 = some (.reservedCmd 0x200#32) ∧
    decodeTableWord 56 0x5001400000010 = some (.reservedCmd 0x010#32) := by decide
/-- V-E3, V-E4, V-E5, and an unmapped write (P5 row 23). -/
theorem test_decode_illegalCtl :
    decodeTableWord 56 0x0000000000000 = some (.illegalCtl 0b00#2 false 0#16 0#32) ∧
    decodeTableWord 56 0x3000C00000001 = some (.illegalCtl 0b01#2 true 0x000C#16 1#32) ∧
    decodeTableWord 56 0x6000000000000 = some (.illegalCtl 0b11#2 false 0#16 0#32) ∧
    decodeTableWord 56 0x5003C00000005 = some (.illegalCtl 0b10#2 true 0x003C#16 5#32) := by decide
/-- V-E11. -/
theorem test_decode_frame :
    decodeTableWord 72 0x0BF8000003F000000 = some (.frame 0x3F000000#32 0xBF800000#32) := by decide
/-- V-E12: the data of BEGIN are ignored. -/
theorem test_decode_beginBlock : decodeTableWord 72 0x1123456789ABCDEF0 = some .beginBlock := by decide
/-- V-E13. -/
theorem test_decode_endBlock : decodeTableWord 72 0x20000000000000000 = some .endBlock := by decide
/-- V-E14. -/
theorem test_decode_reservedBeat : decodeTableWord 72 0x30000000000000000 = some .reservedBeat := by decide

/-- U11: a beat offered to the control port, and a number of 52 bits, are refused by name. -/
theorem test_decode_foreign :
    decode .control { width := 66, bits := 0 } = .error (.notCtl51 { width := 66, bits := 0 }) ∧
    decode .control { width := 51, bits := 2 ^ 51 } = .error (.notCtl51 { width := 51, bits := 2 ^ 51 }) ∧
    decode .audio { width := 51, bits := 0 } = .error (.notAud66 { width := 51, bits := 0 }) := ⟨rfl, rfl, rfl⟩

/-- V-E6, V-E11: the encoder against words of the spec. -/
theorem test_encode :
    encode .commit = { width := 51, bits := 0x5001400000001 } ∧
    encode (.frame 0x3F000000#32 0xBF800000#32) = { width := 66, bits := 0x0BF8000003F000000 } := by decide

/-! binary32 (V-N1..V-N15, V-N19, V-B10..V-B16). -/

theorem test_fadd_zeros :
    fadd .ftzDaz 0 0x80000000#32 0x80000000#32 = 0x80000000#32 ∧ fadd .ftzDaz 0 0#32 0x80000000#32 = 0#32 ∧
    fsub .ftzDaz 0 0x80000000#32 0#32 = 0x80000000#32 ∧ fsub .ftzDaz 0 0x3F800001#32 0x3F800001#32 = 0#32 := by decide
theorem test_fadd_ties :
    fadd .ftzDaz 0 0x3F800000#32 0x33800000#32 = 0x3F800000#32 ∧
    fadd .ftzDaz 0 0x3F800001#32 0x33800000#32 = 0x3F800002#32 := by decide
theorem test_fmul_overflow : fmul .ftzDaz 0 0x7F000000#32 0x40000000#32 = 0x7F800000#32 := by
  decide +kernel
theorem test_fmul_sign : fmul .ftzDaz 0 0x80000000#32 0x40A00000#32 = 0x80000000#32 := by decide
theorem test_fadd_subnormal :
    fadd .ftzDaz 0 0x00080000#32 0#32 = 0#32 ∧ fadd .ieee 0 0x00080000#32 0#32 = 0x00080000#32 := by decide
theorem test_fmul_underflow :
    fmul .ftzDaz 0 0x20000000#32 0x1F800000#32 = 0#32 ∧ fmul .ieee 0 0x20000000#32 0x1F800000#32 = 0x00400000#32 ∧
    fmul .ftzDaz 0 0xA0000000#32 0x1F800000#32 = 0x80000000#32 := by decide
theorem test_fless_nan :
    fless 0x7FC00000#32 0x3F800000#32 = false ∧ fless 0x3F800000#32 0x7FC00000#32 = false := by decide
theorem test_snap :
    snap 0x322BCC77#32 = 0#32 ∧ snap 0xB22BCC77#32 = 0#32 ∧ snap 0x322BCC78#32 = 0x322BCC78#32 ∧
    snap 0x80000000#32 = 0#32 ∧ snap 0x7FC00000#32 = 0#32 ∧ snap 0x7F800000#32 = 0x7F800000#32 := by decide
/-- V-N16, V-N17, V-N18. -/
theorem test_counters :
    wrapInc 0xFFFFFFFF#32 = 0#32 ∧ satInc 0xFFFFFFFF#32 = 0xFFFFFFFF#32 ∧
    ({ Chan.reset.fifo with w := 1#32, r := 0xFFFFFFFF#32 } : Fifo).occ = 2#32 := by decide

/-! One transaction (V-P, V-S, V-B, V-F). -/

/-- A field of the state after a transaction. -/
def after {α : Type} (i : Instr) (s : State) (f : State → α) : Option α :=
  match exec i s with
  | .next t => some (f t)
  | .fault _ => none
  | .refused _ => none

/-- The response of a transaction. -/
def answer (i : Instr) (s : State) : Option Resp := (after i s fun t => t.ctrlOut.getLast?).join

/-- The device with N = 8, B = 2, CAP = 2, K = 1 of P4, inside a block with every stage bypassed. -/
def small : State :=
  { State.reset with
    cfg := { Params.default with fftOrder := 3, fifoBlock := 2, fifoCap := 2 }
    inBlock := true
    dirty := false
    l := { Chan.reset with bypLc := true, bypPk := true, bypHc := true }
    r := { Chan.reset with bypLc := true, bypPk := true, bypHc := true } }

/-- A channel of `small` with a full FIFO whose indices are about to wrap, one sample waiting and two spectra to acquire. -/
def busy : Chan :=
  { Chan.reset with
    bypLc := true
    bypPk := true
    bypHc := true
    fifo := { Chan.reset.fifo with
      ring := [(0, 0x3F800000#32), (3, 0x40000000#32)], w := 1#32, r := 0xFFFFFFFF#32, acc := [(0, 0x40400000#32)], k := 1 }
    spec := { Chan.reset.spec with gen := 7#32, pub := [(1, 0x3F800000#32)], avail := 2#32 } }

def smallBusy : State := { small with l := busy, r := busy }

/-- V-P1, V-P2, V-P3. -/
theorem test_rd_constants :
    answer (.rd 0x0000#16) State.reset = some ⟨0x53455107#32, false⟩ ∧
    answer (.rd 0x0004#16) State.reset = some ⟨0x0003200C#32, false⟩ ∧
    answer (.rd 0x0008#16) State.reset = some ⟨0x00010200#32, false⟩ := by decide
/-- V-P8, V-P19, V-P20, V-P21. -/
theorem test_rd_windows :
    answer (.rd 0x003C#16) State.reset = some ⟨0#32, true⟩ ∧ answer (.rd 0x4010#16) smallBusy = some ⟨0#32, false⟩ ∧
    answer (.rd 0x021C#16) State.reset = some ⟨0#32, false⟩ ∧
    answer (.rd 0x0200#16) State.reset = some ⟨0x3F800000#32, false⟩ := by decide
theorem test_wr : after (.wr 0x0024#16 0x447A0000#32) State.reset (·.staged.pkFreq) = some 0x447A0000#32 := by decide
/-- V-P12. -/
theorem test_wrCtrl : after (.wrCtrl 0xFFFFFFFF#32) State.reset (readLoc · .ctrl) = some 0x00000003#32 := by decide
/-- V-P15. -/
theorem test_wrStatus :
    after (.wrStatus 0xFFFFFFFF#32) (raise .busErr State.reset) statusWord = some 0x00000001#32 := by decide
theorem test_wrSr : after (.wrSr 0x472C4400#32) State.reset (·.staged.sr) = some 0x472C4400#32 := by decide
theorem test_wrPkFreq : after (.wrPkFreq 0x447A0000#32) State.reset (·.staged.pkFreq) = some 0x447A0000#32 := by decide
/-- V-P14. -/
theorem test_wrPkGain :
    after (.wrPkGain 0x7FC00001#32) State.reset (fun t => (t.staged.pkGain, t.committed.pkGain)) =
      some (0x7FC00001#32, 0#32) := by decide
theorem test_wrPkQ : after (.wrPkQ 0#32) State.reset (·.staged.pkQ) = some 0#32 := by decide
theorem test_wrLcFreq : after (.wrLcFreq 0x42A00000#32) State.reset (·.staged.lcFreq) = some 0x42A00000#32 := by decide
theorem test_wrHcFreq : after (.wrHcFreq 0x463B8000#32) State.reset (·.staged.hcFreq) = some 0x463B8000#32 := by decide
theorem test_wrFloorDb : after (.wrFloorDb 0xC1A00000#32) State.reset (·.floorDb) = some 0xC1A00000#32 := by decide
/-- V-P13. -/
theorem test_wrMode : after (.wrMode 0xFFFFFFFF#32) State.reset (readLoc · .mode) = some 0x0000070F#32 := by decide
/-- V-P11. -/
theorem test_wrReadOnly :
    answer (.wrReadOnly 0x0000#16 0#32) State.reset = some ⟨0#32, false⟩ ∧
    after (.wrReadOnly 0x0000#16 0#32) State.reset statusWord = some 1#32 := by decide
theorem test_nop : exec .nop State.reset = .next (ack State.reset) := rfl
/-- V-P17. -/
theorem test_commit :
    after .commit { State.reset with staged := { Settings.reset with pkGain := 0x40C00000#32 } }
      (readLoc · (.committed .pkGain)) = some 0x40C00000#32 := by decide
/-- V-F8, V-P25. -/
theorem test_prepare :
    after .prepare { smallBusy with sticky := { Sticky.clear with ovrL := true, cmdErr := true } }
      (fun t => (t.l.fifo.occ, t.l.fifo.k, statusWord t)) = some (0#32, 0, 0x00002003#32) := by decide
/-- V-A11, and V-P23 where nothing is new. -/
theorem test_specAcqL :
    after .specAcqL smallBusy (fun t => (t.l.spec.acqGen, t.l.spec.avail, t.r.spec.acqGen)) = some (7#32, 0#32, 0#32) ∧
    after .specAcqL small (·.l) = some small.l := by decide
theorem test_specAcqR :
    after .specAcqR smallBusy (fun t => (readLoc t (.bin .R 1), readLoc t (.bin .L 1))) =
      some (0x3F800000#32, 0#32) := by decide
/-- V-P24. -/
theorem test_softReset :
    after .softReset { smallBusy with staged := { Settings.reset with pkFreq := 0x447A0000#32 } }
      (fun t => (readLoc t (.staged .pkFreq), statusWord t, t.cfg.fifoCap)) = some (0x443B8000#32, 1#32, 2) := by decide
/-- V-P16. -/
theorem test_reservedCmd :
    after (.reservedCmd 4#32) State.reset statusWord = some 0x00002001#32 ∧
    answer (.reservedCmd 4#32) State.reset = some ⟨0#32, false⟩ := by decide
/-- V-P7. -/
theorem test_illegalCtl :
    answer (.illegalCtl 0b10#2 false 0x0002#16 0#32) State.reset = some ⟨0#32, true⟩ ∧
    after (.illegalCtl 0b10#2 false 0x0002#16 0#32) State.reset statusWord = some 0x00004001#32 := by decide
/-- V-B21, V-F10, V-F1: every stage bypassed; the second sample completes a block. -/
theorem test_frame_bypassed :
    after (.frame 0x80000000#32 0x00080000#32) small
      (fun t => (t.audioOut, t.r.fifo.acc, t.r.fifo.k)) =
        some ([0x0008000080000000#64], [(0, 0x00080000#32)], 1) := by decide
/-- V-F2: a push on a full FIFO drops the oldest block, and the indices wrap. -/
theorem test_frame_overrun :
    after (.frame 0x3F800000#32 0#32) smallBusy
      (fun t => (t.l.fifo.ring, t.l.fifo.ovr, t.l.fifo.w, t.l.fifo.r, statusWord t)) =
        some ([(0, 0x40400000#32), (1, 0x3F800000#32), (3, 0x40000000#32)], 1#32, 2#32, 0#32, 0x00030302#32) := by decide
/-- V-C7: with SR = 0.0 every stage is rejected, for every CALC. -/
theorem test_begin_rejected :
    after .beginBlock { State.reset with committed := { Settings.reset with sr := 0#32 } }
      (fun t => (statusWord t, readLoc t .actFlags, t.coefGen, t.blkCnt)) =
        some (0x00000072#32, 0#32, 1#32, 1#32) := by decide
/-- V-S4, second BEGIN. -/
theorem test_begin_inBlock :
    after .beginBlock { small with blkCnt := 1#32 } (fun t => (statusWord t, t.blkCnt)) = some (0x00001002#32, 2#32) := by
  decide
/-- V-B10, V-B17: the peak section is active at reset, LC0 is not. -/
theorem test_end_snaps :
    after .endBlock
      { State.reset with
        inBlock := true
        l := { Chan.reset with sec := { Chan.reset.sec with
          pk := { Section.reset with s1 := 0x322BCC77#32 }
          lc0 := { Section.reset with s1 := 0x322BCC77#32 } } } }
      (fun t => (t.l.sec.pk.s1, t.l.sec.lc0.s1, statusWord t)) = some (0#32, 0x322BCC77#32, 1#32) := by decide
/-- V-S8. -/
theorem test_end_outside : after .endBlock State.reset statusWord = some 0x00001001#32 := by decide
/-- V-S6. -/
theorem test_reservedBeat :
    after .reservedBeat State.reset (fun t => (statusWord t, t.audioOut)) = some (0x00001001#32, []) := by decide
/-- V-B7, the last of its five inputs: from the state word 0.0625 · 1 the input 2 gives 1.0625 and leaves 1.03125. -/
theorem test_biquad :
    biquad .ftzDaz 0
      { coef := ⟨0x3F000000#32, 0x3E800000#32, 0#32, 0xBF000000#32, 0#32⟩, s1 := 0x3D800000#32, s2 := 0#32 }
      0x40000000#32 =
    (0x3F880000#32,
      { coef := ⟨0x3F000000#32, 0x3E800000#32, 0#32, 0xBF000000#32, 0#32⟩, s1 := 0x3F840000#32, s2 := 0#32 }) := by
  decide +kernel
/-- V-A9, first block, with the values 1.0 and 2.0: the block lies at the end of the buffer. -/
theorem test_shiftIn : shiftIn [(7, 0x40400000#32)] 8 [0x3F800000#32, 0x40000000#32] =
    [(5, 0x40400000#32), (6, 0x3F800000#32), (7, 0x40000000#32)] := by decide
/-- V-A2, V-A15: silence, and a NaN floor, for every SPECTRUM. -/
theorem test_spectrum :
    spectrum [0#32, 0x80000000#32] 0xC2400000#32 2 = [0xC2400000#32, 0xC2400000#32] ∧
    spectrum [0x3F800000#32] 0x7FC00000#32 1 = [0x7FC00000#32] := by decide
/-- R193: an empty FIFO, and CTRL.ANA_EN = 0 (V-A17), disable the analyzer. -/
theorem test_anaTurn_disabled :
    anaTurn .L small = small ∧ anaTurn .L { smallBusy with ctrl := ⟨false, false⟩ } = { smallBusy with ctrl := ⟨false, false⟩ } := by
  decide
/-- The reset memories have the canonical form. -/
theorem test_reset_memories :
    State.reset.l.fifo.ring.wf = true ∧ State.reset.l.ana.abuf.wf = true ∧ State.reset.r.spec.acq.wf = true := by decide

/-! Witnesses: for each obligation with hypotheses, states and operands that meet them, each clause at a boundary. -/

theorem witness_DecodeEncodeAgree :
    (Instr.rd 0x7FFC#16).wellFormed = true ∧ (Instr.wr 0x0000#16 5#32).wellFormed = true ∧
    (Instr.reservedCmd 0xFFFFFFFF#32).wellFormed = true ∧ ∀ off d, Instr.commit ≠ .wr off d :=
  ⟨by decide, by decide, by decide, fun _ _ h => nomatch h⟩

theorem witness_EveryFormatValueDecodes :
    (∃ i, decode .control { width := 51, bits := 2 ^ 51 - 1 } = .ok i) ∧
    (∃ i, decode .audio { width := 66, bits := 2 ^ 66 - 1 } = .ok i) := ⟨⟨_, rfl⟩, ⟨_, rfl⟩⟩

theorem witness_RequestDecoding :
    (ctlSize (ctlWord 0b10#2 false 0x7FFC#16 1#32) = 0b10#2 ∧ mapped (ctlAddr (ctlWord 0b10#2 false 0x7FFC#16 1#32)) = true ∧
      ctlWe (ctlWord 0b10#2 false 0x7FFC#16 1#32) = false) ∧
    (ctlSize (wrWord 0x0000#16 1#32) = 0b10#2 ∧ mapped (ctlAddr (wrWord 0x0000#16 1#32)) = true ∧
      ctlWe (wrWord 0x0000#16 1#32) = true) ∧
    ctlSize (ctlWord 0b11#2 false 0x0000#16 0#32) ≠ 0b10#2 ∧
    mapped (ctlAddr (ctlWord 0b10#2 false 0x8000#16 0#32)) = false := by decide

/-- The edges of the map of R79. -/
theorem witness_MappedOffsets :
    mapped 0x0038#16 = true ∧ mapped 0x003C#16 = false ∧ mapped 0x0040#16 = true ∧ mapped 0x0058#16 = true ∧
    mapped 0x005C#16 = false ∧ mapped 0x0060#16 = true ∧ mapped 0x0064#16 = false ∧ mapped 0x006C#16 = false ∧
    mapped 0x0070#16 = true ∧ mapped 0x0094#16 = true ∧ mapped 0x0098#16 = false ∧ mapped 0x01FC#16 = false ∧
    mapped 0x0200#16 = true ∧ mapped 0x031C#16 = true ∧ mapped 0x0320#16 = false ∧ mapped 0x3FFC#16 = false ∧
    mapped 0x4000#16 = true ∧ mapped 0x7FFC#16 = true ∧ mapped 0x7FFD#16 = false ∧ mapped 0x8000#16 = false := by decide

/-- A state with one term at each port. -/
def ports (t : Turn) : State :=
  { State.reset with
    sched := [t]
    ctrlIn := [encode .commit]
    audioIn := [encode .endBlock] }

theorem witness_StepRunsDecoded :
    ((ports .hostCtrl).cfg.legal = true ∧ (ports .hostCtrl).sched = .hostCtrl :: [] ∧
      (ports .hostCtrl).ctrlIn = encode .commit :: [] ∧ decode .control (encode .commit) = .ok .commit ∧
      Instr.commit.wellFormed = true) ∧
    ((ports .hostAudio).cfg.legal = true ∧ (ports .hostAudio).sched = .hostAudio :: [] ∧
      (ports .hostAudio).audioIn = encode .endBlock :: [] ∧ decode .audio (encode .endBlock) = .ok .endBlock ∧
      Instr.endBlock.wellFormed = true) ∧
    (State.reset.cfg.legal = true ∧ decodeTableWord 56 0x5001400000001 = some .commit ∧
      decodeTableWord 72 0x20000000000000000 = some .endBlock) := by decide +kernel

theorem witness_StepRunsAgents :
    (ports (.ana .R)).cfg.legal = true ∧ (ports (.ana .R)).sched = .ana .R :: [] ∧
    (ports .resetInput).sched = .resetInput :: [] ∧
    (({ State.reset with sched := [.hostCtrl] } : State).ctrlIn = [] ∧
      ({ State.reset with sched := [.hostAudio] } : State).audioIn = []) := by decide +kernel

theorem witness_NeverStuck :
    step { State.reset with cfg := { Params.default with fifoCap := 0 } } =
      .refused (.illegalConfiguration { Params.default with fifoCap := 0 }) ∧
    step { State.reset with sched := [.hostCtrl], ctrlIn := [{ width := 66, bits := 0 }] } =
      .refused (.notATransaction (.notCtl51 { width := 66, bits := 0 })) ∧
    ((ports .hostCtrl).cfg.legal = true ∧ (∀ w ∈ (ports .hostCtrl).ctrlIn, w.fits .control = true) ∧
      ∀ w ∈ (ports .hostCtrl).audioIn, w.fits .audio = true) := ⟨rfl, rfl, by decide +kernel⟩

theorem witness_AudioPortNeverWaits :
    (ports .hostAudio).cfg.legal = true ∧ (ports .hostAudio).sched = .hostAudio :: [] ∧
    (ports .hostAudio).audioIn = audTerm (audWord 0b10#2 0#32 0#32) :: [] ∧
    audTag (audWord 0b00#2 1#32 1#32) = 0b00#2 ∧ audTag (audWord 0b11#2 1#32 1#32) ≠ 0b00#2 := by decide +kernel

theorem witness_EveryRequestAnswered :
    (ports .hostCtrl).cfg.legal = true ∧ (ports .hostCtrl).sched = .hostCtrl :: [] ∧
    (ports .hostCtrl).ctrlIn = ctlTerm (wrWord 0x0014#16 1#32) :: [] ∧ ctlWe (wrWord 0x0014#16 1#32) = true := by
  decide +kernel

theorem witness_RdAnswersTheWord :
    locate 0x0000#16 = some .id ∧ locate 0x7FFC#16 = some (.bin .R 2047) ∧ mapped 0x003C#16 = false ∧
    mapped 0x0001#16 = false := by decide

/-- The smallest and the largest configuration of R10. -/
theorem witness_RegistersRead :
    ({ State.reset with cfg := ⟨3, 1, 1, 1, false, .ieee, 0⟩ } : State).cfg.legal = true ∧
    ({ State.reset with cfg := ⟨12, 4096, 255, 65535, true, .ftzDaz, 0⟩ } : State).cfg.legal = true := by decide +kernel

theorem witness_SpectrumWindow :
    (0 < 2048 ∧ 2047 < 2048) ∧ 3 < small.cfg.bins ∧ ¬ 4 < small.cfg.bins := by decide

theorem witness_WrIsItsRow : mapped 0x0014#16 = true ∧ mapped 0x7FFC#16 = true ∧ mapped 0x8000#16 = false := by decide

theorem witness_IgnoredWrites :
    (locate 0x0000#16 = some .id ∧ Loc.id.readOnly = true) ∧
    (locate 0x7FFC#16 = some (.bin .R 2047) ∧ (Loc.bin .R 2047).readOnly = true) := by decide

theorem witness_ReservedAndIllegalRequests :
    (Instr.reservedCmd 4#32).wellFormed = true ∧ (Instr.reservedCmd 0xFFFFFFFF#32).wellFormed = true ∧
    (Instr.illegalCtl 0b01#2 true 0x000C#16 1#32).wellFormed = true ∧
    (Instr.illegalCtl 0b10#2 false 0x003C#16 1#32).wellFormed = true := by decide

theorem witness_AcquireNewest :
    Chan.reset.spec.avail = 0#32 ∧ busy.spec.avail ≠ 0#32 ∧ 0 < [0x3F800000#32].length := by decide

theorem witness_FramingTable : State.reset.inBlock = false ∧ small.inBlock = true := by decide

theorem witness_BeginOpensBlock :
    (small.dirty = false ∧ small.inBlock = true) ∧ (State.reset.dirty = true ∧ State.reset.inBlock = false) ∧
    ({ State.reset with inBlock := true } : State).dirty = true := by decide

theorem witness_EndSnapsActiveSections :
    (small.inBlock = true ∧ State.reset.inBlock = false) ∧ isNaN 0x7F800001#32 = true ∧
    (∀ w ∈ [0x322BCC77#32, 0xB22BCC77#32],
      isNaN w = false ∧ -scaled 0x322BCC77#32 ≤ scaled w ∧ scaled w ≤ scaled 0x322BCC77#32) ∧
    (isNaN 0xB22BCC78#32 = false ∧ scaled 0xB22BCC78#32 < -scaled 0x322BCC77#32) ∧
    (isNaN 0x322BCC78#32 = false ∧ scaled 0x322BCC77#32 < scaled 0x322BCC78#32) ∧
    (isInf 0x7F800000#32 = true ∧ isInf 0xFF800000#32 = true) := by
  have h1 : scaled 0x322BCC77#32 = 11258999 * 2 ^ 99 := by decide +kernel
  have h2 : scaled 0xB22BCC77#32 = -(11258999 * 2 ^ 99) := by decide +kernel
  have h3 : scaled 0x322BCC78#32 = 11259000 * 2 ^ 99 := by decide +kernel
  have h4 : scaled 0xB22BCC78#32 = -(11259000 * 2 ^ 99) := by decide +kernel
  refine ⟨by decide, by decide, fun w hw => ?_, ⟨by decide, ?_⟩, ⟨by decide, ?_⟩, by decide⟩
  · simp only [List.mem_cons, List.not_mem_nil, or_false] at hw
    rcases hw with rfl | rfl
    · exact ⟨by decide, by rw [h1]; norm_num, le_refl _⟩
    · exact ⟨by decide, by rw [h1, h2], by rw [h1, h2]; norm_num⟩
  · rw [h1, h4]
    norm_num
  · rw [h1, h3]
    norm_num

theorem witness_FrameStores :
    (small.inBlock = true ∧ (small.chan .L).fifo.acc.wf = true ∧ (small.chan .L).fifo.ring.wf = true ∧
      (small.chan .L).fifo.k + 1 ≠ small.cfg.fifoBlock ∧ small.ctrl.tap = false) ∧
    (smallBusy.inBlock = true ∧ (smallBusy.chan .R).fifo.acc.wf = true ∧ (smallBusy.chan .R).fifo.ring.wf = true ∧
      (smallBusy.chan .R).fifo.k + 1 = smallBusy.cfg.fifoBlock) ∧
    ({ smallBusy with ctrl := ⟨true, true⟩ } : State).ctrl.tap = true := by decide

/-- A rejected stage: SR = 0.0, for every CALC. -/
theorem witness_RefreshCutStages_rejected :
    (0 < 4 ∧ 3 < 4) ∧ ¬ validCut 0#32 Settings.reset.lcFreq = true ∧ ¬ validCut 0#32 Settings.reset.hcFreq = true := by
  decide

/-- An accepted stage, at the default settings and the steepest slope. Whether CALC's words are finite is not the model's
to say (R140, log 6): here CALC's part answers the identity section. -/
theorem witness_RefreshCutStages_accepted :
    (validCut Settings.reset.sr Settings.reset.lcFreq = true ∧
      ∀ i, i < slopeSections 3#2 → Machine.coefsFinite ((fun _ _ => Section.reset.coef : Nat → Nat → Coefs) 8 i) = true) ∧
    (cutStage Settings.reset.sr Settings.reset.hcFreq 3#2 fun _ _ => Section.reset.coef).isSome = true :=
  ⟨⟨by decide +kernel, fun _ _ => (by decide : Machine.coefsFinite Section.reset.coef = true)⟩, by decide +kernel⟩

/-- The peak stage: accepted inputs (with a finite answer of CALC, as above), and rejected ones. -/
theorem witness_RefreshPeakAndFlags :
    (validPk 0x473B8000#32 0x443B8000#32 0x3F800000#32 0#32 = true ∧ Machine.coefsFinite Section.reset.coef = true) ∧
    ¬ validPk 0x473B8000#32 0x443B8000#32 0#32 0#32 = true := by decide +kernel

/-- V-C7: 24000 Hz is rejected at 48000 Hz, 23999 Hz is not; 2^-149 is accepted, 0 and NaN are not. -/
theorem witness_ValidityTests :
    validCut 0x473B8000#32 0x46BB8000#32 = false ∧ validCut 0x473B8000#32 0x46BB7E00#32 = true ∧
    validCut 0x473B8000#32 0x00000001#32 = true ∧ validCut 0x473B8000#32 0#32 = false ∧
    validCut 0x473B8000#32 0x7FC00000#32 = false ∧ validCut 0x7F800000#32 0x41A00000#32 = false ∧
    validPk 0x473B8000#32 0x443B8000#32 0xBF800000#32 0#32 = false ∧
    validPk 0x473B8000#32 0x443B8000#32 0x3F800000#32 0x7F800000#32 = false := by decide +kernel

theorem witness_StagesUseOwnFrequency : SecId.hc0 ∈ SecId.highcut ∧ SecId.lc3 ∈ SecId.lowcut := by decide

theorem witness_InactiveSectionsSkipped :
    Chan.reset.active .lc0 = false ∧ Chan.reset.active .pk = true ∧ ∀ i, small.l.active i = false := by
  refine ⟨by decide, by decide, fun i => ?_⟩
  cases i <;> decide

theorem witness_IdentitySection :
    (isFinite 0x7F7FFFFF#32 = true ∧ (0x7F7FFFFF#32 : Word) ≠ 0x80000000#32 ∧ isSubnormal 0x7F7FFFFF#32 = false) ∧
    (isFinite 0x00000001#32 = true ∧ (0x00000001#32 : Word) ≠ 0x80000000#32 ∧ Denorm.ieee = .ieee) ∧
    isNaN 0xFFFFFFFF#32 = true ∧ (isSubnormal 0x007FFFFF#32 = true ∧ Denorm.ftzDaz = .ftzDaz) := by decide

theorem witness_SilenceStaysSilent :
    Chan.reset.sec.coefsFinite = true ∧
    (∀ i, isZero (Chan.reset.sec.get i).s1 = true ∧ isZero (Chan.reset.sec.get i).s2 = true) ∧
    isZero 0x80000000#32 = true := by
  refine ⟨by decide, fun i => ?_, by decide⟩
  cases i <;> decide

theorem witness_LanesAreIndependent :
    (∃ t t', exec (.frame 1#32 2#32) small = .next t ∧ exec (.frame 1#32 3#32) { small with r := busy } = .next t') ∧
    (busy.enLc = small.l.enLc ∧ busy.enHc = small.l.enHc ∧ busy.bypLc = small.l.bypLc ∧ busy.bypPk = small.l.bypPk ∧
      busy.bypHc = small.l.bypHc) ∧
    (∃ t t', exec (.frame 1#32 2#32) small = .next t ∧ exec (.frame 5#32 2#32) { small with l := busy } = .next t') :=
  ⟨⟨_, _, rfl, rfl⟩, by decide, ⟨_, _, rfl, rfl⟩⟩

/-- 1.0 and 2.0 for either DENORM; 1.0 and -1.0, whose sum is an exact zero. -/
theorem witness_DatapathIsCorrectlyRounded (d : Denorm) :
    isFinite 0x3F800000#32 = true ∧ isFinite 0x40000000#32 = true ∧ isFinite 0xBF800000#32 = true ∧
    valReal (flush d 0x3F800000#32) + valReal (flush d 0x40000000#32) ≠ 0 ∧
    valReal (flush d 0x3F800000#32) - valReal (flush d 0x40000000#32) ≠ 0 ∧
    valReal (flush d 0x3F800000#32) * valReal (flush d 0x40000000#32) ≠ 0 ∧
    valReal (flush d 0x3F800000#32) + valReal (flush d 0xBF800000#32) = 0 := by
  have h1 : scaled 0x3F800000#32 = 2 ^ 149 := by decide +kernel
  have h2 : scaled 0x40000000#32 = 2 ^ 150 := by decide +kernel
  have h3 : scaled 0xBF800000#32 = -2 ^ 149 := by decide +kernel
  have f1 : flush d 0x3F800000#32 = 0x3F800000#32 := by cases d <;> decide
  have f2 : flush d 0x40000000#32 = 0x40000000#32 := by cases d <;> decide
  have f3 : flush d 0xBF800000#32 = 0xBF800000#32 := by cases d <;> decide
  have e1 : valReal 0x3F800000#32 = 1 := by
    rw [valReal, h1]
    norm_num
  have e2 : valReal 0x40000000#32 = 2 := by
    rw [valReal, h2]
    norm_num
  have e3 : valReal 0xBF800000#32 = -1 := by
    rw [valReal, h3]
    norm_num
  rw [f1, f2, f3, e1, e2, e3]
  refine ⟨by decide, by decide, by decide, ?_⟩
  norm_num

theorem witness_DatapathSpecialCases :
    isNaN 0x7F800001#32 = true ∧
    (isInf 0x7F800000#32 = true ∧ isInf 0xFF800000#32 = true ∧ signBit 0x7F800000#32 ≠ signBit 0xFF800000#32) ∧
    isFinite 0x7F7FFFFF#32 = true ∧ (isZero 0#32 = true ∧ isZero 0x80000000#32 = true) ∧
    (isNaN 0x00800000#32 = false ∧ isZero 0x00800000#32 = false ∧ isSubnormal 0x00800000#32 = false) ∧
    (isSubnormal 0x00000001#32 = true ∧ isSubnormal 0x807FFFFF#32 = true) := by decide

/-- At the edge: a sample rate of exactly 4 Hz and a peak at 1 Hz. -/
theorem witness_ReferencePeakAtZeroDb :
    validPk 0x40800000#32 0x3F800000#32 0x3F800000#32 0#32 = true ∧ 4 ≤ valReal 0x40800000#32 := by
  have h : scaled 0x40800000#32 = 2 ^ 151 := by decide +kernel
  refine ⟨by decide +kernel, ?_⟩
  rw [valReal, h]
  norm_num

theorem witness_PushRefinesQueue :
    (small.cfg.legal = true ∧ busy.fifo.inv small.cfg = true ∧ [1#32, 2#32].length = small.cfg.fifoBlock ∧
      busy.fifo.full small.cfg = true) ∧
    (Chan.reset.fifo.inv small.cfg = true ∧ Chan.reset.fifo.full small.cfg = false) := by decide +kernel

theorem witness_PopRefinesQueue :
    small.cfg.legal = true ∧ (Chan.reset.fifo.inv small.cfg = true ∧ Chan.reset.fifo.queue small.cfg = []) ∧
    (busy.fifo.inv small.cfg = true ∧
      busy.fifo.queue small.cfg = [0x3F800000#32, 0#32] :: [[0#32, 0x40000000#32]]) := by decide +kernel

theorem witness_FifoRoundTripAndOverrun :
    small.cfg.legal = true ∧ Chan.reset.fifo.inv small.cfg = true ∧ Chan.reset.fifo.occ = 0#32 ∧
    (∀ b ∈ [[1#32, 2#32], [3#32, 4#32], [5#32, 6#32]], b.length = small.cfg.fifoBlock) ∧
    [[1#32, 2#32], [3#32, 4#32], [5#32, 6#32]].length ≤ 3 := by decide +kernel

theorem witness_AccumulatorGathersBlocks :
    small.cfg.legal = true ∧ Chan.reset.fifo.inv small.cfg = true ∧ Chan.reset.fifo.k = 0 ∧
    [1#32].length < small.cfg.fifoBlock ∧ [1#32, 2#32].length = small.cfg.fifoBlock := by decide +kernel

theorem witness_ShiftInKeepsNewest :
    Memory.wf [(0, 1#32), (7, 2#32)] = true ∧ [1#32, 2#32].length ≤ 8 ∧ [1#32, 2#32].length ≤ 2 := by decide

theorem witness_AnaStep :
    ({ small with ctrl := ⟨false, false⟩ } : State).ctrl.anaEn = false ∧
    (small.chan .L).fifo.w = (small.chan .L).fifo.r ∧
    (smallBusy.ctrl.anaEn = true ∧ (smallBusy.chan .L).fifo.w ≠ (smallBusy.chan .L).fifo.r ∧
      (smallBusy.chan .L).ana.fresh + 1 = smallBusy.cfg.hopBlocks) ∧
    (smallBusy.chan .L).ana.fresh + 1 ≠ ({ smallBusy.cfg with hopBlocks := 2 } : Params).hopBlocks := by decide

theorem witness_AnalyzerNeverAffectsAudio :
    ∃ t u, (Instr.frame 1#32 2#32).port = .audio ∧ exec (.frame 1#32 2#32) smallBusy = .next t ∧
      exec (.frame 1#32 2#32) (anaTurn .L smallBusy) = .next u ∧ anaEnabled .L smallBusy = true :=
  ⟨_, _, rfl, rfl, rfl, by decide⟩

theorem witness_SpectrumProperties :
    (∀ w ∈ [0#32, 0x80000000#32], isZero w = true) ∧ (∃ w ∈ [0x3F800000#32, 0xFF800000#32], isFinite w = false) ∧
    isNaN 0x7FC00000#32 = true := by
  refine ⟨fun w hw => ?_, ⟨0xFF800000#32, by simp, by decide⟩, by decide⟩
  simp only [List.mem_cons, List.not_mem_nil, or_false] at hw
  rcases hw with rfl | rfl <;> decide

theorem witness_WindowChangesOnlyOnAcquire :
    ∃ t, exec .specAcqR smallBusy = .next t ∧ Instr.specAcqR.resolve ≠ .specAcqL ∧ Instr.specAcqR.resolve ≠ .prepare ∧
      Instr.specAcqR.resolve ≠ .softReset := ⟨_, rfl, by decide⟩

theorem witness_AnalyzerDrainsFifo :
    let s := { smallBusy with sched := [.ana .L, .ana .L, .hostAudio] }
    s.cfg.legal = true ∧ s.ctrl.anaEn = true ∧
    s.sched = List.replicate (s.chan .L).fifo.occ.toNat (Turn.ana .L) ++ [.hostAudio] := by decide +kernel

theorem witness_ConfigurationNeverChanges :
    ∃ t, step (ports .hostCtrl) = .next t ∧ t.ctrlOut = [{ rdata := 0#32, err := false }] := ⟨_, rfl, rfl⟩

theorem witness_StickyBitsPersist :
    (raise .busErr State.reset).sticky.get .busErr = true ∧
    (∃ t, exec (.wrStatus 0x00004000#32) (raise .busErr State.reset) = .next t ∧ t.sticky.get .busErr = false) ∧
    (∃ t, exec .prepare (raise (.ovr .L) State.reset) = .next t ∧ t.sticky.get (.ovr .L) = false) ∧
    (∃ t, exec .softReset (raise .cmdErr State.reset) = .next t ∧ t.sticky.get .cmdErr = false) ∧
    (∃ t, exec .nop (raise .protoErr State.reset) = .next t ∧ t.sticky.get .protoErr = true) :=
  ⟨rfl, ⟨_, rfl, rfl⟩, ⟨_, rfl, rfl⟩, ⟨_, rfl, rfl⟩, ⟨_, rfl, rfl⟩⟩

/-- A block opened with DIRTY = 1 changes the bypass flags, for every CALC (SR = 0.0 rejects the three stages). -/
theorem witness_CoefficientsChangeOnlyAtBlockStart :
    let s := { small with inBlock := false, dirty := true, committed := { Settings.reset with sr := 0#32 } }
    (∃ t, exec .beginBlock s = .next t ∧ (t.chan .L).bypPk ≠ (s.chan .L).bypPk) ∧
    (∃ t, exec .softReset s = .next t ∧ (t.chan .L).bypPk ≠ (s.chan .L).bypPk) :=
  ⟨⟨_, rfl, by decide⟩, ⟨_, rfl, by decide⟩⟩

theorem witness_CommittedOnlyByCommit :
    ∃ t, exec .commit { State.reset with staged := { Settings.reset with pkQ := 0#32 } } = .next t ∧
      t.committed ≠ State.reset.committed := ⟨_, rfl, by decide⟩

theorem witness_StepKeepsInv :
    let s := { smallBusy with sched := [.ana .L] }
    s.inv = true ∧ ∃ t, step s = .next t := ⟨by decide +kernel, ⟨_, rfl⟩⟩

end Sys2Proof.Tests
end

section
/-! PROOFS. Words of binary32 (R13, R73): their fields, what `pack`, `fneg` and `flush` do to the fields, and which
values the fields make. Everything later about the datapath goes through these. -/

namespace Sys2Proof.Machine

/-! The fields of a word as arithmetic. -/

theorem signBit_eq_decide (w : Word) : signBit w = decide (2 ^ 31 ≤ w.toNat) := BitVec.msb_eq_decide w

theorem expField_eq_mod (w : Word) : expField w = w.toNat / 2 ^ 23 % 2 ^ 8 := by
  simp [expField, Nat.shiftRight_eq_div_pow]

theorem fracField_eq_mod (w : Word) : fracField w = w.toNat % 2 ^ 23 := by
  simp [fracField]

/-! `pack`. -/

theorem toNat_pack (neg : Bool) {m : Nat} (h : m < 2 ^ 31) :
    (pack neg m).toNat = (if neg then 2 ^ 31 else 0) + m := by
  rw [pack, BitVec.toNat_ofNat, Nat.mod_eq_of_lt]
  split <;> omega

theorem signBit_pack (neg : Bool) {m : Nat} (h : m < 2 ^ 31) : signBit (pack neg m) = neg := by
  rw [signBit_eq_decide, toNat_pack neg h]
  cases neg with
  | false => simpa using h
  | true => simp

theorem expField_pack (neg : Bool) {m : Nat} (h : m < 2 ^ 31) : expField (pack neg m) = m / 2 ^ 23 := by
  rw [expField_eq_mod, toNat_pack neg h]
  split <;> omega

theorem fracField_pack (neg : Bool) {m : Nat} (h : m < 2 ^ 31) : fracField (pack neg m) = m % 2 ^ 23 := by
  rw [fracField_eq_mod, toNat_pack neg h]
  split <;> omega

theorem pack_zero (neg : Bool) : pack neg 0 = if neg then 0x80000000#32 else 0#32 := by cases neg <;> rfl

@[simp] theorem isSubnormal_pack_zero (neg : Bool) : isSubnormal (pack neg 0) = false := by cases neg <;> decide

@[simp] theorem isInf_pack_inf (neg : Bool) : isInf (pack neg 0x7F800000) = true := by cases neg <;> decide

@[simp] theorem signBit_pack_inf (neg : Bool) : signBit (pack neg 0x7F800000) = neg :=
  signBit_pack neg (by decide)

/-- R17: a draw has exponent field 0xFF and a nonzero fraction. -/
@[simp] theorem isNaN_nanDraw (n : Nat) : isNaN (nanDraw n) = true := by
  have hf : (Config.nanFraction n).val < 8388607 := (Config.nanFraction n).isLt
  have hm : 0x7F800000 + 1 + (Config.nanFraction n).val < 2 ^ 31 := by omega
  have he : expField (nanDraw n) = 255 := by
    rw [nanDraw, expField_pack _ hm]
    omega
  have hz : fracField (nanDraw n) ≠ 0 := by
    rw [nanDraw, fracField_pack _ hm]
    omega
  simp [isNaN, he, hz]

/-! The classes of R13 and R15 exclude each other. -/

theorem isNaN_of_isFinite {w : Word} (h : isFinite w = true) : isNaN w = false := by
  simp_all [isFinite, isNaN]

theorem isInf_of_isFinite {w : Word} (h : isFinite w = true) : isInf w = false := by
  simp_all [isFinite, isInf]

theorem isNaN_of_isInf {w : Word} (h : isInf w = true) : isNaN w = false := by
  simp_all [isInf, isNaN]

theorem isZero_of_isInf {w : Word} (h : isInf w = true) : isZero w = false := by
  simp_all [isInf, isZero]

theorem isSubnormal_of_isInf {w : Word} (h : isInf w = true) : isSubnormal w = false := by
  simp_all [isInf, isSubnormal]

theorem isSubnormal_of_isNaN {w : Word} (h : isNaN w = true) : isSubnormal w = false := by
  simp_all [isNaN, isSubnormal]

theorem isSubnormal_of_isZero {w : Word} (h : isZero w = true) : isSubnormal w = false := by
  simp_all [isZero, isSubnormal]

theorem isFinite_of_isZero {w : Word} (h : isZero w = true) : isFinite w = true := by
  simp_all [isZero, isFinite]

theorem magnitude_of_isZero {w : Word} (h : isZero w = true) : magnitude w = 0 := by
  simp_all [isZero, magnitude]

theorem scaled_of_isZero {w : Word} (h : isZero w = true) : scaled w = 0 := by
  simp [scaled, magnitude_of_isZero h]

/-! `fneg` flips the sign and keeps the other fields. -/

@[simp] theorem signBit_fneg (w : Word) : signBit (fneg w) = !signBit w := by simp [signBit, fneg]

@[simp] theorem expField_fneg (w : Word) : expField (fneg w) = expField w := by
  simp [expField, fneg, BitVec.extractLsb'_xor]

@[simp] theorem fracField_fneg (w : Word) : fracField (fneg w) = fracField w := by
  simp [fracField, fneg, BitVec.extractLsb'_xor]

@[simp] theorem isFinite_fneg (w : Word) : isFinite (fneg w) = isFinite w := by simp [isFinite]

@[simp] theorem isSubnormal_fneg (w : Word) : isSubnormal (fneg w) = isSubnormal w := by simp [isSubnormal]

theorem fneg_pack_zero (neg : Bool) : fneg (pack neg 0) = pack (!neg) 0 := by cases neg <;> rfl

@[simp] theorem scaled_fneg (w : Word) : scaled (fneg w) = -scaled w := by
  cases h : signBit w <;> simp [scaled, magnitude, h]

/-! `flush` (R15 steps 1 and 5). -/

/-- All that `flush` can do. -/
theorem flush_cases (d : Denorm) (w : Word) :
    flush d w = w ∨ d = .ftzDaz ∧ isSubnormal w = true ∧ flush d w = pack (signBit w) 0 := by
  cases d with
  | ieee => exact .inl rfl
  | ftzDaz =>
    cases h : isSubnormal w with
    | false => exact .inl (by simp [flush, h])
    | true => exact .inr ⟨rfl, rfl, by simp [flush, h]⟩

theorem flush_of_not_subnormal (d : Denorm) {w : Word} (h : isSubnormal w = false) : flush d w = w := by
  obtain heq | ⟨-, hsub, -⟩ := flush_cases d w
  · exact heq
  · simp [h] at hsub

theorem flush_ftzDaz_of_subnormal {w : Word} (h : isSubnormal w = true) :
    flush .ftzDaz w = pack (signBit w) 0 := by
  simp [flush, h]

@[simp] theorem flush_pack_zero (d : Denorm) (neg : Bool) : flush d (pack neg 0) = pack neg 0 :=
  flush_of_not_subnormal d (isSubnormal_pack_zero neg)

@[simp] theorem isSubnormal_flush_ftzDaz (w : Word) : isSubnormal (flush .ftzDaz w) = false := by
  cases h : isSubnormal w with
  | false => rw [flush_of_not_subnormal _ h, h]
  | true => rw [flush_ftzDaz_of_subnormal h, isSubnormal_pack_zero]

@[simp] theorem signBit_flush (d : Denorm) (w : Word) : signBit (flush d w) = signBit w := by
  obtain heq | ⟨-, -, heq⟩ := flush_cases d w
  · rw [heq]
  · rw [heq, signBit_pack _ (by decide)]

@[simp] theorem expField_flush (d : Denorm) (w : Word) : expField (flush d w) = expField w := by
  obtain heq | ⟨-, hsub, heq⟩ := flush_cases d w
  · rw [heq]
  · have hexp : expField w = 0 := by simp_all [isSubnormal]
    rw [heq, expField_pack _ (by decide), hexp, Nat.zero_div]

@[simp] theorem isFinite_flush (d : Denorm) (w : Word) : isFinite (flush d w) = isFinite w := by simp [isFinite]

theorem isNaN_flush {w : Word} (d : Denorm) (h : isNaN w = true) : isNaN (flush d w) = true := by
  rwa [flush_of_not_subnormal d (isSubnormal_of_isNaN h)]

theorem flush_of_isInf {w : Word} (d : Denorm) (h : isInf w = true) : flush d w = w :=
  flush_of_not_subnormal d (isSubnormal_of_isInf h)

theorem flush_of_isZero {w : Word} (d : Denorm) (h : isZero w = true) : flush d w = w :=
  flush_of_not_subnormal d (isSubnormal_of_isZero h)

theorem flush_fneg (d : Denorm) (w : Word) : flush d (fneg w) = fneg (flush d w) := by
  cases d with
  | ieee => rfl
  | ftzDaz =>
    cases h : isSubnormal w with
    | false => rw [flush_of_not_subnormal _ h, flush_of_not_subnormal _ (by simpa using h)]
    | true =>
      rw [flush_ftzDaz_of_subnormal h, flush_ftzDaz_of_subnormal (by simpa using h), signBit_fneg, fneg_pack_zero]

/-! The real value of a word (R13). -/

theorem valReal_add (a b : Word) : valReal a + valReal b = ((scaled a + scaled b : ℤ) : ℝ) * 2 ^ (-149 : ℤ) := by
  rw [valReal, valReal, ← add_mul, Int.cast_add]

theorem valReal_mul (a b : Word) : valReal a * valReal b = ((scaled a * scaled b : ℤ) : ℝ) * 2 ^ (-298 : ℤ) := by
  rw [valReal, valReal, mul_mul_mul_comm, ← zpow_add₀ two_ne_zero, Int.cast_mul]
  norm_num

theorem valReal_fneg (w : Word) : valReal (fneg w) = -valReal w := by
  rw [valReal, valReal, scaled_fneg, Int.cast_neg, neg_mul]

theorem natAbs_scaled (w : Word) : (scaled w).natAbs = magnitude w := by
  unfold scaled
  split <;> simp

/-- The sign of an exact product that is not zero is the exclusive or of the signs (R15 step 4). -/
theorem scaled_mul_neg_iff {a b : Word} (h : scaled a * scaled b ≠ 0) :
    decide (scaled a * scaled b < 0) = (signBit a != signBit b) := by
  have hmag : 0 < (magnitude a : ℤ) * magnitude b := by
    have habs : (scaled a * scaled b).natAbs = magnitude a * magnitude b := by
      rw [Int.natAbs_mul, natAbs_scaled, natAbs_scaled]
    have hpos : 0 < magnitude a * magnitude b := habs ▸ Int.natAbs_pos.mpr h
    exact_mod_cast hpos
  cases ha : signBit a <;> cases hb : signBit b <;> simp [scaled, ha, hb] <;> omega

end Sys2Proof.Machine
end

section
/-! PROOFS. `roundMag`, the integer rounding of the datapath, is `b32` of the exact real value (R13). -/

namespace Sys2Proof.Machine

/-- The bits of an integer that lie below the last place of the result, as `roundMag` drops them. -/
def dropBits (n sh : Nat) : Nat := max (Nat.log2 n + 1 - 24) sh

/-- The quotient by a power of two, rounded to nearest, ties to even, as `roundMag` rounds it. -/
def roundShift (n drop : Nat) : Nat :=
  n / 2 ^ drop +
    if 2 * (n % 2 ^ drop) > 2 ^ drop ∨ (2 * (n % 2 ^ drop) = 2 ^ drop ∧ n / 2 ^ drop % 2 = 1) then 1 else 0

theorem roundMag_eq (n sh : Nat) :
    roundMag n sh = min ((dropBits n sh - sh) * 2 ^ 23 + roundShift n (dropBits n sh)) 0x7F800000 := by
  rw [roundShift, ← Nat.add_assoc]
  rfl

@[simp] theorem roundMag_zero (sh : Nat) : roundMag 0 sh = 0 := by
  simp [roundMag]

/-- The fractional part of a quotient of naturals is the remainder over the divisor. -/
theorem div_sub_floor (n k : ℕ) (hk : 0 < k) : (n : ℝ) / k - (n / k : ℕ) = (n % k : ℕ) / k := by
  have hk' : (k : ℝ) ≠ 0 := by exact_mod_cast hk.ne'
  have hsplit : (n : ℝ) = k * (n / k : ℕ) + (n % k : ℕ) := by exact_mod_cast (Nat.div_add_mod n k).symm
  rw [eq_div_iff hk', sub_mul, div_mul_cancel₀ _ hk']
  linarith

/-- The real tie rule of `b32` is the integer one. -/
theorem roundHalfEven_div_two_pow (n drop : ℕ) : roundHalfEven ((n : ℝ) / 2 ^ drop) = roundShift n drop := by
  have hk : 0 < 2 ^ drop := by positivity
  have hk' : (0 : ℝ) < ((2 ^ drop : ℕ) : ℝ) := by exact_mod_cast hk
  have habove : (1 : ℝ) / 2 < (n % 2 ^ drop : ℕ) / (2 ^ drop : ℕ) ↔ 2 ^ drop < 2 * (n % 2 ^ drop) := by
    rw [div_lt_div_iff₀ two_pos hk', one_mul, mul_comm]
    exact_mod_cast Iff.rfl
  have htie : ((n % 2 ^ drop : ℕ) : ℝ) / (2 ^ drop : ℕ) = 1 / 2 ↔ 2 * (n % 2 ^ drop) = 2 ^ drop := by
    rw [div_eq_div_iff hk'.ne' two_ne_zero, one_mul, mul_comm]
    exact_mod_cast Iff.rfl
  have hcast : (n : ℝ) / 2 ^ drop = (n : ℝ) / (2 ^ drop : ℕ) := by push_cast; rfl
  rw [hcast, roundHalfEven, roundShift, Nat.floor_div_eq_div, div_sub_floor n _ hk]
  simp only [gt_iff_lt, habove, htie]
  split <;> rfl

/-- The logarithm of R13 moves with the power of two of the scale. -/
theorem log_mul_two_zpow {x : ℝ} (hx : 0 < x) (k : ℤ) : Int.log 2 (x * 2 ^ k) = Int.log 2 x + k := by
  have hpow : (0 : ℝ) < 2 ^ k := by positivity
  refine eq_of_forall_le_iff fun c => ?_
  calc c ≤ Int.log 2 (x * 2 ^ k)
      ↔ (2 : ℝ) ^ c ≤ x * 2 ^ k := (Int.zpow_le_iff_le_log one_lt_two (mul_pos hx hpow)).symm
    _ ↔ (2 : ℝ) ^ (c - k) ≤ x := by rw [zpow_sub₀ two_ne_zero, div_le_iff₀ hpow]
    _ ↔ c - k ≤ Int.log 2 x := Int.zpow_le_iff_le_log one_lt_two hx
    _ ↔ c ≤ Int.log 2 x + k := sub_le_iff_le_add

/-- The last place of the magnitude `n · 2^-(149 + sh)` lies `dropBits` above the last bit of `n`. -/
theorem lastPlace_dyadic {n : ℕ} (hn : n ≠ 0) (sh : ℕ) :
    lastPlace ((n : ℝ) * 2 ^ (-(149 + sh : ℤ))) = dropBits n sh - sh - 149 := by
  have hpos : (0 : ℝ) < n := by exact_mod_cast Nat.pos_of_ne_zero hn
  rw [lastPlace, log_mul_two_zpow hpos, Int.log_natCast, ← Nat.log2_eq_log_two, dropBits]
  omega

/-- `roundMag n sh` is the magnitude of `b32` at n · 2^-(149 + sh). -/
theorem realMag_dyadic {n : ℕ} (hn : n ≠ 0) (sh : ℕ) :
    realMag ((n : ℝ) * 2 ^ (-(149 + sh : ℤ))) = roundMag n sh := by
  have hne : (n : ℝ) * 2 ^ (-(149 + sh : ℤ)) ≠ 0 := by positivity
  have hplace : ((dropBits n sh : ℤ) - sh - 149 + 149).toNat = dropBits n sh - sh := by omega
  have hquot : (n : ℝ) * 2 ^ (-(149 + sh : ℤ)) / 2 ^ ((dropBits n sh : ℤ) - sh - 149) =
      n / 2 ^ dropBits n sh := by
    rw [mul_div_assoc, ← zpow_sub₀ two_ne_zero, div_eq_mul_inv, ← zpow_natCast, ← zpow_neg]
    congr 2
    ring
  rw [realMag, if_neg hne, lastPlace_dyadic hn, hplace, hquot, roundHalfEven_div_two_pow, roundMag_eq]

/-- `b32` of an exact result of the datapath, `z` in units of 2^-(149 + sh). -/
theorem b32_dyadic {z : ℤ} (hz : z ≠ 0) (sh : ℕ) :
    b32 ((z : ℝ) * 2 ^ (-(149 + sh : ℤ))) = pack (decide (z < 0)) (roundMag z.natAbs sh) := by
  have hpow : (0 : ℝ) < 2 ^ (-(149 + sh : ℤ)) := by positivity
  have hsign : (z : ℝ) * 2 ^ (-(149 + sh : ℤ)) < 0 ↔ z < 0 := by
    rw [← zero_mul ((2 : ℝ) ^ (-(149 + sh : ℤ))), mul_lt_mul_iff_left₀ hpow, Int.cast_lt_zero]
  have habs : |(z : ℝ) * 2 ^ (-(149 + sh : ℤ))| = (z.natAbs : ℝ) * 2 ^ (-(149 + sh : ℤ)) := by
    rw [abs_mul, abs_of_pos hpow, Nat.cast_natAbs, Int.cast_abs]
  rw [b32, habs, realMag_dyadic (Int.natAbs_ne_zero.mpr hz)]
  simp only [hsign]

end Sys2Proof.Machine
end

section
/-! PROOFS. The datapath operations (R15): one equation for each case of `addFlushed` and `mulFlushed`, then the two
statements about the datapath. -/

namespace Sys2Proof.Machine

/-! The sum of two flushed operands. -/

theorem addFlushed_of_nan (d : Denorm) (n : Nat) {a b : Word} (h : isNaN a = true ∨ isNaN b = true) :
    addFlushed d n a b = nanDraw n := by
  rcases h with h | h <;> simp [addFlushed, h]

theorem addFlushed_inf_opposite (d : Denorm) (n : Nat) {a b : Word} (ha : isInf a = true) (hb : isInf b = true)
    (hs : signBit a ≠ signBit b) : addFlushed d n a b = nanDraw n := by
  simp [addFlushed, ha, hb, hs]

theorem addFlushed_inf_left (d : Denorm) (n : Nat) {a b : Word} (ha : isInf a = true) (hb : isFinite b = true) :
    addFlushed d n a b = a := by
  simp [addFlushed, ha, isNaN_of_isInf ha, isNaN_of_isFinite hb, isInf_of_isFinite hb]

theorem addFlushed_inf_right (d : Denorm) (n : Nat) {a b : Word} (ha : isFinite a = true) (hb : isInf b = true) :
    addFlushed d n a b = b := by
  simp [addFlushed, hb, isNaN_of_isInf hb, isNaN_of_isFinite ha, isInf_of_isFinite ha]

theorem addFlushed_finite (d : Denorm) (n : Nat) {a b : Word} (ha : isFinite a = true) (hb : isFinite b = true) :
    addFlushed d n a b =
      if scaled a + scaled b = 0 then pack (signBit a && signBit b) 0
      else flush d (pack (decide (scaled a + scaled b < 0)) (roundMag (scaled a + scaled b).natAbs 0)) := by
  simp [addFlushed, isNaN_of_isFinite ha, isNaN_of_isFinite hb, isInf_of_isFinite ha, isInf_of_isFinite hb]

/-- R15 steps 4 and 5: an exact sum that is not zero is rounded once and flushed. -/
theorem addFlushed_eq_b32 (d : Denorm) (n : Nat) {a b : Word} (ha : isFinite a = true) (hb : isFinite b = true)
    (h : valReal a + valReal b ≠ 0) : addFlushed d n a b = flush d (b32 (valReal a + valReal b)) := by
  rw [valReal_add] at h ⊢
  have hsum : scaled a + scaled b ≠ 0 := by exact_mod_cast left_ne_zero_of_mul h
  rw [addFlushed_finite d n ha hb, if_neg hsum, ← b32_dyadic hsum 0]
  norm_num

theorem addFlushed_exact_zero (d : Denorm) (n : Nat) {a b : Word} (ha : isFinite a = true) (hb : isFinite b = true)
    (h : valReal a + valReal b = 0) : addFlushed d n a b = pack (signBit a && signBit b) 0 := by
  have hsum : scaled a + scaled b = 0 := by
    rw [valReal_add] at h
    exact_mod_cast (mul_eq_zero.mp h).resolve_right (by positivity)
  rw [addFlushed_finite d n ha hb, if_pos hsum]

/-- A sum is a NaN draw, an infinite operand, an exact zero or a flushed word (R15 steps 2 to 5). -/
theorem isSubnormal_addFlushed_ftzDaz (n : Nat) (a b : Word) : isSubnormal (addFlushed .ftzDaz n a b) = false := by
  unfold addFlushed
  split_ifs with hnan hinfa hinfb hzero
  · exact isSubnormal_of_isNaN (isNaN_nanDraw n)
  · exact isSubnormal_of_isInf hinfa
  · exact isSubnormal_of_isInf hinfb
  · exact isSubnormal_pack_zero _
  · exact isSubnormal_flush_ftzDaz _

/-! The product of two flushed operands. -/

theorem mulFlushed_of_nan (d : Denorm) (n : Nat) {a b : Word} (h : isNaN a = true ∨ isNaN b = true) :
    mulFlushed d n a b = nanDraw n := by
  rcases h with h | h <;> simp [mulFlushed, h]

theorem mulFlushed_inf_zero (d : Denorm) (n : Nat) {a b : Word} (ha : isInf a = true) (hb : isZero b = true) :
    mulFlushed d n a b = nanDraw n := by
  simp [mulFlushed, ha, hb]

theorem mulFlushed_zero_inf (d : Denorm) (n : Nat) {a b : Word} (ha : isZero a = true) (hb : isInf b = true) :
    mulFlushed d n a b = nanDraw n := by
  simp [mulFlushed, ha, hb]

theorem mulFlushed_inf_left (d : Denorm) (n : Nat) {a b : Word} (ha : isInf a = true) (hnan : isNaN b = false)
    (hzero : isZero b = false) : mulFlushed d n a b = pack (signBit a != signBit b) 0x7F800000 := by
  simp [mulFlushed, ha, hnan, hzero, isNaN_of_isInf ha, isZero_of_isInf ha]

theorem mulFlushed_finite (d : Denorm) (n : Nat) {a b : Word} (ha : isFinite a = true) (hb : isFinite b = true) :
    mulFlushed d n a b = flush d (pack (signBit a != signBit b) (roundMag (magnitude a * magnitude b) 149)) := by
  simp [mulFlushed, isNaN_of_isFinite ha, isNaN_of_isFinite hb, isInf_of_isFinite ha, isInf_of_isFinite hb]

theorem mulFlushed_zero_left (d : Denorm) (n : Nat) {a b : Word} (ha : isZero a = true) (hb : isFinite b = true) :
    mulFlushed d n a b = pack (signBit a != signBit b) 0 := by
  rw [mulFlushed_finite d n (isFinite_of_isZero ha) hb, magnitude_of_isZero ha, Nat.zero_mul, roundMag_zero,
    flush_pack_zero]

/-- R15 steps 4 and 5: an exact product that is not zero is rounded once and flushed. -/
theorem mulFlushed_eq_b32 (d : Denorm) (n : Nat) {a b : Word} (ha : isFinite a = true) (hb : isFinite b = true)
    (h : valReal a * valReal b ≠ 0) : mulFlushed d n a b = flush d (b32 (valReal a * valReal b)) := by
  rw [valReal_mul] at h ⊢
  have hprod : scaled a * scaled b ≠ 0 := by exact_mod_cast left_ne_zero_of_mul h
  have hb32 := b32_dyadic hprod 149
  rw [scaled_mul_neg_iff hprod, Int.natAbs_mul, natAbs_scaled, natAbs_scaled] at hb32
  rw [mulFlushed_finite d n ha hb, ← hb32]
  norm_num

/-- A product is a NaN draw, an infinity or a flushed word (R15 steps 2 to 5). -/
theorem isSubnormal_mulFlushed_ftzDaz (n : Nat) (a b : Word) : isSubnormal (mulFlushed .ftzDaz n a b) = false := by
  unfold mulFlushed
  split_ifs with hnan hinf
  · exact isSubnormal_of_isNaN (isNaN_nanDraw n)
  · exact isSubnormal_of_isInf (isInf_pack_inf _)
  · exact isSubnormal_flush_ftzDaz _

/-! `fsub`. -/

/-- R15: subtraction is addition of the flushed operand with its sign flipped. -/
theorem fsub_eq_addFlushed (d : Denorm) (n : Nat) (a b : Word) :
    fsub d n a b = addFlushed d n (flush d a) (fneg (flush d b)) := by
  rw [fsub, fadd, flush_fneg]

/-- Exact cancellation: x - x is +0 for every finite x. -/
theorem fsub_self (d : Denorm) (n : Nat) {a : Word} (ha : isFinite a = true) : fsub d n a a = 0#32 := by
  have hcancel : valReal (flush d a) + valReal (fneg (flush d a)) = 0 := by rw [valReal_fneg, add_neg_cancel]
  rw [fsub_eq_addFlushed, addFlushed_exact_zero d n (by simpa using ha) (by simpa using ha) hcancel, pack_zero]
  simp

/-- Under FTZ_DAZ a subnormal operand and the zero of its sign are flushed to one word (R15 step 1). -/
theorem flush_subnormal_eq_flush_zero {a : Word} (h : isSubnormal a = true) :
    flush .ftzDaz a = flush .ftzDaz (if signBit a then 0x80000000#32 else 0#32) := by
  rw [flush_ftzDaz_of_subnormal h, ← pack_zero, flush_pack_zero]

/-! The statements. -/

/-- Settles O41: the datapath's integers are whole multiples of a power of two, on which `b32` is `roundMag`
(`b32_dyadic`). -/
theorem datapathIsCorrectlyRounded : Obligations.DatapathIsCorrectlyRounded := by
  refine ⟨fun w => ⟨rfl, ?_⟩, fun d n a b ha hb => ?_⟩
  · rw [flush, pack_zero]
  have ha' : isFinite (flush d a) = true := by rwa [isFinite_flush]
  have hb' : isFinite (flush d b) = true := by rwa [isFinite_flush]
  refine ⟨addFlushed_eq_b32 d n ha' hb', fun h => ?_, mulFlushed_eq_b32 d n ha' hb', fun h => ?_, fsub_self d n ha⟩
  · rw [sub_eq_add_neg, ← valReal_fneg] at h ⊢
    rw [fsub_eq_addFlushed]
    exact addFlushed_eq_b32 d n ha' (by rwa [isFinite_fneg]) h
  · rw [fadd, addFlushed_exact_zero d n ha' hb' h, pack_zero, signBit_flush, signBit_flush]

/-- Settles O42, clause by clause from the equations of `addFlushed` and `mulFlushed`. -/
theorem datapathSpecialCases : Obligations.DatapathSpecialCases := by
  intro d n a b
  refine ⟨fun h => ?nan, fun ha hb hs => ?infMinusInf, fun ha hb => ?infPlusFinite, fun ha hb => ?infTimesZero,
    fun ha hnan hzero hsub => ?infTimesNonzero, fun ha hb => ?zeroPlusZero, fun ha hb => ?zeroTimesFinite,
    isSubnormal_addFlushed_ftzDaz n _ _, isSubnormal_mulFlushed_ftzDaz n _ _, fun ha => ?subnormalOperand⟩
  case nan =>
    have hflush := h.imp (isNaN_flush d) (isNaN_flush d)
    rw [fadd, fmul, addFlushed_of_nan d n hflush, mulFlushed_of_nan d n hflush]
    exact ⟨isNaN_nanDraw n, isNaN_nanDraw n⟩
  case infMinusInf =>
    rw [fadd, flush_of_isInf d ha, flush_of_isInf d hb, addFlushed_inf_opposite d n ha hb hs, isNaN_nanDraw]
  case infPlusFinite =>
    have hb' : isFinite (flush d b) = true := by rwa [isFinite_flush]
    rw [fadd, fadd, flush_of_isInf d ha]
    exact ⟨addFlushed_inf_left d n ha hb', addFlushed_inf_right d n hb' ha⟩
  case infTimesZero =>
    rw [fmul, fmul, flush_of_isInf d ha, flush_of_isZero d hb, mulFlushed_inf_zero d n ha hb,
      mulFlushed_zero_inf d n hb ha]
    exact ⟨isNaN_nanDraw n, isNaN_nanDraw n⟩
  case infTimesNonzero =>
    rw [fmul, flush_of_isInf d ha, flush_of_not_subnormal d hsub, mulFlushed_inf_left d n ha hnan hzero]
    exact ⟨isInf_pack_inf _, signBit_pack_inf _⟩
  case zeroPlusZero =>
    rw [fadd, flush_of_isZero d ha, flush_of_isZero d hb,
      addFlushed_finite d n (isFinite_of_isZero ha) (isFinite_of_isZero hb),
      if_pos (by rw [scaled_of_isZero ha, scaled_of_isZero hb, add_zero]), pack_zero]
  case zeroTimesFinite =>
    rw [fmul, flush_of_isZero d ha, mulFlushed_zero_left d n ha (by rwa [isFinite_flush]), signBit_flush, pack_zero]
  case subnormalOperand =>
    rw [fadd, fadd, fmul, fmul, ← flush_subnormal_eq_flush_zero ha]
    exact ⟨rfl, rfl⟩

end Sys2Proof.Machine
end

section
/-! What a transaction can do, said once by its row (R83, R112): `Effect`, and that `exec` gives no other. -/

namespace Sys2Proof.Machine

theorem decodeWrite_ne_wr (off : BitVec 16) (d : Word) (off' : BitVec 16) (d' : Word) :
    decodeWrite off d ≠ .wr off' d' := by
  unfold decodeWrite
  cases locate off with
  | none => nofun
  | some a =>
    cases a
    case cmd =>
      simp only [decodeCmd]
      split_ifs <;> nofun
    case staged r => cases r <;> nofun
    all_goals nofun

/-- What a transaction can do, by the row it resolves to: the effects that a statement tells apart carry their row, the
others any row. -/
inductive Effect (s : State) : Instr → State → Prop
  /-- RD, an ignored write or NOP: only a response. -/
  | answered (i : Instr) (a : Resp) : Effect s i (respond a s)
  /-- An illegal request or a reserved command: its sticky bit and a response. -/
  | rejected (i : Instr) (e : ErrorBit) (a : Resp) : Effect s i (respond a (raise e s))
  | ctrl (d : Word) : Effect s (.wrCtrl d) (ack (storeCtrl d s))
  | status (d : Word) : Effect s (.wrStatus d) (ack (storeStatus d s))
  | setting (i : Instr) (r : Setting) (d : Word) : Effect s i (ack (storeSetting r d s))
  | floor (d : Word) : Effect s (.wrFloorDb d) (ack (storeFloor d s))
  | mode (d : Word) : Effect s (.wrMode d) (ack (storeMode d s))
  | commit : Effect s .commit (ack (commitSettings s))
  | prepare : Effect s .prepare (ack (prepareStream s))
  | acquire (i : Instr) (c : Channel) : Effect s i (ack (acquire c s))
  | softReset : Effect s .softReset (ack (resetEvent s))
  /-- FRAME inside a block. -/
  | frame (xl xr : Word) : Effect s (.frame xl xr) (processFrame xl xr s)
  /-- FRAME outside a block. -/
  | strayFrame (xl xr : Word) : Effect s (.frame xl xr) (processFrame xl xr (raise .protoErr (openBlock s)))
  /-- BEGIN outside a block. -/
  | beginBlock : Effect s .beginBlock (openBlock s)
  /-- BEGIN inside a block. -/
  | strayBegin : Effect s .beginBlock (openBlock (raise .protoErr (closeBlock s)))
  /-- END inside a block. -/
  | endBlock : Effect s .endBlock (closeBlock s)
  /-- END outside a block, or a reserved beat. -/
  | strayBeat (i : Instr) : Effect s i (raise .protoErr s)

/-- A transaction that is no general WR has an effect of its row. -/
theorem effect_of_row {i : Instr} (s : State) (hi : ∀ off d, i ≠ .wr off d) :
    ∃ t, exec i s = .next t ∧ Effect s i t := by
  cases i with
  | wr off d => exact absurd rfl (hi off d)
  | rd off =>
    rcases readControl_cases off s with ⟨a, _, h⟩ | ⟨_, h⟩
    · exact ⟨_, congrArg Host.Outcome.next h, .answered _ _⟩
    · exact ⟨_, congrArg Host.Outcome.next h, .rejected _ .busErr _⟩
  | illegalCtl => exact ⟨_, rfl, .rejected _ .busErr _⟩
  | reservedCmd => exact ⟨_, rfl, .rejected _ .cmdErr _⟩
  | wrReadOnly => exact ⟨_, rfl, .answered _ _⟩
  | nop => exact ⟨_, rfl, .answered _ _⟩
  | wrCtrl d => exact ⟨_, rfl, .ctrl d⟩
  | wrStatus d => exact ⟨_, rfl, .status d⟩
  | wrSr d => exact ⟨_, rfl, .setting _ .sr d⟩
  | wrPkFreq d => exact ⟨_, rfl, .setting _ .pkFreq d⟩
  | wrPkGain d => exact ⟨_, rfl, .setting _ .pkGain d⟩
  | wrPkQ d => exact ⟨_, rfl, .setting _ .pkQ d⟩
  | wrLcFreq d => exact ⟨_, rfl, .setting _ .lcFreq d⟩
  | wrHcFreq d => exact ⟨_, rfl, .setting _ .hcFreq d⟩
  | wrFloorDb d => exact ⟨_, rfl, .floor d⟩
  | wrMode d => exact ⟨_, rfl, .mode d⟩
  | commit => exact ⟨_, rfl, .commit⟩
  | prepare => exact ⟨_, rfl, .prepare⟩
  | specAcqL => exact ⟨_, rfl, .acquire _ .L⟩
  | specAcqR => exact ⟨_, rfl, .acquire _ .R⟩
  | softReset => exact ⟨_, rfl, .softReset⟩
  | reservedBeat => exact ⟨_, rfl, .strayBeat _⟩
  | frame xl xr =>
    refine ⟨_, rfl, ?_⟩
    split
    · exact .frame xl xr
    · exact .strayFrame xl xr
  | beginBlock =>
    refine ⟨_, rfl, ?_⟩
    split
    · exact .strayBegin
    · exact .beginBlock
  | endBlock =>
    refine ⟨_, rfl, ?_⟩
    split
    · exact .endBlock
    · exact .strayBeat _

/-- The general WR and the row the decoder answers for its word do the same (R112). -/
theorem exec_resolve (i : Instr) (s : State) : exec i.resolve s = exec i s := by
  cases i
  case wr off d =>
    change exec (decodeWrite off d) s = .next (writeControl off d s)
    rcases writeControl_cases off d s with ⟨a, ha, h⟩ | ⟨ha, h⟩
    · rw [exec_decodeWrite ha, h]
    · rw [h, decodeWrite, ha]
      rfl
  all_goals rfl

theorem resolve_ne_wr (i : Instr) (off : BitVec 16) (d : Word) : i.resolve ≠ .wr off d := by
  cases i
  case wr => exact decodeWrite_ne_wr _ _ off d
  all_goals nofun

/-- All that a transaction can do is an effect of the row it resolves to. -/
theorem effect_of_exec {i : Instr} {s t : State} (h : exec i s = .next t) : Effect s i.resolve t := by
  obtain ⟨u, hu, heff⟩ := effect_of_row s (resolve_ne_wr i)
  rw [exec_resolve, h] at hu
  cases hu
  exact heff

end Sys2Proof.Machine
end

section
/-! The frames of the shared operations and of every transaction: the configuration (R30), the committed settings
(R39, R44) and the sticky bits (R36, R212). -/

namespace Sys2Proof.Machine

/-! The configuration. -/

@[simp] theorem closeBlock_cfg (s : State) : (closeBlock s).cfg = s.cfg := by rw [closeBlock_eq]

@[simp] theorem openBlock_cfg (s : State) : (openBlock s).cfg = s.cfg := by rw [openBlock_eq]

@[simp] theorem frameLane_cfg (c : Channel) (x : Word) (s : State) : (frameLane c x s).2.cfg = s.cfg := by
  simp [frameLane_eq]

@[simp] theorem processFrame_cfg (xl xr : Word) (s : State) : (processFrame xl xr s).cfg = s.cfg := by
  simp [processFrame]

@[simp] theorem acquire_cfg (c : Channel) (s : State) : (acquire c s).cfg = s.cfg := by simp [acquire]

@[simp] theorem anaTurn_cfg (c : Channel) (s : State) : (anaTurn c s).cfg = s.cfg := by
  rcases anaTurn_cases c s with ⟨_, h⟩ | ⟨_, _, h⟩ <;> simp [h]

/-- R30, for a transaction. -/
theorem Effect.cfg {s t : State} {i : Instr} (h : Effect s i t) : t.cfg = s.cfg := by
  cases h <;> simp [storeCtrl, storeStatus, storeSetting, storeFloor, storeMode, commitSettings, prepareStream]

/-! The committed settings. -/

@[simp] theorem closeBlock_committed (s : State) : (closeBlock s).committed = s.committed := by rw [closeBlock_eq]

@[simp] theorem openBlock_committed (s : State) : (openBlock s).committed = s.committed := by rw [openBlock_eq]

@[simp] theorem frameLane_committed (c : Channel) (x : Word) (s : State) :
    (frameLane c x s).2.committed = s.committed := by
  simp [frameLane_eq]

@[simp] theorem processFrame_committed (xl xr : Word) (s : State) :
    (processFrame xl xr s).committed = s.committed := by
  simp [processFrame]

@[simp] theorem acquire_committed (c : Channel) (s : State) : (acquire c s).committed = s.committed := by
  simp [acquire]

/-- Who changes the committed settings, and to what (R39, R44). -/
theorem Effect.committed {s t : State} {i : Instr} (h : Effect s i t) :
    t.committed = s.committed ∨ ((i = .commit ∨ i = .prepare) ∧ t.committed = s.staged) ∨
      (i = .softReset ∧ t.committed = Settings.reset) := by
  cases h with
  | commit => exact .inr (.inl ⟨.inl rfl, rfl⟩)
  | prepare => exact .inr (.inl ⟨.inr rfl, rfl⟩)
  | softReset => exact .inr (.inr ⟨rfl, rfl⟩)
  | _ => left; simp [storeCtrl, storeStatus, storeSetting, storeFloor, storeMode]

/-! The sticky bits: what sets bits only sets them. -/

theorem Sticky.get_set_of_get {f : Sticky} {e : ErrorBit} (h : f.get e = true) (d : ErrorBit) :
    (f.set d).get e = true := by
  rw [Sticky.get_set, h, Bool.true_or]

theorem Sticky.get_refresh_of_get {f : Sticky} {e : ErrorBit} (h : f.get e = true) (k : Settings) :
    (f.refresh k).get e = true := by
  rcases e with _ | _ | _ | ⟨_ | _⟩ | _ | _ | _ <;> simp_all [Sticky.refresh, Sticky.get]

@[simp] theorem closeBlock_sticky (s : State) : (closeBlock s).sticky = s.sticky := by rw [closeBlock_eq]

@[simp] theorem acquire_sticky (c : Channel) (s : State) : (acquire c s).sticky = s.sticky := by simp [acquire]

@[simp] theorem anaTurn_sticky (c : Channel) (s : State) : (anaTurn c s).sticky = s.sticky := by
  rcases anaTurn_cases c s with ⟨_, h⟩ | ⟨_, _, h⟩ <;> simp [h]

section
variable {s : State} {e : ErrorBit}

theorem openBlock_sticky_of_get (h : s.sticky.get e = true) : (openBlock s).sticky.get e = true := by
  rw [openBlock_eq]
  change (if s.dirty then s.sticky.refresh s.committed else s.sticky).get e = true
  split
  · exact Sticky.get_refresh_of_get h _
  · exact h

theorem frameLane_sticky_of_get (h : s.sticky.get e = true) (c : Channel) (x : Word) :
    (frameLane c x s).2.sticky.get e = true := by
  rw [frameLane_eq]
  change (if (s.chan c).fifo.overruns s.cfg then s.sticky.set (.ovr c) else s.sticky).get e = true
  split
  · exact Sticky.get_set_of_get h _
  · exact h

theorem processFrame_sticky_of_get (h : s.sticky.get e = true) (xl xr : Word) :
    (processFrame xl xr s).sticky.get e = true :=
  frameLane_sticky_of_get (frameLane_sticky_of_get h .L xl) .R xr

/-- PREPARE clears no sticky bit but OVR_L and OVR_R (R121). -/
theorem prepareStream_sticky_of_get (h : s.sticky.get e = true) :
    (prepareStream s).sticky.get e = true ∨ ∃ c, e = .ovr c := by
  cases e with
  | ovr c => exact .inr ⟨c, rfl⟩
  | _ => exact .inl h

/-- A sticky bit that is 1 stays 1 but for the three ways R36 and R212 name. -/
theorem Effect.sticky {t : State} {i : Instr} (heff : Effect s i t) (h : s.sticky.get e = true) :
    t.sticky.get e = true ∨ (∃ d : Word, i = .wrStatus d ∧ d.getLsbD e.code = true) ∨
      (i = .prepare ∧ ∃ c, e = .ovr c) ∨ i = .softReset := by
  cases heff with
  | status d =>
    cases hd : d.getLsbD e.code with
    | true => exact .inr (.inl ⟨d, rfl, hd⟩)
    | false => exact .inl (by simp [storeStatus, Sticky.get_writeOneToClear, h, hd])
  | prepare =>
    rcases prepareStream_sticky_of_get h with hkeep | hovr
    · exact .inl hkeep
    · exact .inr (.inr (.inl ⟨rfl, hovr⟩))
  | softReset => exact .inr (.inr (.inr rfl))
  | rejected => exact .inl (Sticky.get_set_of_get h _)
  | frame => exact .inl (processFrame_sticky_of_get h _ _)
  | strayFrame => exact .inl (processFrame_sticky_of_get (Sticky.get_set_of_get (openBlock_sticky_of_get h) _) _ _)
  | beginBlock => exact .inl (openBlock_sticky_of_get h)
  | strayBegin =>
    exact .inl (openBlock_sticky_of_get (Sticky.get_set_of_get (by rwa [closeBlock_sticky]) _))
  | strayBeat => exact .inl (Sticky.get_set_of_get h _)
  | _ => exact .inl (by simpa [storeCtrl, storeSetting, storeFloor, storeMode, commitSettings] using h)

end

/-! Steps. -/

/-- What every agent's turn keeps, and what does not depend on the ports and the schedule, every step keeps (R83). -/
theorem step_keeps {P : State → Prop}
    (ports : ∀ (s : State) ci ai ts n, P s → P { s with ctrlIn := ci, audioIn := ai, sched := ts, draws := n })
    (transaction : ∀ (i : Instr) (s t : State), Effect s i t → P s → P t)
    (analyzer : ∀ c s, P s → P (anaTurn c s)) (reset : ∀ s, P s → P (resetEvent s))
    {s t : State} (hs : P s) (h : step s = .next t) : P t := by
  have hstart : P (nextTurn s).2 := by
    rcases nextTurn_cases s with ⟨_, ts, _, hn⟩ | ⟨_, hn⟩ <;> rw [hn]
    · exact ports s s.ctrlIn s.audioIn ts s.draws hs
    · exact ports s s.ctrlIn s.audioIn s.sched (s.draws + 1) hs
  rcases step_cases s with ⟨_, hstep⟩ | ⟨_, hstep⟩ <;> rw [hstep] at h
  · cases h
  generalize (nextTurn s).2 = u at h hstart
  cases hturn : (nextTurn s).1 <;> rw [hturn] at h
  case hostCtrl =>
    rcases ctrlTurn_cases u with ⟨_, hc⟩ | ⟨_, ws, i, _, _, hc⟩ | ⟨_, _, _, _, _, hc⟩ <;>
      rw [takeTurn, hc] at h
    · cases h
      exact hstart
    · exact transaction _ _ _ (effect_of_exec h) (ports u ws u.audioIn u.sched u.draws hstart)
    · cases h
  case hostAudio =>
    rcases audioTurn_cases u with ⟨_, hc⟩ | ⟨_, ws, i, _, _, hc⟩ | ⟨_, _, _, _, _, hc⟩ <;>
      rw [takeTurn, hc] at h
    · cases h
      exact hstart
    · exact transaction _ _ _ (effect_of_exec h) (ports u u.ctrlIn ws u.sched u.draws hstart)
    · cases h
  case ana c =>
    cases h
    exact analyzer c u hstart
  case resetInput =>
    cases h
    exact reset u hstart

/-! The statements. -/

/-- Settles O54: no turn of an agent touches the parameters. -/
theorem configurationNeverChanges : Obligations.ConfigurationNeverChanges := by
  intro s t h
  exact step_keeps (P := fun u => u.cfg = s.cfg) (fun _ _ _ _ _ hs => hs) (fun _ _ _ heff hs => heff.cfg.trans hs)
    (fun c u hs => (anaTurn_cfg c u).trans hs) (fun _ hs => hs) rfl h

/-- Settles O55, by the effects of a transaction; a turn of an analyzer changes no sticky bit. -/
theorem stickyBitsPersist : Obligations.StickyBitsPersist := by
  intro i s t e c hset
  exact ⟨fun h => (effect_of_exec h).sticky hset, by rwa [anaTurn_sticky]⟩

/-- Settles O57, by the effects of a transaction. -/
theorem committedOnlyByCommit : Obligations.CommittedOnlyByCommit :=
  fun _ _ _ h => (effect_of_exec h).committed

end Sys2Proof.Machine
end

section
/-! The invariant of the reachable states (R49, R51, R52, R53, R136, R137, R167, R205), part by part: every
operation on a FIFO, an analyzer and a spectrum output keeps its part, and every step keeps the whole. -/

namespace Sys2Proof.Machine

/-! The FIFO. -/

/-- `Fifo.inv` with its conjuncts named. -/
structure Fifo.Inv (f : Fifo) (p : Params) : Prop where
  occ_le : f.occ.toNat ≤ p.fifoCap
  wp_lt : f.wp < p.fifoCap
  rp_lt : f.rp < p.fifoCap
  wp_eq : (f.rp + f.occ.toNat) % p.fifoCap = f.wp
  k_lt : f.k < p.fifoBlock
  ring_canonical : f.ring.Canonical
  ring_below : ∀ x ∈ f.ring, x.1 < p.fifoCap * p.fifoBlock
  acc_canonical : f.acc.Canonical
  acc_below : ∀ x ∈ f.acc, x.1 < p.fifoBlock

theorem Fifo.inv_iff {f : Fifo} {p : Params} : f.inv p = true ↔ f.Inv p := by
  simp only [Fifo.inv, Bool.and_eq_true, decide_eq_true_eq, Memory.wf_iff, Memory.below_iff]
  constructor
  · rintro ⟨⟨⟨⟨⟨⟨⟨⟨occ, wp⟩, rp⟩, eq⟩, k⟩, rc⟩, rb⟩, ac⟩, ab⟩
    exact ⟨occ, wp, rp, eq, k, rc, rb, ac, ab⟩
  · rintro ⟨occ, wp, rp, eq, k, rc, rb, ac, ab⟩
    exact ⟨⟨⟨⟨⟨⟨⟨⟨occ, wp⟩, rp⟩, eq⟩, k⟩, rc⟩, rb⟩, ac⟩, ab⟩

/-- The ranges of R10. -/
theorem legal_iff {p : Params} :
    p.legal = true ↔
      3 ≤ p.fftOrder ∧ p.fftOrder ≤ 12 ∧ 1 ≤ p.fifoBlock ∧ p.fifoBlock ≤ p.fftSize ∧ p.fifoBlock ≤ 65535 ∧
      1 ≤ p.fifoCap ∧ p.fifoCap ≤ 255 ∧ 1 ≤ p.hopBlocks ∧ p.hopBlocks ≤ 65535 := by
  simp [Params.legal, and_assoc]

theorem Fifo.full_iff {f : Fifo} {p : Params} (hp : p.legal = true) : f.full p = true ↔ f.occ.toNat = p.fifoCap := by
  obtain ⟨-, -, -, -, -, -, hcap, -, -⟩ := legal_iff.1 hp
  rw [Fifo.full, beq_iff_eq]
  constructor
  · intro h
    rw [h, BitVec.toNat_ofNat]
    omega
  · intro h
    rw [← h, BitVec.ofNat_toNat, BitVec.setWidth_eq]

/-- Retiring a block takes one off the count of a FIFO that is not empty. -/
theorem Fifo.toNat_occ_retire {f : Fifo} (p : Params) (h : f.w ≠ f.r) :
    (f.retire p).occ.toNat + 1 = f.occ.toNat := by
  simp only [Fifo.occ, Fifo.retire, wrapInc]
  bv_omega

/-- A pop leaves the invariant (R171). -/
theorem Fifo.Inv.retire {f : Fifo} {p : Params} (h : f.Inv p) (hne : f.w ≠ f.r) : (f.retire p).Inv p := by
  have hocc := Fifo.toNat_occ_retire p hne
  have hcap : 0 < p.fifoCap := Nat.zero_lt_of_lt h.wp_lt
  exact {
    occ_le := by have := h.occ_le; omega
    wp_lt := h.wp_lt
    rp_lt := Nat.mod_lt _ hcap
    wp_eq := by
      change ((f.rp + 1) % p.fifoCap + (f.retire p).occ.toNat) % p.fifoCap = f.wp
      rw [Nat.mod_add_mod, ← h.wp_eq, ← hocc]
      congr 1
      omega
    k_lt := h.k_lt
    ring_canonical := h.ring_canonical
    ring_below := h.ring_below
    acc_canonical := h.acc_canonical
    acc_below := h.acc_below }

theorem Fifo.full_retire {f : Fifo} {p : Params} (h : f.full p = true) : (f.retire p).full p = false := by
  rw [Fifo.full, beq_iff_eq] at h
  rw [Fifo.full, beq_eq_false_iff_ne, ← h]
  simp only [Fifo.occ, Fifo.retire, wrapInc]
  bv_omega

/-- A push to a full FIFO retires the oldest block, counts it, and is then a push where there is room. -/
theorem Fifo.push_of_full {f : Fifo} {p : Params} (h : f.full p = true) (blk : List Word) :
    f.push p blk = { f.retire p with ovr := wrapInc f.ovr }.push p blk := by
  have hroom : Fifo.full { f.retire p with ovr := wrapInc f.ovr } p = false := Fifo.full_retire h
  rw [Fifo.push_eq, Fifo.push_eq, hroom, h]
  rfl

/-- A push where there is room leaves the invariant (R169). -/
theorem Fifo.Inv.push_of_room {f : Fifo} {p : Params} (hp : p.legal = true) (h : f.Inv p) (hroom : f.full p = false)
    {blk : List Word} (hlen : blk.length = p.fifoBlock) : (f.push p blk).Inv p := by
  obtain ⟨-, -, -, -, -, -, hcap255, -, -⟩ := legal_iff.1 hp
  have hcap : 0 < p.fifoCap := Nat.zero_lt_of_lt h.wp_lt
  have hlt : f.occ.toNat < p.fifoCap :=
    Nat.lt_of_le_of_ne h.occ_le fun heq => by simp [(Fifo.full_iff hp).2 heq] at hroom
  have hocc : (f.push p blk).occ.toNat = f.occ.toNat + 1 := by
    rw [Fifo.push_eq, hroom]
    simp only [Fifo.occ, wrapInc] at hlt ⊢
    simp only [Bool.false_eq_true, if_false]
    bv_omega
  have hslot : f.wp * p.fifoBlock + blk.length ≤ p.fifoCap * p.fifoBlock := by
    rw [hlen, ← Nat.succ_mul]
    exact Nat.mul_le_mul_right _ h.wp_lt
  have hpush := Fifo.push_eq f p blk
  rw [hroom] at hpush
  exact {
    occ_le := by omega
    wp_lt := by rw [hpush]; exact Nat.mod_lt _ hcap
    rp_lt := by rw [hpush]; exact h.rp_lt
    wp_eq := by
      rw [hocc, hpush]
      change (f.rp + (f.occ.toNat + 1)) % p.fifoCap = (f.wp + 1) % p.fifoCap
      rw [← h.wp_eq, Nat.mod_add_mod, Nat.add_assoc]
    k_lt := by rw [hpush]; exact h.k_lt
    ring_canonical := by rw [hpush]; exact h.ring_canonical.writeAll _ _
    ring_below := by rw [hpush]; exact Memory.below_writeAll h.ring_below hslot
    acc_canonical := by rw [hpush]; exact h.acc_canonical
    acc_below := by rw [hpush]; exact h.acc_below }

theorem Fifo.Inv.set_ovr {f : Fifo} {p : Params} (h : f.Inv p) (n : Word) : Fifo.Inv { f with ovr := n } p := { h with }

/-- A push of one block leaves the invariant, with an overrun or without (R169). -/
theorem Fifo.Inv.push {f : Fifo} {p : Params} (hp : p.legal = true) (h : f.Inv p) {blk : List Word}
    (hlen : blk.length = p.fifoBlock) : (f.push p blk).Inv p := by
  cases hfull : f.full p with
  | false => exact h.push_of_room hp hfull hlen
  | true =>
    have hne : f.w ≠ f.r := by
      intro heq
      have hcap := h.wp_lt
      rw [← (Fifo.full_iff hp).1 hfull, Fifo.occ_eq_zero.2 heq] at hcap
      exact absurd hcap (Nat.not_lt_zero _)
    rw [Fifo.push_of_full hfull]
    exact ((h.retire hne).set_ovr (wrapInc f.ovr)).push_of_room hp (Fifo.full_retire hfull) hlen

/-- A sample written to the accumulator leaves the invariant, whatever sample counter below B follows (R168). -/
theorem Fifo.Inv.collect {f : Fifo} {p : Params} (h : f.Inv p) (t : Word) {k : Nat} (hk : k < p.fifoBlock) :
    Fifo.Inv { f.collect t with k := k } p :=
  { h with
    k_lt := hk
    acc_canonical := h.acc_canonical.write _ _
    acc_below := Memory.below_write h.acc_below h.k_lt }

theorem Fifo.Inv.accept {f : Fifo} {p : Params} (hp : p.legal = true) (h : f.Inv p) (t : Word) :
    (f.accept p t).Inv p := by
  have hk := h.k_lt
  rcases Fifo.accept_cases f p t with ⟨_, heq⟩ | ⟨hne, heq⟩ <;> rw [heq]
  · have hpush : { (f.collect t).push p ((f.collect t).acc.readAll 0 p.fifoBlock) with k := 0 } =
        { f.collect t with k := 0 }.push p ((f.collect t).acc.readAll 0 p.fifoBlock) := by
      rw [Fifo.push_eq, Fifo.push_eq]
      rfl
    rw [hpush]
    exact (h.collect t (by omega)).push hp (Memory.length_readAll _ _ _)
  · exact h.collect t (by omega)

/-- The FIFO that PREPARE leaves: empty, with the words of its ring and accumulator (R121, U3). -/
theorem Fifo.Inv.clear {f : Fifo} {p : Params} (h : f.Inv p) :
    Fifo.Inv { f with w := 0#32, r := 0#32, wp := 0, rp := 0, k := 0, ovr := 0#32 } p :=
  { h with
    occ_le := by simp [Fifo.occ]
    wp_lt := Nat.zero_lt_of_lt h.wp_lt
    rp_lt := Nat.zero_lt_of_lt h.wp_lt
    wp_eq := by simp [Fifo.occ]
    k_lt := Nat.zero_lt_of_lt h.k_lt }

/-! The analyzer and the spectrum output. -/

theorem Analyzer.inv_iff {a : Analyzer} {p : Params} :
    a.inv p = true ↔ a.fresh < p.hopBlocks ∧ a.abuf.Canonical ∧ ∀ x ∈ a.abuf, x.1 < p.fftSize := by
  simp [Analyzer.inv, Memory.wf_iff, Memory.below_iff, and_assoc]

/-- A block shifted into the buffer leaves the invariant, whatever hop count below K follows (R194, R195). -/
theorem Analyzer.inv_shiftIn {a : Analyzer} {p : Params} (h : a.inv p = true) {blk : List Word}
    (hlen : blk.length ≤ p.fftSize) {n : Nat} (hn : n < p.hopBlocks) :
    Analyzer.inv { abuf := shiftIn a.abuf p.fftSize blk, fresh := n } p = true := by
  obtain ⟨-, hcanon, -⟩ := Analyzer.inv_iff.1 h
  exact Analyzer.inv_iff.2
    ⟨hn, shiftIn_canonical hcanon _ _, Memory.below_writeAll (Memory.below_shiftDown _ _ _) (by omega)⟩

theorem Spectrum.inv_iff {o : Spectrum} {p : Params} :
    o.inv p = true ↔ (o.pub.Canonical ∧ ∀ x ∈ o.pub, x.1 < p.bins) ∧ o.acq.Canonical ∧ ∀ x ∈ o.acq, x.1 < p.bins := by
  simp [Spectrum.inv, Memory.wf_iff, Memory.below_iff, and_assoc]

theorem Memory.canonical_nil : Memory.Canonical [] := ⟨.nil, nofun⟩

@[simp] theorem length_spectrum (x : List Word) (f : Word) (n : Nat) : (spectrum x f n).length = n := by
  simp [spectrum]

theorem Spectrum.inv_publish {o : Spectrum} {p : Params} (h : o.inv p = true) {bins : List Word}
    (hlen : bins.length = p.bins) : (o.publish bins).inv p = true := by
  obtain ⟨-, hacq⟩ := Spectrum.inv_iff.1 h
  exact Spectrum.inv_iff.2 ⟨⟨Memory.canonical_nil.writeAll _ _, Memory.below_writeAll nofun (by omega)⟩, hacq⟩

theorem Spectrum.inv_acquire {o : Spectrum} {p : Params} (h : o.inv p = true) : o.acquire.inv p = true := by
  obtain ⟨hpub, -⟩ := Spectrum.inv_iff.1 h
  unfold Spectrum.acquire
  split
  · exact h
  · exact Spectrum.inv_iff.2 ⟨hpub, hpub⟩

theorem Spectrum.inv_cleared (p : Params) :
    Spectrum.inv { gen := 0#32, pub := [], acq := [], acqGen := 0#32, avail := 0#32 } p = true := rfl

/-! The active state: the coefficients and the stage flags (R49, R90). -/

theorem Chan.activeState_eq_iff {x y : Chan} :
    x.activeState = y.activeState ↔
      (∀ i, (x.sec.get i).coef = (y.sec.get i).coef) ∧ x.enLc = y.enLc ∧ x.enHc = y.enHc ∧
      x.bypLc = y.bypLc ∧ x.bypPk = y.bypPk ∧ x.bypHc = y.bypHc := by
  simp [Chan.activeState, List.map_inj_left, SecId.mem_order]

theorem Chan.sameSettings_iff {x y : Chan} : x.sameSettings y = true ↔ x.activeState = y.activeState := by
  simp [Chan.activeState_eq_iff, Chan.sameSettings, SecId.mem_order, and_assoc]

/-- New sections with the old coefficients leave the active state. -/
theorem Chan.activeState_of_coef {x y : Chan} (hsec : ∀ i, (y.sec.get i).coef = (x.sec.get i).coef)
    (hframe : y = { x with sec := y.sec, fifo := y.fifo, ana := y.ana, spec := y.spec }) :
    y.activeState = x.activeState := by
  rw [hframe]
  exact Chan.activeState_eq_iff.2 ⟨hsec, rfl, rfl, rfl, rfl, rfl⟩

@[simp] theorem Chan.coef_snap (x : Chan) (i : SecId) : (x.snap.sec.get i).coef = (x.sec.get i).coef := by
  simp only [Chan.snap, Cascade.get_map]
  split <;> rfl

@[simp] theorem Chan.coef_clearHistory (x : Chan) (i : SecId) :
    (x.clearHistory.sec.get i).coef = (x.sec.get i).coef := by
  simp [Chan.clearHistory]

@[simp] theorem Chan.coef_chain (x : Chan) (d : Denorm) (n : Nat) (w : Word) (i : SecId) :
    ((x.chain d n w).sec.get i).coef = (x.sec.get i).coef :=
  Chan.chain_induction (P := fun a => (a.sec.get i).coef = (x.sec.get i).coef) x d n w rfl
    fun a j h => ((Lane.stage_sec x.active d a j i).1).trans h

@[simp] theorem Chan.activeState_snap (x : Chan) : x.snap.activeState = x.activeState :=
  Chan.activeState_of_coef x.coef_snap rfl

@[simp] theorem Chan.activeState_clearHistory (x : Chan) : x.clearHistory.activeState = x.activeState :=
  Chan.activeState_of_coef x.coef_clearHistory rfl

@[simp] theorem Chan.activeState_analyze (x : Chan) (p : Params) (f : Word) (blk : List Word) (rest : Fifo) :
    (x.analyze p f blk rest).activeState = x.activeState := by
  rcases Chan.analyze_cases x p f blk rest with ⟨_, h⟩ | ⟨_, h⟩ <;> rw [h] <;> rfl

/-- Two cascades with the same coefficients have the same after a stage is refreshed. -/
theorem Cascade.coef_setCoefs_congr {k k' : Cascade} (h : ∀ i, (k.get i).coef = (k'.get i).coef)
    (is : List SecId) (cs : List Coefs) (i : SecId) :
    ((k.setCoefs is cs).get i).coef = ((k'.setCoefs is cs).get i).coef := by
  induction is generalizing k k' cs with
  | nil => exact h i
  | cons j is ih =>
    cases cs with
    | nil => exact h i
    | cons c cs =>
      refine ih (fun i => ?_) cs
      rw [Cascade.get_setCoef_coef, Cascade.get_setCoef_coef, h i]

/-- After a stage is refreshed, a section's coefficients are its old ones or among the new ones. -/
theorem Cascade.coef_setCoefs (k : Cascade) (is : List SecId) (cs : List Coefs) (i : SecId) :
    ((k.setCoefs is cs).get i).coef = (k.get i).coef ∨ ((k.setCoefs is cs).get i).coef ∈ cs := by
  induction is generalizing k cs with
  | nil => exact .inl rfl
  | cons j is ih =>
    cases cs with
    | nil => exact .inl rfl
    | cons c cs =>
      rcases ih (k.setCoef j c) cs with h | h
      · rw [Cascade.setCoefs, h, Cascade.get_setCoef_coef]
        split
        · exact .inr (by simp)
        · exact .inl rfl
      · exact .inr (List.mem_cons_of_mem _ h)

section
variable {x y : Chan} (h : x.activeState = y.activeState) (k : Settings)
include h

theorem Chan.activeState_refreshLc_congr : (x.refreshLc k).activeState = (y.refreshLc k).activeState := by
  obtain ⟨hsec, -, hhc, hbyp⟩ := Chan.activeState_eq_iff.1 h
  unfold Chan.refreshLc
  split
  · exact Chan.activeState_eq_iff.2 ⟨Cascade.coef_setCoefs_congr hsec _ _, rfl, hhc, hbyp⟩
  · exact h

theorem Chan.activeState_refreshPk_congr : (x.refreshPk k).activeState = (y.refreshPk k).activeState := by
  obtain ⟨hsec, hflags⟩ := Chan.activeState_eq_iff.1 h
  unfold Chan.refreshPk
  split
  · exact Chan.activeState_eq_iff.2 ⟨fun i => by simp only [Cascade.get_setCoef_coef, hsec i], hflags⟩
  · exact h

theorem Chan.activeState_refreshHc_congr : (x.refreshHc k).activeState = (y.refreshHc k).activeState := by
  obtain ⟨hsec, hlc, -, hbyp⟩ := Chan.activeState_eq_iff.1 h
  unfold Chan.refreshHc
  split
  · exact Chan.activeState_eq_iff.2 ⟨Cascade.coef_setCoefs_congr hsec _ _, hlc, rfl, hbyp⟩
  · exact h

/-- A refresh gives two channels that agree the same active state again (R49, R135). -/
theorem Chan.activeState_refresh_congr : (x.refresh k).activeState = (y.refresh k).activeState := by
  have hstages := activeState_refreshHc_congr (activeState_refreshPk_congr (activeState_refreshLc_congr h k) k) k
  obtain ⟨hsec, hlc, hhc, -⟩ := Chan.activeState_eq_iff.1 hstages
  exact Chan.activeState_eq_iff.2 ⟨hsec, hlc, hhc, rfl, rfl, rfl⟩

end

/-! One channel. -/

theorem Chan.inv_iff {x : Chan} {p : Params} :
    x.inv p = true ↔
      (x.fifo.Inv p ∧ x.ana.inv p = true ∧ x.spec.inv p = true) ∧
      (∀ i, coefsFinite (x.sec.get i).coef = true) ∧ enablesLegal x.enLc = true ∧ enablesLegal x.enHc = true := by
  simp [Chan.inv, Fifo.inv_iff, Cascade.coefsFinite, SecId.mem_order, and_assoc]

section
variable {x y : Chan} {p : Params} (h : x.inv p = true)
include h

/-- Where the active state is kept, only the FIFO, the analyzer and the spectrum output are left to check. -/
theorem Chan.inv_of_activeState (hfifo : y.fifo.Inv p) (hana : y.ana.inv p = true) (hspec : y.spec.inv p = true)
    (hact : y.activeState = x.activeState) : y.inv p = true := by
  obtain ⟨-, hfin, hlc, hhc⟩ := Chan.inv_iff.1 h
  obtain ⟨hsec, henLc, henHc, -⟩ := Chan.activeState_eq_iff.1 hact
  exact Chan.inv_iff.2
    ⟨⟨hfifo, hana, hspec⟩, fun i => (hsec i).symm ▸ hfin i, henLc.symm ▸ hlc, henHc.symm ▸ hhc⟩

theorem Chan.inv_snap : x.snap.inv p = true := by
  obtain ⟨⟨hfifo, hana, hspec⟩, -⟩ := Chan.inv_iff.1 h
  exact Chan.inv_of_activeState h hfifo hana hspec x.activeState_snap

theorem Chan.inv_clearHistory (hp : p.legal = true) : x.clearHistory.inv p = true := by
  obtain ⟨⟨hfifo, -, -⟩, -⟩ := Chan.inv_iff.1 h
  obtain ⟨-, -, -, -, -, -, -, hhop, -⟩ := legal_iff.1 hp
  exact Chan.inv_of_activeState h hfifo.clear (Analyzer.inv_iff.2 ⟨hhop, Memory.canonical_nil, nofun⟩)
    (Spectrum.inv_cleared p) x.activeState_clearHistory

theorem Chan.inv_acquire : Chan.inv { x with spec := x.spec.acquire } p = true := by
  obtain ⟨⟨hfifo, hana, hspec⟩, -⟩ := Chan.inv_iff.1 h
  exact Chan.inv_of_activeState h hfifo hana (Spectrum.inv_acquire hspec) rfl

theorem Chan.inv_analyze (hp : p.legal = true) (hne : x.fifo.w ≠ x.fifo.r) (f : Word) {blk : List Word}
    (hlen : blk.length = p.fifoBlock) : (x.analyze p f blk (x.fifo.retire p)).inv p = true := by
  obtain ⟨⟨hfifo, hana, hspec⟩, -⟩ := Chan.inv_iff.1 h
  obtain ⟨-, -, -, hblk, -, -, -, hhop, -⟩ := legal_iff.1 hp
  have hfresh := (Analyzer.inv_iff.1 hana).1
  refine Chan.inv_of_activeState h ?_ ?_ ?_ (x.activeState_analyze _ _ _ _) <;>
    rcases Chan.analyze_cases x p f blk (x.fifo.retire p) with ⟨_, heq⟩ | ⟨hnot, heq⟩ <;> rw [heq]
  · exact hfifo.retire hne
  · exact hfifo.retire hne
  · exact Analyzer.inv_shiftIn hana (by omega) hhop
  · exact Analyzer.inv_shiftIn hana (by omega) (by omega)
  · exact Spectrum.inv_publish hspec (length_spectrum _ _ _)
  · exact hspec

/-- A sample through the cascade and a tap into the FIFO (R154). -/
theorem Chan.inv_chain_accept (hp : p.legal = true) (d : Denorm) (n : Nat) (w t : Word) :
    Chan.inv { x with sec := (x.chain d n w).sec, fifo := x.fifo.accept p t } p = true := by
  obtain ⟨⟨hfifo, hana, hspec⟩, -⟩ := Chan.inv_iff.1 h
  exact Chan.inv_of_activeState h (hfifo.accept hp t) hana hspec (Chan.activeState_of_coef (x.coef_chain d n w) rfl)

end

theorem Chan.inv_reset {p : Params} (hp : p.legal = true) : Chan.reset.inv p = true := by
  obtain ⟨-, -, hblk, -, -, hcap, -, hhop, -⟩ := legal_iff.1 hp
  have hfifo : Chan.reset.fifo.Inv p := {
    occ_le := Nat.zero_le _
    wp_lt := hcap
    rp_lt := hcap
    wp_eq := Nat.zero_mod _
    k_lt := hblk
    ring_canonical := Memory.canonical_nil
    ring_below := nofun
    acc_canonical := Memory.canonical_nil
    acc_below := nofun }
  exact Chan.inv_iff.2
    ⟨⟨hfifo, Analyzer.inv_iff.2 ⟨hhop, Memory.canonical_nil, nofun⟩, Spectrum.inv_cleared p⟩,
      fun i => by cases i <;> decide, by decide, by decide⟩

/-! A refresh leaves the invariant: what CALC answers is used only where it is finite (R136). -/

theorem enablesLegal_slopeEnables (i : BitVec 2) : enablesLegal (slopeEnables i) = true := by
  revert i
  decide

theorem Cascade.coefsFinite_setCoefs {k : Cascade} (hk : ∀ i, Machine.coefsFinite (k.get i).coef = true)
    {cs : List Coefs} (hcs : ∀ c ∈ cs, Machine.coefsFinite c = true) (is : List SecId) (i : SecId) :
    Machine.coefsFinite ((k.setCoefs is cs).get i).coef = true := by
  rcases k.coef_setCoefs is cs i with h | h
  · rw [h]
    exact hk i
  · exact hcs _ h

theorem coefsFinite_of_peakStage {k : Settings} {c : Coefs} (h : peakStage k = some c) : coefsFinite c = true := by
  simp only [peakStage, Bool.and_eq_true] at h
  split at h
  · rename_i hvalid
    obtain rfl := Option.some.inj h
    exact hvalid.2
  · cases h

section
variable {x : Chan} {p : Params} (h : x.inv p = true) (k : Settings)
include h

theorem Chan.inv_refreshLc : (x.refreshLc k).inv p = true := by
  obtain ⟨hparts, hfin, -, hhc⟩ := Chan.inv_iff.1 h
  unfold Chan.refreshLc
  split
  next cf hstage =>
    obtain ⟨-, -, hcf⟩ := cutStage_eq_some hstage
    exact Chan.inv_iff.2 ⟨hparts, Cascade.coefsFinite_setCoefs hfin hcf _, enablesLegal_slopeEnables _, hhc⟩
  next => exact h

theorem Chan.inv_refreshPk : (x.refreshPk k).inv p = true := by
  obtain ⟨hparts, hfin, hen⟩ := Chan.inv_iff.1 h
  unfold Chan.refreshPk
  split
  next c hstage =>
    refine Chan.inv_iff.2 ⟨hparts, fun i => ?_, hen⟩
    rw [Cascade.get_setCoef_coef]
    split
    · exact coefsFinite_of_peakStage hstage
    · exact hfin i
  next => exact h

theorem Chan.inv_refreshHc : (x.refreshHc k).inv p = true := by
  obtain ⟨hparts, hfin, hlc, -⟩ := Chan.inv_iff.1 h
  unfold Chan.refreshHc
  split
  next cf hstage =>
    obtain ⟨-, -, hcf⟩ := cutStage_eq_some hstage
    exact Chan.inv_iff.2 ⟨hparts, Cascade.coefsFinite_setCoefs hfin hcf _, hlc, enablesLegal_slopeEnables _⟩
  next => exact h

theorem Chan.inv_refresh : (x.refresh k).inv p = true :=
  inv_refreshHc (inv_refreshPk (inv_refreshLc h k) k) k

end

/-! The whole state. -/

theorem State.inv_iff {s : State} :
    s.inv = true ↔
      s.cfg.legal = true ∧ (∀ c, (s.chan c).inv s.cfg = true) ∧ s.l.activeState = s.r.activeState := by
  simp only [State.inv, Bool.and_eq_true, Chan.sameSettings_iff, and_assoc]
  refine and_congr_right fun _ => ?_
  rw [← and_assoc]
  exact and_congr_left fun _ => ⟨fun ⟨hl, hr⟩ c => by cases c <;> assumption, fun hc => ⟨hc .L, hc .R⟩⟩

section
variable {s : State} (h : s.inv = true)
include h

/-- Replacing one channel leaves the invariant where the new one has its part and the same active state. -/
theorem State.inv_setChan (c : Channel) {x : Chan} (hx : x.inv s.cfg = true)
    (hact : x.activeState = (s.chan c).activeState) : (s.setChan c x).inv = true := by
  obtain ⟨hlegal, hchan, hsame⟩ := State.inv_iff.1 h
  refine State.inv_iff.2 ⟨by simpa using hlegal, fun d => ?_, ?_⟩
  · rw [State.setChan_cfg, State.chan_setChan]
    split
    · exact hx
    · exact hchan d
  · cases c with
    | L => exact hact.trans hsame
    | R => exact hsame.trans hact.symm

/-- Doing the same to both channels leaves the invariant where it leaves a channel's part, and gives two channels that
agree on the active state the same again. -/
theorem State.inv_of_both {t : State} (f : Chan → Chan) (hcfg : t.cfg = s.cfg) (hl : t.l = f s.l) (hr : t.r = f s.r)
    (hkeep : ∀ x : Chan, s.cfg.legal = true → x.inv s.cfg = true → (f x).inv s.cfg = true)
    (hsame : ∀ x y : Chan, x.activeState = y.activeState → (f x).activeState = (f y).activeState) : t.inv = true := by
  obtain ⟨hlegal, hchan, hact⟩ := State.inv_iff.1 h
  refine State.inv_iff.2 ⟨by rwa [hcfg], fun c => ?_, by rw [hl, hr]; exact hsame _ _ hact⟩
  rw [hcfg]
  cases c with
  | L => rw [State.chan_L, hl]; exact hkeep _ hlegal (hchan .L)
  | R => rw [State.chan_R, hr]; exact hkeep _ hlegal (hchan .R)

theorem inv_closeBlock : (closeBlock s).inv = true := by
  unfold closeBlock
  split
  · exact State.inv_of_both h Chan.snap rfl rfl rfl (fun _ _ hx => Chan.inv_snap hx) fun x y hxy => by simpa using hxy
  · exact h

theorem inv_openBlock : (openBlock s).inv = true := by
  unfold openBlock takeSettings
  split
  · exact State.inv_of_both h (·.refresh s.committed) rfl rfl rfl (fun _ _ hx => Chan.inv_refresh hx _)
      fun _ _ hxy => Chan.activeState_refresh_congr hxy _
  · exact h

theorem inv_prepareStream : (prepareStream s).inv = true :=
  State.inv_of_both h Chan.clearHistory rfl rfl rfl (fun _ hp hx => Chan.inv_clearHistory hx hp)
    fun x y hxy => by simpa using hxy

theorem inv_resetEvent : (resetEvent s).inv = true :=
  State.inv_of_both h (fun _ => Chan.reset) rfl rfl rfl (fun _ hp _ => Chan.inv_reset hp) fun _ _ _ => rfl

theorem inv_acquire (c : Channel) : (acquire c s).inv = true := by
  obtain ⟨-, hchan, -⟩ := State.inv_iff.1 h
  exact State.inv_setChan h c (Chan.inv_acquire (hchan c)) rfl

theorem inv_anaTurn (c : Channel) : (anaTurn c s).inv = true := by
  obtain ⟨hlegal, hchan, -⟩ := State.inv_iff.1 h
  rcases anaTurn_cases c s with ⟨_, hturn⟩ | ⟨_, hne, hturn⟩ <;> rw [hturn]
  · exact h
  · exact State.inv_setChan h c (Chan.inv_analyze (hchan c) hlegal hne _ (Memory.length_readAll _ _ _))
      (Chan.activeState_analyze _ _ _ _ _)

theorem inv_frameLane (c : Channel) (w : Word) : (frameLane c w s).2.inv = true := by
  obtain ⟨hlegal, hchan, -⟩ := State.inv_iff.1 h
  rw [frameLane_eq]
  exact State.inv_setChan h c (Chan.inv_chain_accept (hchan c) hlegal _ _ _ _)
    (Chan.activeState_of_coef (Chan.coef_chain _ _ _ _) rfl)

theorem inv_raise (e : ErrorBit) : (raise e s).inv = true := h

theorem inv_ack : (ack s).inv = true := h

theorem inv_emit_frameCnt (yl yr n : Word) : State.inv { emit yl yr s with frameCnt := n } = true := h

theorem inv_processFrame (xl xr : Word) : (processFrame xl xr s).inv = true :=
  inv_emit_frameCnt (inv_frameLane (inv_frameLane h .L xl) .R xr) _ _ _

/-- Every transaction keeps the invariant. -/
theorem Effect.inv {t : State} {i : Instr} (heff : Effect s i t) : t.inv = true := by
  cases heff with
  | prepare => exact inv_ack (inv_prepareStream h)
  | acquire _ c => exact inv_ack (inv_acquire h c)
  | softReset => exact inv_ack (inv_resetEvent h)
  | frame xl xr => exact inv_processFrame h xl xr
  | strayFrame xl xr => exact inv_processFrame (inv_raise (inv_openBlock h) _) xl xr
  | beginBlock => exact inv_openBlock h
  | strayBegin => exact inv_openBlock (inv_raise (inv_closeBlock h) _)
  | endBlock => exact inv_closeBlock h
  | _ => exact h

end

/-- Settles O58: every operation leaves the invariant, and a step is made of them. -/
theorem stepKeepsInv : Obligations.StepKeepsInv :=
  fun _ _ hs h => step_keeps (P := fun s => s.inv = true) (fun _ _ _ _ _ hinv => hinv)
    (fun _ _ _ heff hinv => Effect.inv hinv heff) (fun c _ hinv => inv_anaTurn hinv c)
    (fun _ hinv => inv_resetEvent hinv) hs h

end Sys2Proof.Machine
end

section
/-! The words software reads: STATUS, CTRL, MODE, ACT_FLAGS, CFG0 and CFG1 bit by bit (R33..R36, R42, R45), and the
location that each offset of the map and of the coefficient window names (R50, R79). -/

namespace Sys2Proof.Machine

/-! Flag words. -/

theorem getLsbD_bitAt {i : Nat} (hi : i < 32) (b : Bool) (j : Nat) : (bitAt b i).getLsbD j = (b && decide (j = i)) := by
  cases b
  · simp [bitAt]
  · simp only [bitAt, if_true, BitVec.getLsbD_shiftLeft, BitVec.getLsbD_one, Bool.true_and]
    rw [Bool.eq_iff_iff]
    simp only [Bool.and_eq_true, Bool.not_eq_true', decide_eq_true_eq, decide_eq_false_iff_not]
    omega

/-- A flag lies outside a mask that has not its bit. -/
theorem bitAt_and {m : Word} {i : Nat} (hi : i < 32) (h : m.getLsbD i = false) (b : Bool) : bitAt b i &&& m = 0#32 := by
  apply BitVec.eq_of_getLsbD_eq
  intro j _
  rw [BitVec.getLsbD_and, getLsbD_bitAt hi, BitVec.getLsbD_zero]
  by_cases hij : j = i
  · rw [hij, h, Bool.and_false]
  · simp [hij]

/-- The bit at the code of a condition is its sticky bit (R36, R211). -/
theorem getLsbD_sticky_word_code (f : Sticky) (e : ErrorBit) : f.word.getLsbD e.code = f.get e := by
  simp only [Sticky.word, BitVec.getLsbD_or, getLsbD_bitAt, Nat.reduceLT]
  rcases e with _ | _ | _ | ⟨_ | _⟩ | _ | _ | _ <;> simp [ErrorBit.code, Sticky.get]

/-- No other bit is a sticky bit. -/
theorem getLsbD_sticky_word_of_not_mem (f : Sticky) {i : Nat} (h : i ∉ [4, 5, 6, 8, 9, 12, 13, 14]) :
    f.word.getLsbD i = false := by
  simp only [List.mem_cons, List.not_mem_nil, or_false, not_or] at h
  simp only [Sticky.word, BitVec.getLsbD_or, getLsbD_bitAt, Nat.reduceLT, h, decide_false, Bool.and_false,
    Bool.or_false]

/-- A STATUS bit is DIRTY, IN_BLOCK, a sticky bit or SPEC_NEW_c, each at its place (R36). -/
theorem getLsbD_statusWord (s : State) (i : Nat) :
    (statusWord s).getLsbD i =
      (s.dirty && decide (i = 0) || s.inBlock && decide (i = 1) || s.sticky.word.getLsbD i ||
        s.l.spec.avail != 0#32 && decide (i = 16) || s.r.spec.avail != 0#32 && decide (i = 17)) := by
  simp only [statusWord, BitVec.getLsbD_or, getLsbD_bitAt, Nat.reduceLT]

theorem Ctrl.word_eq_append (x : Ctrl) :
    x.word = (0#30 ++ BitVec.ofBool x.tap ++ BitVec.ofBool x.anaEn : Word) := by
  obtain ⟨_ | _, _ | _⟩ := x <;> rfl

theorem Mode.word_eq_append (m : Mode) :
    m.word = (0#21 ++ BitVec.ofBool m.hcByp ++ BitVec.ofBool m.pkByp ++ BitVec.ofBool m.lcByp ++ 0#4 ++ m.hcSlope ++
      m.lcSlope : Word) := by
  apply BitVec.eq_of_getLsbD_eq
  intro i hi
  simp only [Mode.word, BitVec.getLsbD_or, BitVec.getLsbD_append, getLsbD_bitAt, Nat.reduceLT]
  interval_cases i <;> simp

theorem Chan.actFlags_eq_append (x : Chan) :
    x.actFlags = (0#13 ++ BitVec.ofBool x.bypHc ++ BitVec.ofBool x.bypPk ++ BitVec.ofBool x.bypLc ++ 0#4 ++ x.enHc ++
      0#4 ++ x.enLc : Word) := by
  apply BitVec.eq_of_getLsbD_eq
  intro i hi
  simp only [Chan.actFlags, BitVec.getLsbD_or, BitVec.getLsbD_append, getLsbD_bitAt, Nat.reduceLT]
  interval_cases i <;> simp

/-- A number that fits a field is the field's value zero-extended. -/
theorem ofNat_eq_setWidth {n m : Nat} (h : n < 2 ^ m) (hm : m ≤ 32) :
    BitVec.ofNat 32 n = (BitVec.ofNat m n).setWidth 32 := by
  apply BitVec.eq_of_toNat_eq
  have h32 : n < 2 ^ 32 := h.trans_le (Nat.pow_le_pow_right (by decide) hm)
  rw [BitVec.toNat_ofNat, BitVec.toNat_setWidth, BitVec.toNat_ofNat, Nat.mod_eq_of_lt h]

theorem cfg0Word_eq_append {p : Params} (horder : p.fftOrder < 2 ^ 4) (hcap : p.fifoCap < 2 ^ 8) :
    cfg0Word p = (0#14 ++ BitVec.ofBool (p.denorm == .ftzDaz) ++ BitVec.ofBool p.snapEn ++ BitVec.ofNat 8 p.fifoCap ++
      0#4 ++ BitVec.ofNat 4 p.fftOrder : Word) := by
  rw [cfg0Word, ofNat_eq_setWidth horder (by decide), ofNat_eq_setWidth hcap (by decide)]
  generalize BitVec.ofNat 4 p.fftOrder = order, BitVec.ofNat 8 p.fifoCap = cap
  apply BitVec.eq_of_getLsbD_eq
  intro i hi
  simp only [BitVec.getLsbD_or, BitVec.getLsbD_append, getLsbD_bitAt, Nat.reduceLT]
  interval_cases i <;> simp

theorem cfg1Word_eq_append {p : Params} (hblock : p.fifoBlock < 2 ^ 16) (hhop : p.hopBlocks < 2 ^ 16) :
    cfg1Word p = (BitVec.ofNat 16 p.hopBlocks ++ BitVec.ofNat 16 p.fifoBlock : Word) := by
  rw [cfg1Word, ofNat_eq_setWidth hblock (by decide), ofNat_eq_setWidth hhop (by decide)]
  generalize BitVec.ofNat 16 p.fifoBlock = block, BitVec.ofNat 16 p.hopBlocks = hop
  apply BitVec.eq_of_getLsbD_eq
  intro i hi
  simp only [BitVec.getLsbD_or, BitVec.getLsbD_append]
  interval_cases i <;> simp

/-! The coefficient window. -/

/-- Above the registers an aligned offset is what the windows make of it. -/
theorem locate_window {a : Nat} (hlow : 0x200 ≤ a) (hhigh : a < 2 ^ 16) (halign : a % 4 = 0) :
    locate (BitVec.ofNat 16 a) = windowLoc a := by
  have htoNat : (BitVec.ofNat 16 a).toNat = a := by rw [BitVec.toNat_ofNat, Nat.mod_eq_of_lt hhigh]
  have hregister : registerMap.lookup a = none := by
    refine List.lookup_eq_none_iff.2 fun x hx => ?_
    have hoff : x.1 < 0x200 := (by decide : ∀ x ∈ registerMap, x.1 < 0x200) x hx
    simpa using by omega
  rw [locate, aligned, htoNat, halign, hregister]
  rfl

/-- Word `j` of the section in place `i` (R50). -/
theorem locate_coef {i j : Nat} (hi : i < 9) (hj : j < 8) {sec : SecId} (hsec : SecId.order[i]? = some sec) :
    locate (BitVec.ofNat 16 (0x200 + 0x20 * i + 4 * j)) = some (.coef sec j) := by
  have hplace : (0x200 + 0x20 * i + 4 * j - 0x200) / 0x20 = i := by omega
  have hword : (0x200 + 0x20 * i + 4 * j - 0x200) % 0x20 / 4 = j := by omega
  rw [locate_window (by omega) (by omega) (by omega), windowLoc, if_pos (by omega), hplace, hword, hsec]
  rfl

theorem coefWord_eq_getD (c : Coefs) (j : Nat) :
    coefWord c j = [c.b0, c.b1, c.b2, c.a1, c.a2, 0#32, 0#32, 0#32].getD j 0#32 := by
  match j with
  | 0 | 1 | 2 | 3 | 4 | 5 | 6 | 7 => rfl
  | _ + 8 => rfl

/-! The statements. -/

/-- Settles O12: each offset by the map, each flag word as the row of its fields. -/
theorem registersRead : Obligations.RegistersRead := by
  intro s
  refine ⟨rfl, congrArg some (Ctrl.word_eq_append _), rfl, rfl, rfl, rfl, rfl, rfl, rfl, rfl, rfl, rfl,
    congrArg some (Mode.word_eq_append _), rfl, rfl, rfl, rfl, rfl, rfl, congrArg some (Mode.word_eq_append _),
    congrArg some (Chan.actFlags_eq_append _), rfl, rfl, rfl, rfl, rfl, rfl, rfl, rfl, rfl, rfl, fun hlegal => ?_⟩
  obtain ⟨-, horder, -, -, hblock, -, hcap, -, hhop⟩ := legal_iff.1 hlegal
  refine ⟨cfg0Word s.cfg, cfg1Word s.cfg, rfl, rfl, ?_⟩
  rw [cfg0Word_eq_append (by omega) (by omega), cfg1Word_eq_append (by omega) (by omega)]
  refine ⟨?order, ?gap, ?cap, ?snapEn, ?denorm, ?top, ?block, ?hop⟩
  case order =>
    rw [BitVec.extractLsb'_append_eq_right, BitVec.toNat_ofNat]
    omega
  case gap => rw [BitVec.extractLsb'_append_eq_of_le (by omega), BitVec.extractLsb'_append_eq_right]
  case cap =>
    rw [BitVec.extractLsb'_append_eq_of_le (by omega), BitVec.extractLsb'_append_eq_of_le (by omega),
      BitVec.extractLsb'_append_eq_right, BitVec.toNat_ofNat]
    omega
  case snapEn =>
    simp only [BitVec.getLsbD_append]
    simp
  case denorm =>
    simp only [BitVec.getLsbD_append]
    simp [beq_eq_decide]
  case top =>
    rw [BitVec.extractLsb'_append_eq_of_le (by omega), BitVec.extractLsb'_append_eq_of_le (by omega),
      BitVec.extractLsb'_append_eq_of_le (by omega), BitVec.extractLsb'_append_eq_of_le (by omega),
      BitVec.extractLsb'_append_eq_of_le (by omega)]
    rfl
  case block =>
    rw [BitVec.extractLsb'_append_eq_right, BitVec.toNat_ofNat]
    omega
  case hop =>
    rw [BitVec.extractLsb'_append_eq_left, BitVec.toNat_ofNat]
    omega

/-- Settles O13, bit by bit; the flags lie outside the mask of the reserved bits. -/
theorem statusBits : Obligations.StatusBits := by
  intro s
  refine ⟨?dirty, ?inBlock, fun e => ?sticky, ?specNewL, ?specNewR, ?reserved⟩
  case sticky =>
    rw [getLsbD_statusWord, getLsbD_sticky_word_code]
    rcases e with _ | _ | _ | ⟨_ | _⟩ | _ | _ | _ <;> simp [ErrorBit.code]
  case reserved => simp [statusWord, Sticky.word, BitVec.and_or_distrib_right, bitAt_and]
  all_goals
    rw [getLsbD_statusWord, getLsbD_sticky_word_of_not_mem _ (by decide)]
    simp

/-- Settles O14: the window's place gives the section and the word. -/
theorem coefficientWindow : Obligations.CoefficientWindow := by
  intro s i j
  have hi : i.val < SecId.order.length := i.isLt
  refine ⟨_, List.getElem?_eq_getElem hi, ?_⟩
  rw [locate_coef i.isLt j.isLt (List.getElem?_eq_getElem hi), Option.map_some, readLoc, coefWord_eq_getD]

end Sys2Proof.Machine
end

section
/-! The steps of the agents (R83, R84): a turn of the schedule's head, the oldest term of a port, and what a host places
at a port from outside. -/

namespace Sys2Proof.Machine

/-- Under a legal configuration a step is the turn of the schedule's head. -/
theorem step_of_sched {s : State} {t : Turn} {ts : List Turn} (hlegal : s.cfg.legal = true)
    (hsched : s.sched = t :: ts) : step s = takeTurn t { s with sched := ts } := by
  simp only [step, stepOnce, nextTurn, hlegal, hsched, if_true]

theorem ctrlTurn_nil {s : State} (hin : s.ctrlIn = []) : ctrlTurn s = .next s := by
  simp only [ctrlTurn, hin]

theorem audioTurn_nil {s : State} (hin : s.audioIn = []) : audioTurn s = .next s := by
  simp only [audioTurn, hin]

theorem ctrlTurn_cons {s : State} {w : PortWord} {ws : List PortWord} {i : Instr} (hin : s.ctrlIn = w :: ws)
    (hdecode : decode .control w = .ok i) : ctrlTurn s = exec i { s with ctrlIn := ws } := by
  simp only [ctrlTurn, hin, hdecode, perform]

theorem audioTurn_cons {s : State} {w : PortWord} {ws : List PortWord} {i : Instr} (hin : s.audioIn = w :: ws)
    (hdecode : decode .audio w = .ok i) : audioTurn s = exec i { s with audioIn := ws } := by
  simp only [audioTurn, hin, hdecode, perform]

section
variable {s : State} {ts : List Turn} {w : PortWord} {ws : List PortWord} {i : Instr}

/-- A step of HOST_CTRL performs the oldest request. -/
theorem step_hostCtrl (hlegal : s.cfg.legal = true) (hsched : s.sched = .hostCtrl :: ts) (hin : s.ctrlIn = w :: ws)
    (hdecode : decode .control w = .ok i) : step s = exec i { s with sched := ts, ctrlIn := ws } :=
  (step_of_sched hlegal hsched).trans (ctrlTurn_cons hin hdecode)

/-- A step of HOST_AUDIO performs the oldest beat. -/
theorem step_hostAudio (hlegal : s.cfg.legal = true) (hsched : s.sched = .hostAudio :: ts) (hin : s.audioIn = w :: ws)
    (hdecode : decode .audio w = .ok i) : step s = exec i { s with sched := ts, audioIn := ws } :=
  (step_of_sched hlegal hsched).trans (audioTurn_cons hin hdecode)

/-- What is offered to a port is performed by the next step, and nothing of the offer is left. -/
theorem step_offer {p : Port} (hlegal : s.cfg.legal = true) (hdecode : decode p w = .ok i) :
    step (offer p w s) = exec i s := by
  cases p with
  | control => exact step_hostCtrl (s := offer .control w s) hlegal rfl rfl hdecode
  | audio => exact step_hostAudio (s := offer .audio w s) hlegal rfl rfl hdecode

end

theorem decode_of_decodeTableWord {nbits w : Nat} {i : Instr} (h : decodeTableWord nbits w = some i) :
    decode (tableTerm nbits w).1 (tableTerm nbits w).2 = .ok i := by
  unfold decodeTableWord at h
  split at h
  · rename_i hdecode
    rwa [hdecode, Except.ok.injEq, ← Option.some.injEq]
  · cases h

/-! The statements. -/

/-- Settles O6: a turn of a port's host takes the oldest term, and an offer puts its term there. -/
theorem stepRunsDecoded : Obligations.StepRunsDecoded :=
  ⟨fun _ _ _ _ _ hlegal hsched hin hdecode _ => step_hostCtrl hlegal hsched hin hdecode,
    fun _ _ _ _ _ hlegal hsched hin hdecode _ => step_hostAudio hlegal hsched hin hdecode,
    fun _ _ _ _ hlegal h => step_offer hlegal (decode_of_decodeTableWord h)⟩

/-- Settles O7: the step is the turn of the schedule's head. -/
theorem stepRunsAgents : Obligations.StepRunsAgents :=
  fun _ _ hlegal =>
    ⟨fun _ hsched => step_of_sched hlegal hsched, fun hsched => step_of_sched hlegal hsched,
      fun hsched hin => (step_of_sched hlegal hsched).trans (ctrlTurn_nil hin),
      fun hsched hin => (step_of_sched hlegal hsched).trans (audioTurn_nil hin)⟩

end Sys2Proof.Machine
end

section
/-! The ports (R84, R100, R103, R106): what a transaction leaves waiting, and what it answers and emits. -/

namespace Sys2Proof.Machine

/-- What waits at the two ports and what they have given: requests, beats, responses, output beats. -/
def State.ports (s : State) : List PortWord × List PortWord × List Resp × List (BitVec 64) :=
  (s.ctrlIn, s.audioIn, s.ctrlOut, s.audioOut)

theorem State.ports_eq_iff {s : State} {ci ai : List PortWord} {co : List Resp} {ao : List (BitVec 64)} :
    s.ports = (ci, ai, co, ao) ↔ s.ctrlIn = ci ∧ s.audioIn = ai ∧ s.ctrlOut = co ∧ s.audioOut = ao := by
  simp only [State.ports, Prod.mk.injEq]

/-! The shared operations. -/

@[simp] theorem State.setChan_ports (s : State) (c : Channel) (x : Chan) : (s.setChan c x).ports = s.ports := by
  cases c <;> rfl

@[simp] theorem raise_ports (e : ErrorBit) (s : State) : (raise e s).ports = s.ports := rfl

@[simp] theorem resetEvent_ports (s : State) : (resetEvent s).ports = s.ports := rfl

@[simp] theorem acquire_ports (c : Channel) (s : State) : (acquire c s).ports = s.ports := State.setChan_ports s c _

@[simp] theorem closeBlock_ports (s : State) : (closeBlock s).ports = s.ports := by
  rw [closeBlock_eq]
  rfl

@[simp] theorem openBlock_ports (s : State) : (openBlock s).ports = s.ports := by
  rw [openBlock_eq]
  rfl

@[simp] theorem frameLane_ports (c : Channel) (x : Word) (s : State) : (frameLane c x s).2.ports = s.ports := by
  rw [frameLane_eq]
  exact State.setChan_ports s c _

@[simp] theorem commitSettings_ports (s : State) : (commitSettings s).ports = s.ports := rfl

@[simp] theorem prepareStream_ports (s : State) : (prepareStream s).ports = s.ports := rfl

/-- After an operation that leaves the ports, a response stands after those given before it. -/
theorem respond_ports {s u : State} (h : u.ports = s.ports) (a : Resp) :
    (respond a u).ports = (s.ctrlIn, s.audioIn, s.ctrlOut ++ [a], s.audioOut) := by
  obtain ⟨hci, hai, hco, hao⟩ := State.ports_eq_iff.1 h
  exact State.ports_eq_iff.2 ⟨hci, hai, congrArg (· ++ [a]) hco, hao⟩

/-- After an operation that leaves the ports, an output beat stands after those emitted before it. -/
theorem emit_frameCnt_ports {s u : State} (h : u.ports = s.ports) (yl yr n : Word) :
    State.ports { emit yl yr u with frameCnt := n } =
      (s.ctrlIn, s.audioIn, s.ctrlOut, s.audioOut ++ [(yr ++ yl : BitVec 64)]) := by
  obtain ⟨hci, hai, hco, hao⟩ := State.ports_eq_iff.1 h
  exact State.ports_eq_iff.2 ⟨hci, hai, hco, congrArg (· ++ [_]) hao⟩

/-- A frame emits one output beat. -/
theorem processFrame_ports {s u : State} (h : u.ports = s.ports) (xl xr : Word) :
    ∃ y, (processFrame xl xr u).ports = (s.ctrlIn, s.audioIn, s.ctrlOut, s.audioOut ++ [y]) := by
  have hlanes : (frameLane .R xr (frameLane .L xl u).2).2.ports = s.ports := by simp [h]
  exact ⟨_, emit_frameCnt_ports hlanes _ _ _⟩

/-- A command leaves the ports (for SOFT_RESET, log 13). -/
theorem performCommand_ports (w : Word) (s : State) : (performCommand w s).ports = s.ports := by
  rcases performCommand_cases w s with
    ⟨_, h⟩ | ⟨_, h⟩ | ⟨_, h⟩ | ⟨_, h⟩ | ⟨_, h⟩ | ⟨_, h⟩ | ⟨_, h⟩ <;> simp [h]

theorem writeLoc_ports (a : Loc) (d : Word) (s : State) : (writeLoc a d s).ports = s.ports := by
  cases a
  case cmd => exact performCommand_ports d s
  all_goals rfl

/-! Beats. -/

/-- FRAME emits one output beat, whether or not it opens a block first (R154). -/
theorem exec_frame_ports (xl xr : Word) (s : State) :
    ∃ t y, exec (.frame xl xr) s = .next t ∧ t.ports = (s.ctrlIn, s.audioIn, s.ctrlOut, s.audioOut ++ [y]) := by
  have hopen : (if s.inBlock then s else raise .protoErr (openBlock s)).ports = s.ports := by split <;> simp
  obtain ⟨y, hy⟩ := processFrame_ports hopen xl xr
  exact ⟨_, y, rfl, hy⟩

/-- No other beat touches a port (R152, R155, R157). -/
theorem exec_ports_of_beat {i : Instr} (hi : i = .beginBlock ∨ i = .endBlock ∨ i = .reservedBeat) (s : State) :
    ∃ t, exec i s = .next t ∧ t.ports = s.ports := by
  rcases hi with rfl | rfl | rfl <;> refine ⟨_, rfl, ?_⟩
  · rw [openBlock_ports]
    split <;> simp
  · split <;> simp
  · simp

/-- The tag says whether a beat is a FRAME (R105). -/
theorem decodeAud_cases (b : BitVec 66) :
    (audTag b = 0b00#2 ∧ decodeAud b = .frame (audXl b) (audXr b)) ∨
    (audTag b ≠ 0b00#2 ∧ (decodeAud b = .beginBlock ∨ decodeAud b = .endBlock ∨ decodeAud b = .reservedBeat)) := by
  unfold decodeAud
  split_ifs with htag <;> simp [htag]

/-- Every beat completes, leaves what waits and what was answered, and emits one output beat exactly where it is a FRAME
(R86, R103). -/
theorem exec_decodeAud_ports (b : BitVec 66) (s : State) :
    ∃ t ys, exec (decodeAud b) s = .next t ∧ t.ports = (s.ctrlIn, s.audioIn, s.ctrlOut, s.audioOut ++ ys) ∧
      ys.length = if audTag b = 0b00#2 then 1 else 0 := by
  rcases decodeAud_cases b with ⟨htag, hrow⟩ | ⟨htag, hrow⟩
  · obtain ⟨t, y, ht, hports⟩ := exec_frame_ports (audXl b) (audXr b) s
    exact ⟨t, [y], hrow ▸ ht, hports, by simp [htag]⟩
  · obtain ⟨t, ht, hports⟩ := exec_ports_of_beat hrow s
    exact ⟨t, [], ht, by rw [hports, List.append_nil]; rfl, by simp [htag]⟩

/-! Requests. -/

theorem legalRequest_eq_true_iff {size : BitVec 2} {addr : BitVec 16} :
    legalRequest size addr = true ↔ size = 0b10#2 ∧ mapped addr = true := by
  simp only [legalRequest, Bool.and_eq_true, beq_iff_eq]

/-- The row of a request: illegal, or RD or WR of the location at its address (R101). -/
theorem decodeCtl_cases (r : BitVec 51) :
    (legalRequest (ctlSize r) (ctlAddr r) = false ∧
      decodeCtl r = .illegalCtl (ctlSize r) (ctlWe r) (ctlAddr r) (ctlData r)) ∨
    (legalRequest (ctlSize r) (ctlAddr r) = true ∧ ∃ a, locate (ctlAddr r) = some a ∧
      ((ctlWe r = false ∧ decodeCtl r = .rd (ctlAddr r)) ∨
        (ctlWe r = true ∧ decodeCtl r = decodeWrite (ctlAddr r) (ctlData r)))) := by
  unfold decodeCtl
  cases hlegal : legalRequest (ctlSize r) (ctlAddr r) with
  | false => exact .inl ⟨rfl, rfl⟩
  | true =>
    obtain ⟨-, hmapped⟩ := legalRequest_eq_true_iff.1 hlegal
    obtain ⟨a, ha⟩ := Option.isSome_iff_exists.1 hmapped
    refine .inr ⟨rfl, a, ha, ?_⟩
    cases ctlWe r <;> simp

/-- Every request completes, leaves what waits and what was emitted, and gets one response: an error exactly where it is
illegal, and read data 0 where it is a write (R81, R84, R100). -/
theorem exec_decodeCtl_ports (r : BitVec 51) (s : State) :
    ∃ t a, exec (decodeCtl r) s = .next t ∧ t.ports = (s.ctrlIn, s.audioIn, s.ctrlOut ++ [a], s.audioOut) ∧
      a.err = (!legalRequest (ctlSize r) (ctlAddr r)) ∧ (ctlWe r = true → a.rdata = 0#32) := by
  rcases decodeCtl_cases r with ⟨hlegal, hrow⟩ | ⟨hlegal, a, ha, ⟨hwe, hrow⟩ | ⟨_, hrow⟩⟩ <;> rw [hrow, hlegal]
  · exact ⟨busError s, _, rfl, respond_ports (raise_ports .busErr s) _, rfl, fun _ => rfl⟩
  · have hread : readControl (ctlAddr r) s = respond { rdata := readLoc s a, err := false } s := by
      simp only [readControl, ha]
    exact ⟨_, _, congrArg Host.Outcome.next hread, respond_ports rfl _, rfl, by simp [hwe]⟩
  · exact ⟨_, _, exec_decodeWrite ha _ s, respond_ports (writeLoc_ports a _ s) _, rfl, fun _ => rfl⟩

/-! The statements. -/

/-- Settles O9: the step performs the beat, and each row of a beat says what it emits. -/
theorem audioPortNeverWaits : Obligations.AudioPortNeverWaits := by
  intro s b bs ts hlegal hsched hin
  obtain ⟨t, ys, ht, hports, hlen⟩ := exec_decodeAud_ports b { s with sched := ts, audioIn := bs }
  obtain ⟨hci, hai, hco, hao⟩ := State.ports_eq_iff.1 hports
  refine ⟨t, (step_hostAudio hlegal hsched hin (decode_audTerm b)).trans ht, hai, hci, hco, ?_, ?_⟩
  · rw [hao, List.length_append, hlen]
  · rw [hao, List.take_left]

/-- Settles O10: the step performs the request, and each row of a request gives one response. -/
theorem everyRequestAnswered : Obligations.EveryRequestAnswered := by
  intro s r rs ts hlegal hsched hin
  obtain ⟨t, a, ht, hports, herr, hrdata⟩ := exec_decodeCtl_ports r { s with sched := ts, ctrlIn := rs }
  obtain ⟨hci, hai, hco, hao⟩ := State.ports_eq_iff.1 hports
  refine ⟨t, a, (step_hostCtrl hlegal hsched hin (decode_ctlTerm r)).trans ht, hci, hai, hao, hco, ?_, hrdata⟩
  rw [herr, Bool.not_eq_true', ← Bool.not_eq_true, legalRequest_eq_true_iff, not_and_or, Bool.not_eq_true]

end Sys2Proof.Machine
end

section
/-! The control map (R74, R79, R80): which offsets name a location, and the bins of the spectrum windows. -/

namespace Sys2Proof.Machine

/-- A lookup succeeds exactly at the keys. -/
theorem lookup_isSome_iff {β : Type} (l : List (Nat × β)) (a : Nat) :
    (l.lookup a).isSome = true ↔ a ∈ l.map Prod.fst := by
  induction l with
  | nil => simp
  | cons x l ih =>
    rw [List.map_cons, List.mem_cons, ← ih, List.lookup_cons]
    cases hkey : a == x.1 <;> simp_all

/-- The registers are the words up to 0x94, but for the gaps R79 leaves. -/
theorem registerMap_lookup_isSome_iff (a : Nat) :
    (registerMap.lookup a).isSome = true ↔
      a % 4 = 0 ∧ (a ≤ 0x38 ∨ (0x40 ≤ a ∧ a ≤ 0x58) ∨ a = 0x60 ∨ (0x70 ≤ a ∧ a ≤ 0x94)) := by
  rw [lookup_isSome_iff]
  simp only [registerMap, List.map_cons, List.map_nil, List.mem_cons, List.not_mem_nil, or_false]
  omega

/-- The coefficient window has no gap, and the two spectrum windows meet (R50, R80). -/
theorem windowLoc_isSome_iff (a : Nat) :
    (windowLoc a).isSome = true ↔ (0x200 ≤ a ∧ a ≤ 0x31F) ∨ (0x4000 ≤ a ∧ a ≤ 0x7FFF) := by
  unfold windowLoc
  split_ifs
  · have hplace : (a - 0x200) / 0x20 < SecId.order.length := by
      change (a - 0x200) / 0x20 < 9
      omega
    simp only [Option.isSome_map, List.getElem?_eq_getElem hplace, Option.isSome_some, true_iff]
    omega
  all_goals
    simp only [Option.isSome_some, Option.isSome_none, Bool.false_eq_true, true_iff, false_iff]
    omega

theorem mapped_iff (off : BitVec 16) :
    mapped off = true ↔ off.toNat % 4 = 0 ∧
      ((registerMap.lookup off.toNat).isSome = true ∨ (windowLoc off.toNat).isSome = true) := by
  simp only [mapped, locate, aligned, beq_iff_eq]
  split_ifs with halign <;> simp [halign]

/-- Bin `k` of the left channel's window (R80). -/
theorem locate_bin_L {k : Nat} (hk : k < 2048) : locate (BitVec.ofNat 16 (0x4000 + 4 * k)) = some (.bin .L k) := by
  have hbin : (0x4000 + 4 * k - 0x4000) / 4 = k := by omega
  rw [locate_window (by omega) (by omega) (by omega), windowLoc, if_neg (by omega), if_pos (by omega), hbin]

/-- Bin `k` of the right channel's window (R80). -/
theorem locate_bin_R {k : Nat} (hk : k < 2048) : locate (BitVec.ofNat 16 (0x6000 + 4 * k)) = some (.bin .R k) := by
  have hbin : (0x6000 + 4 * k - 0x6000) / 4 = k := by omega
  rw [locate_window (by omega) (by omega) (by omega), windowLoc, if_neg (by omega), if_neg (by omega),
    if_pos (by omega), hbin]

/-! The statements. -/

/-- Settles O5: an aligned offset is a register's or lies in a window. -/
theorem mappedOffsets : Obligations.MappedOffsets := by
  intro off
  rw [mapped_iff, registerMap_lookup_isSome_iff, windowLoc_isSome_iff]
  omega

/-- Settles O15: the window's place gives the channel and the bin. -/
theorem spectrumWindow : Obligations.SpectrumWindow := by
  intro s c k hk
  cases c with
  | L => exact congrArg (Option.map (readLoc s)) (locate_bin_L hk)
  | R => exact congrArg (Option.map (readLoc s)) (locate_bin_R hk)

end Sys2Proof.Machine
end

section
/-! The encoding (30_encoding.md): the decoder and the encoder agree, every value of a format is a transaction of its
port, and which requests are RD and WR. -/

namespace Sys2Proof.Machine

/-! Decoding after encoding. -/

/-- The decoder reads every well-formed transaction back from its term, row by row (R100..R105, R110). -/
theorem decode_encode : ∀ i : Instr, i.wellFormed = true → decode i.port (encode i) = .ok i.resolve
  | .rd off => Laws.RoundTrip.rd off
  | .wr off d => Laws.RoundTrip.wr off d
  | .wrCtrl d => Laws.RoundTrip.wrCtrl d
  | .wrStatus d => Laws.RoundTrip.wrStatus d
  | .wrSr d => Laws.RoundTrip.wrSr d
  | .wrPkFreq d => Laws.RoundTrip.wrPkFreq d
  | .wrPkGain d => Laws.RoundTrip.wrPkGain d
  | .wrPkQ d => Laws.RoundTrip.wrPkQ d
  | .wrLcFreq d => Laws.RoundTrip.wrLcFreq d
  | .wrHcFreq d => Laws.RoundTrip.wrHcFreq d
  | .wrFloorDb d => Laws.RoundTrip.wrFloorDb d
  | .wrMode d => Laws.RoundTrip.wrMode d
  | .wrReadOnly off d => Laws.RoundTrip.wrReadOnly off d
  | .nop => Laws.RoundTrip.nop
  | .commit => Laws.RoundTrip.commit
  | .prepare => Laws.RoundTrip.prepare
  | .specAcqL => Laws.RoundTrip.specAcqL
  | .specAcqR => Laws.RoundTrip.specAcqR
  | .softReset => Laws.RoundTrip.softReset
  | .reservedCmd w => Laws.RoundTrip.reservedCmd w
  | .illegalCtl size we addr d => Laws.RoundTrip.illegalCtl size we addr d
  | .frame xl xr => Laws.RoundTrip.frame xl xr
  | .beginBlock => Laws.RoundTrip.beginBlock
  | .endBlock => Laws.RoundTrip.endBlock
  | .reservedBeat => Laws.RoundTrip.reservedBeat

/-- Only the general WR resolves to another row (R112, log 9). -/
theorem resolve_of_ne_wr {i : Instr} (h : ∀ off d, i ≠ .wr off d) : i.resolve = i := by
  cases i
  case wr off d => exact absurd rfl (h off d)
  all_goals rfl

/-- A word of the opcode table that is the encoder's for a transaction other than the general WR decodes to it. -/
theorem decodeTableWord_of_encode {nbits w : Nat} {i : Instr} (hterm : tableTerm nbits w = (i.port, encode i))
    (hwf : i.wellFormed = true) (hi : ∀ off d, i ≠ .wr off d) : decodeTableWord nbits w = some i := by
  have hdecode : decode i.port (encode i) = .ok i := (decode_encode i hwf).trans (by rw [resolve_of_ne_wr hi])
  rw [decodeTableWord, hterm]
  simp only [hdecode]

/-! The rows of a legal WR. -/

/-- What every row of a legal WR is: well formed, of the control port, and no illegal request. -/
structure LegalWriteRow (i : Instr) : Prop where
  wellFormed : i.wellFormed = true
  port : i.port = .control
  ne_illegal : ∀ size we addr d, i ≠ .illegalCtl size we addr d

/-- The command word is one of the six of R104, or a reserved one. -/
theorem legalWriteRow_decodeCmd (w : Word) : LegalWriteRow (decodeCmd w) := by
  unfold decodeCmd
  split_ifs
  case neg => exact ⟨by simp [Instr.wellFormed, definedCommands, *], rfl, nofun⟩
  all_goals exact ⟨rfl, rfl, nofun⟩

theorem legalWriteRow_decodeStaged (d : Word) (r : Setting) : LegalWriteRow (decodeStaged d r) := by
  cases r <;> exact ⟨rfl, rfl, nofun⟩

/-- Each location gives a row of its own, and the read-only ones share one (R112, R117). -/
theorem legalWriteRow_decodeWrite {off : BitVec 16} {a : Loc} (h : locate off = some a) (d : Word) :
    LegalWriteRow (decodeWrite off d) := by
  have hreadOnly (ha : a.readOnly = true) : LegalWriteRow (.wrReadOnly off d) :=
    ⟨by simpa [Instr.wellFormed, h] using ha, rfl, nofun⟩
  unfold decodeWrite
  rw [h]
  cases a
  case cmd => exact legalWriteRow_decodeCmd d
  case staged r => exact legalWriteRow_decodeStaged d r
  case ctrl | status | floorDb | mode => exact ⟨rfl, rfl, nofun⟩
  all_goals exact hreadOnly rfl

/-! Every value of a format. -/

/-- A request is a well-formed transaction of the control port, and no general WR (R101, log 9). -/
theorem decodeCtl_wellFormed (r : BitVec 51) :
    (decodeCtl r).wellFormed = true ∧ (decodeCtl r).port = .control ∧ ∀ off d, decodeCtl r ≠ .wr off d := by
  rcases decodeCtl_cases r with ⟨hillegal, hrow⟩ | ⟨_, a, ha, ⟨_, hrow⟩ | ⟨_, hrow⟩⟩ <;> rw [hrow]
  · exact ⟨by simp [Instr.wellFormed, hillegal], rfl, nofun⟩
  · exact ⟨by simp [Instr.wellFormed, mapped, ha], rfl, nofun⟩
  · obtain ⟨hwf, hport, _⟩ := legalWriteRow_decodeWrite ha (ctlData r)
    exact ⟨hwf, hport, decodeWrite_ne_wr _ _⟩

/-- A beat is a well-formed transaction of the audio port (R105). -/
theorem decodeAud_wellFormed (b : BitVec 66) : (decodeAud b).wellFormed = true ∧ (decodeAud b).port = .audio := by
  rcases decodeAud_cases b with ⟨_, hrow⟩ | ⟨_, hrow | hrow | hrow⟩ <;> rw [hrow] <;> exact ⟨rfl, rfl⟩

theorem fits_iff (p : Port) (w : PortWord) : w.fits p = true ↔ w.width = p.width ∧ w.bits < 2 ^ p.width := by
  simp only [PortWord.fits, Bool.and_eq_true, beq_iff_eq, decide_eq_true_eq]

/-- Exactly the terms of a port's format are transactions (R223, U11). -/
theorem decode_ok_iff_fits (p : Port) (w : PortWord) : (∃ i, decode p w = .ok i) ↔ w.fits p = true := by
  cases p <;> simp only [decode] <;> split_ifs with hfits <;> simp [hfits]

/-! The statements. -/

/-- Settles O1: the round trip of each row, and the rows that resolve to themselves. -/
theorem decodeEncodeAgree : Obligations.DecodeEncodeAgree :=
  fun i hwf => ⟨decode_encode i hwf, resolve_of_ne_wr⟩

/-- Settles O2: each value's row by the decoder's cases, and the terms that have a row by their format. -/
theorem everyFormatValueDecodes : Obligations.EveryFormatValueDecodes :=
  ⟨fun r => ⟨decodeCtl r, decode_ctlTerm r, decodeCtl_wellFormed r⟩,
    fun b => ⟨decodeAud b, decode_audTerm b, decodeAud_wellFormed b⟩,
    fun p w => (decode_ok_iff_fits p w).trans (fits_iff p w)⟩

/-- Settles O4: the cases of a request by its legality; what an illegal one does is `busError`. -/
theorem requestDecoding : Obligations.RequestDecoding := by
  intro r s
  refine ⟨fun hsize hmapped => ?legal, fun hbad => ?illegal⟩
  case legal =>
    have hlegal := legalRequest_eq_true_iff.2 ⟨hsize, hmapped⟩
    rcases decodeCtl_cases r with ⟨hillegal, _⟩ | ⟨_, a, ha, ⟨hwe, hrow⟩ | ⟨hwe, hrow⟩⟩
    · exact absurd hlegal (by simp [hillegal])
    · exact ⟨fun _ => hrow, fun hwr => absurd hwr (by simp [hwe])⟩
    · exact ⟨fun hrd => absurd hrd (by simp [hwe]),
        fun _ => ⟨hrow, hrow ▸ (legalWriteRow_decodeWrite ha (ctlData r)).ne_illegal⟩⟩
  case illegal =>
    rcases decodeCtl_cases r with ⟨_, hrow⟩ | ⟨hlegal, _⟩
    · exact ⟨hrow, hrow ▸ rfl⟩
    · obtain ⟨hsize, hmapped⟩ := legalRequest_eq_true_iff.1 hlegal
      exact absurd hbad (by simp [hsize, hmapped])

/-- Settles O3: each word is its transaction's encoding, but for BEGIN, whose ignored bits are set in V-E12. -/
theorem specWordsDecode : Obligations.SpecWordsDecode := by
  refine ⟨?_, ?_, ?_, ?_, ?_, ?_, ?_, ?begin, ?_⟩
  case begin => rfl
  all_goals exact decodeTableWord_of_encode rfl (by decide) nofun

end Sys2Proof.Machine
end

section
/-! The control port (40_control_port.md): what RD and WR of each kind of location do, and the words that software reads
back after a write (R76, R81, R111..R117, R124). -/

namespace Sys2Proof.Machine

/-! Requests at a mapped and at an unmapped offset. -/

theorem locate_eq_none_of_unmapped {off : BitVec 16} (h : mapped off = false) : locate off = none :=
  Option.isNone_iff_eq_none.1 (Option.isSome_eq_false_iff.1 h)

section
variable {off : BitVec 16} {a : Loc} (s : State)

/-- RD at a mapped offset answers the word and does nothing else (R111). -/
theorem exec_rd_of_locate (h : locate off = some a) :
    exec (.rd off) s = .next (respond { rdata := readLoc s a, err := false } s) := by
  change Host.Outcome.next (readControl off s) = _
  simp only [readControl, h]

/-- RD at any other offset gets the error response (R81). -/
theorem exec_rd_of_unmapped (h : mapped off = false) : exec (.rd off) s = .next (busError s) := by
  change Host.Outcome.next (readControl off s) = _
  simp only [readControl, locate_eq_none_of_unmapped h]

/-- WR at a mapped offset has the effect of its location and is acknowledged (R112). -/
theorem exec_wr_of_locate (h : locate off = some a) (d : Word) :
    exec (.wr off d) s = .next (ack (writeLoc a d s)) := by
  change Host.Outcome.next (writeControl off d s) = _
  simp only [writeControl, h]

/-- WR at any other offset gets the error response (R81). -/
theorem exec_wr_of_unmapped (h : mapped off = false) (d : Word) : exec (.wr off d) s = .next (busError s) := by
  change Host.Outcome.next (writeControl off d s) = _
  simp only [writeControl, locate_eq_none_of_unmapped h]

end

/-- No location shows a response: reading is not seen by a later read (R76). -/
@[simp] theorem readLoc_respond (r : Resp) (s : State) (a : Loc) : readLoc (respond r s) a = readLoc s a := by
  cases a
  case fifoLvl c | fifoOvr c | specSeq c | specAvail c | bin c k => cases c <;> rfl
  all_goals rfl

/-- A word that is no command of R104 raises CMD_ERR (R124). -/
theorem performCommand_of_not_defined {w : Word} (h : w ∉ definedCommands) (s : State) :
    performCommand w s = raise .cmdErr s := by
  simp only [definedCommands, List.mem_cons, List.not_mem_nil, or_false, not_or] at h
  simp only [performCommand, h, if_false]

/-! The words read back after a write. -/

/-- CTRL keeps two bits of the written word (R113). -/
theorem Ctrl.word_ofWord (d : Word) : (Ctrl.ofWord d).word = d &&& 0x00000003#32 := by
  apply BitVec.eq_of_getLsbD_eq
  intro i hi
  simp only [Ctrl.word, Ctrl.ofWord, BitVec.getLsbD_or, BitVec.getLsbD_and, getLsbD_bitAt, Nat.reduceLT]
  interval_cases i <;> simp

/-- MODE keeps the slopes and the bypass flags of the written word (R116). -/
theorem Mode.word_ofWord (d : Word) : (Mode.ofWord d).word = d &&& 0x0000070F#32 := by
  apply BitVec.eq_of_getLsbD_eq
  intro i hi
  simp only [Mode.word_eq_append, Mode.ofWord, BitVec.getLsbD_append, BitVec.getLsbD_and]
  interval_cases i <;> simp

/-- The W1C bits of STATUS are those of the error conditions (R36, R114). -/
theorem getLsbD_w1cMask_iff (i : Nat) : (0x00007370#32).getLsbD i = true ↔ i ∈ [4, 5, 6, 8, 9, 12, 13, 14] := by
  by_cases hi : i < 32
  · exact (by decide : ∀ j : Fin 32, (0x00007370#32).getLsbD j = true ↔ j.val ∈ [4, 5, 6, 8, 9, 12, 13, 14]) ⟨i, hi⟩
  · rw [BitVec.getLsbD_of_ge _ _ (by omega)]
    simp only [List.mem_cons, List.not_mem_nil, or_false, Bool.false_eq_true, false_iff]
    omega

theorem exists_code_of_mem {i : Nat} (h : i ∈ [4, 5, 6, 8, 9, 12, 13, 14]) : ∃ e : ErrorBit, e.code = i := by
  simp only [List.mem_cons, List.not_mem_nil, or_false] at h
  rcases h with rfl | rfl | rfl | rfl | rfl | rfl | rfl | rfl
  exacts [⟨.cfgErrLc, rfl⟩, ⟨.cfgErrPk, rfl⟩, ⟨.cfgErrHc, rfl⟩, ⟨.ovr .L, rfl⟩, ⟨.ovr .R, rfl⟩, ⟨.protoErr, rfl⟩,
    ⟨.cmdErr, rfl⟩, ⟨.busErr, rfl⟩]

/-- The bit of STATUS at the code of a condition is its sticky bit, and no other flag's (R36). -/
theorem getLsbD_statusWord_code (s : State) (e : ErrorBit) : (statusWord s).getLsbD e.code = s.sticky.get e := by
  obtain ⟨-, -, hcode, -⟩ := statusBits s
  exact hcode e

/-- In STATUS a bit becomes 0 exactly where it is W1C and written as 1 (R114). -/
theorem statusWord_storeStatus (d : Word) (s : State) :
    statusWord (storeStatus d s) = statusWord s &&& ~~~(d &&& 0x00007370#32) := by
  apply BitVec.eq_of_getLsbD_eq
  intro i hi
  rw [BitVec.getLsbD_and, BitVec.getLsbD_not, BitVec.getLsbD_and]
  by_cases hmem : i ∈ [4, 5, 6, 8, 9, 12, 13, 14]
  · obtain ⟨e, rfl⟩ := exists_code_of_mem hmem
    rw [getLsbD_statusWord_code, getLsbD_statusWord_code, (getLsbD_w1cMask_iff _).2 hmem, storeStatus,
      Sticky.get_writeOneToClear, decide_eq_true hi, Bool.true_and, Bool.and_true]
  · have hkept : (0x00007370#32).getLsbD i = false := by rwa [← Bool.not_eq_true, getLsbD_w1cMask_iff]
    rw [getLsbD_statusWord, getLsbD_statusWord, getLsbD_sticky_word_of_not_mem _ hmem,
      getLsbD_sticky_word_of_not_mem _ hmem, hkept, decide_eq_true hi, Bool.and_false, Bool.not_false, Bool.and_true,
      Bool.and_true]
    rfl

/-! The statements. -/

/-- Settles O11: a mapped offset names one location, and a response does not change the word there. -/
theorem rdAnswersTheWord : Obligations.RdAnswersTheWord := by
  intro off s
  refine ⟨fun a ha => ⟨exec_rd_of_locate s ha, ?again⟩, exec_rd_of_unmapped s⟩
  case again =>
    have hread := exec_rd_of_locate (respond { rdata := readLoc s a, err := false } s) ha
    rwa [readLoc_respond] at hread

/-- Settles O16: both are the effect of the location, acknowledged. -/
theorem wrIsItsRow : Obligations.WrIsItsRow := by
  intro off d s
  refine ⟨fun hmapped => ?_, fun hunmapped => exec_wr_of_unmapped s hunmapped d⟩
  obtain ⟨a, ha⟩ := Option.isSome_iff_exists.1 hmapped
  exact ⟨_, exec_wr_of_locate s ha d, exec_decodeWrite ha d s, _, ack_ctrlOut _⟩

/-- Settles O18: the sticky bits are the W1C bits, and each is cleared where it is written as 1. -/
theorem wrStatusClearsWrittenOnes : Obligations.WrStatusClearsWrittenOnes :=
  fun d s => ⟨ack (storeStatus d s), rfl, statusWord_storeStatus d s, rfl⟩

/-- Settles O17, by the word that CTRL then reads. -/
theorem wrCtrlStoresTwoBits : Obligations.WrCtrlStoresTwoBits :=
  fun d s => ⟨ack (storeCtrl d s), rfl, Ctrl.word_ofWord d, rfl, rfl, rfl⟩

/-- Settles O19: each register's row is the store of its field. -/
theorem wrBinary32StoresWord : Obligations.WrBinary32StoresWord :=
  fun _ _ => ⟨rfl, rfl, rfl, rfl, rfl, rfl, rfl⟩

/-- Settles O20, by the word that MODE then reads. -/
theorem wrModeStoresLegalBits : Obligations.WrModeStoresLegalBits :=
  fun d s => ⟨ack (storeMode d s), rfl, Mode.word_ofWord d, rfl⟩

/-- Settles O21: the write of a read-only location is the identity, and the response is not seen there. -/
theorem ignoredWrites : Obligations.IgnoredWrites := by
  intro off d s
  refine ⟨fun a ha hreadOnly => ⟨rfl, ?general, readLoc_respond _ s a⟩, rfl⟩
  case general =>
    rw [exec_wr_of_locate s ha, writeLoc_readOnly hreadOnly]
    rfl

/-- Settles O22: an undefined command word raises CMD_ERR, and an illegal request is the error response. -/
theorem reservedAndIllegalRequests : Obligations.ReservedAndIllegalRequests := by
  refine ⟨fun w s hreserved => ⟨rfl, ?general⟩, fun _ _ _ _ _ _ => rfl⟩
  case general =>
    have hundefined : w ∉ definedCommands := by simpa [Instr.wellFormed] using hreserved
    rw [exec_wr_of_locate s (by decide : locate 0x0014#16 = some .cmd), writeLoc,
      performCommand_of_not_defined hundefined]
    rfl

end Sys2Proof.Machine
end

section
/-! The commands (R119..R123): what COMMIT, PREPARE, SPEC_ACQ and the reset event leave. -/

namespace Sys2Proof.Machine

/-! PREPARE. -/

/-- PREPARE leaves no history in a channel (R121). -/
theorem Chan.historyCleared_clearHistory (x : Chan) : x.clearHistory.historyCleared = true := by
  simp [Chan.historyCleared, Chan.clearHistory]

/-- PREPARE launches from the staged settings (R263). -/
theorem afterPrepare_prepareStream (s : State) : (prepareStream s).afterPrepare s.staged = true := by
  simp [State.afterPrepare, prepareStream, commitSettings, Chan.historyCleared_clearHistory]

theorem prepareStream_chan (s : State) (c : Channel) : (prepareStream s).chan c = (s.chan c).clearHistory := by
  cases c <;> rfl

/-! SPEC_ACQ. -/

theorem Spectrum.acquire_of_avail {o : Spectrum} (h : o.avail ≠ 0#32) :
    o.acquire = { o with acq := o.pub, acqGen := o.gen, avail := 0#32 } := if_neg h

theorem Spectrum.acquire_of_no_avail {o : Spectrum} (h : o.avail = 0#32) : o.acquire = o := if_pos h

/-- After an acquire nothing is new (R203). -/
@[simp] theorem Spectrum.acquire_avail (o : Spectrum) : o.acquire.avail = 0#32 := by
  by_cases h : o.avail = 0#32
  · rw [acquire_of_no_avail h, h]
  · rw [acquire_of_avail h]

theorem Spectrum.acquire_acquire (o : Spectrum) : o.acquire.acquire = o.acquire :=
  acquire_of_no_avail o.acquire_avail

/-- What is published is new, so an acquire shows it (R201, R203). -/
theorem Spectrum.acquire_publish (o : Spectrum) (bins : List Word) :
    (o.publish bins).acquire =
      { o with
        gen := wrapInc o.gen, pub := Memory.writeAll [] 0 bins
        acq := Memory.writeAll [] 0 bins, acqGen := wrapInc o.gen, avail := 0#32 } :=
  acquire_of_avail (o.publish_avail_ne bins)

/-- The words of a list written to an empty memory are read back. -/
theorem Memory.read_writeAll_nil (bins : List Word) {k : Nat} (hk : k < bins.length) :
    (Memory.writeAll [] 0 bins).read k = bins.getD k 0#32 := by
  rw [Memory.read_writeAll Memory.canonical_nil, if_pos (by omega), Nat.sub_zero]

/-! The reset event. -/

/-- The reset event does not see the response that is given with it (R123). -/
theorem ack_resetEvent (s : State) : ack (resetEvent s) = resetEvent (ack s) := rfl

theorem Ctrl.word_reset : State.reset.ctrl.word = 0x00000001#32 := by decide

theorem statusWord_reset : statusWord State.reset = 0x00000001#32 := by decide

theorem Chan.actFlags_reset : Chan.reset.actFlags = 0#32 := by decide

theorem Mode.word_reset : Settings.reset.mode.word = 0#32 := by decide

theorem Chan.historyCleared_reset : Chan.reset.historyCleared = true := by decide

theorem Chan.afterReset_reset : Chan.reset.afterReset = true := by decide

/-- The reset event leaves the table of R244. -/
theorem atReset_resetEvent (s : State) : (resetEvent s).atReset := by
  refine ⟨rfl, rfl, rfl, Ctrl.word_reset, statusWord_reset, rfl, rfl, Chan.actFlags_reset, rfl, rfl, rfl, rfl, rfl, rfl,
    rfl, rfl, Mode.word_reset, rfl, rfl, rfl, fun e => ?sticky, fun c => ?channel⟩
  case sticky => rcases e with _ | _ | _ | ⟨_ | _⟩ | _ | _ | _ <;> rfl
  case channel =>
    rw [resetEvent_chan]
    exact ⟨fun i => by cases i <;> rfl, rfl, rfl, rfl, rfl, rfl, Chan.historyCleared_reset⟩

/-- The reset event leaves the state of R263 (AfterReset). -/
theorem afterReset_resetEvent (s : State) : (resetEvent s).afterReset = true := by
  simp only [State.afterReset, Bool.and_eq_true]
  exact ⟨⟨Chan.afterReset_reset, Chan.afterReset_reset⟩, beq_self_eq_true State.reset⟩

/-! The statements. -/

/-- Settles O23: a second COMMIT finds the committed settings and DIRTY as it leaves them. -/
theorem commitPublishesSettings : Obligations.CommitPublishesSettings :=
  fun s => ⟨ack (commitSettings s), rfl, rfl, rfl⟩

/-- Settles O24: each channel's history is cleared, and clearing it keeps the active state, the ring and acc. -/
theorem prepareClearsHistory : Obligations.PrepareClearsHistory := by
  intro s
  refine ⟨ack (prepareStream s), rfl, afterPrepare_prepareStream s, rfl, fun c => ?_⟩
  rw [ack_chan, prepareStream_chan]
  exact ⟨Chan.activeState_clearHistory _, rfl, rfl⟩

/-- Settles O25: the statement's `got` is `Spectrum.acquire`, which shows what was published and is idempotent. -/
theorem acquireNewest : Obligations.AcquireNewest := by
  intro s
  refine ⟨rfl, rfl, Spectrum.acquire_acquire, fun o bins k hk => ?_⟩
  change (o.publish bins).acquire.acq.read k = _ ∧ (o.publish bins).acquire.acqGen = _
  rw [Spectrum.acquire_publish]
  exact ⟨Memory.read_writeAll_nil bins hk, rfl⟩

/-- Settles O26: SOFT_RESET is the reset event of the acknowledged state. -/
theorem softResetRestoresReset : Obligations.SoftResetRestoresReset := by
  intro s
  refine ⟨⟨atReset_resetEvent s, afterReset_resetEvent s, rfl, rfl, rfl, rfl, rfl, rfl, rfl⟩,
    ack (resetEvent s), rfl, ?_⟩
  rw [ack_resetEvent]
  exact ⟨atReset_resetEvent _, afterReset_resetEvent _, rfl⟩

end Sys2Proof.Machine
end

section
/-! PROOFS. The coefficient refresh (R135..R146): when a stage is accepted, and what each stage leaves in its own
sections and its own enables, whatever the other stages do. -/

namespace Sys2Proof.Machine

/-! Validity (R136): the integer tests are the comparisons of the real values. -/

theorem two_zpow_scale_pos : (0 : ℝ) < 2 ^ (-149 : ℤ) := by positivity

theorem valReal_pos_iff (w : Word) : 0 < valReal w ↔ 0 < scaled w := by
  rw [valReal, mul_pos_iff_of_pos_right two_zpow_scale_pos, Int.cast_pos]

theorem two_mul_valReal_lt_iff (a b : Word) : 2 * valReal a < valReal b ↔ 2 * scaled a < scaled b := by
  rw [valReal, valReal, ← mul_assoc, mul_lt_mul_iff_left₀ two_zpow_scale_pos]
  exact_mod_cast Iff.rfl

/-- `valid_fs` is implied: a sample rate above 2 f is above 0. -/
theorem validCut_iff (fs f : Word) :
    validCut fs f = true ↔
      isFinite fs = true ∧ isFinite f = true ∧ 0 < valReal f ∧ 2 * valReal f < valReal fs := by
  simp only [validCut, validFs, Bool.and_eq_true, decide_eq_true_eq, valReal_pos_iff, two_mul_valReal_lt_iff]
  constructor
  · rintro ⟨⟨⟨⟨hfs, -⟩, hf⟩, hpos⟩, hlt⟩
    exact ⟨hfs, hf, hpos, hlt⟩
  · rintro ⟨hfs, hf, hpos, hlt⟩
    exact ⟨⟨⟨⟨hfs, by omega⟩, hf⟩, hpos⟩, hlt⟩

theorem validPk_iff (fs f q g : Word) :
    validPk fs f q g = true ↔ validCut fs f = true ∧ isFinite q = true ∧ 0 < valReal q ∧ isFinite g = true := by
  simp only [validPk, Bool.and_eq_true, decide_eq_true_eq, valReal_pos_iff, and_assoc]

/-! What each stage is refreshed with (R136, R137). -/

/-- A cut stage is accepted: its inputs are valid, and every section its slope enables is designed finite. -/
def CutAccepted (fs f : Word) (i : BitVec 2) (design : Nat → Nat → Coefs) : Prop :=
  validCut fs f = true ∧ ∀ j, j < slopeSections i → coefsFinite (design (2 * slopeSections i) j) = true

section
variable {fs f : Word} {i : BitVec 2} {design : Nat → Nat → Coefs}

theorem cutStage_of_accepted (h : CutAccepted fs f i design) :
    cutStage fs f i design = some ((List.range (slopeSections i)).map (design (2 * slopeSections i))) := by
  obtain ⟨hvalid, hfinite⟩ := h
  refine if_pos ?_
  simpa [hvalid] using hfinite

theorem cutStage_of_not_accepted (h : ¬ CutAccepted fs f i design) : cutStage fs f i design = none := by
  refine if_neg fun hstage => h ?_
  simpa [CutAccepted] using hstage

end

theorem peakStage_of_accepted {k : Settings} (hvalid : validPk k.sr k.pkFreq k.pkQ k.pkGain = true)
    (hfinite : coefsFinite (Config.calcPeak k.sr k.pkFreq k.pkQ k.pkGain) = true) :
    peakStage k = some (Config.calcPeak k.sr k.pkFreq k.pkQ k.pkGain) :=
  if_pos (by simp [hvalid, hfinite])

theorem peakStage_of_not_accepted {k : Settings}
    (h : ¬ (validPk k.sr k.pkFreq k.pkQ k.pkGain = true ∧
      coefsFinite (Config.calcPeak k.sr k.pkFreq k.pkQ k.pkGain) = true)) :
    peakStage k = none :=
  if_neg fun hstage => h (by simpa using hstage)

theorem getLsbD_slopeEnables (i : BitVec 2) {j : Nat} (hj : j < 4) :
    (slopeEnables i).getLsbD j = decide (j ≤ i.toNat) := by
  rw [slopeEnables, slopeSections, BitVec.getLsbD_ofNat, Nat.testBit_two_pow_sub_one]
  simp [hj]

/-! One stage of a cascade. -/

/-- The sections of one stage after a refresh: a rejected stage keeps them (R136). -/
def Cascade.setStage (k : Cascade) (is : List SecId) (stage : Option (List Coefs)) : Cascade :=
  stage.elim k (k.setCoefs is)

theorem Cascade.get_setStage_of_not_mem (k : Cascade) {is : List SecId} (stage : Option (List Coefs)) {i : SecId}
    (h : i ∉ is) : (k.setStage is stage).get i = k.get i := by
  cases stage with
  | none => rfl
  | some cs => exact k.get_setCoefs_of_not_mem cs h

/-- A section after new coefficients depends on no other section. -/
theorem Cascade.get_setCoefs_congr {k k' : Cascade} {i : SecId} (h : k.get i = k'.get i) (is : List SecId)
    (cs : List Coefs) : (k.setCoefs is cs).get i = (k'.setCoefs is cs).get i := by
  induction is generalizing k k' cs with
  | nil => exact h
  | cons j is ih =>
    cases cs with
    | nil => exact h
    | cons c cs =>
      refine ih ?_ cs
      rw [Cascade.setCoef, Cascade.setCoef, Cascade.get_set, Cascade.get_set]
      split
      next hij => rw [← hij, h]
      next => exact h

theorem Cascade.get_setStage_congr {k k' : Cascade} {i : SecId} (h : k.get i = k'.get i) (is : List SecId)
    (stage : Option (List Coefs)) : (k.setStage is stage).get i = (k'.setStage is stage).get i := by
  cases stage with
  | none => exact h
  | some cs => exact Cascade.get_setCoefs_congr h is cs

/-- The section at place `j` of a stage takes the coefficients at place `j`, where there are any (R137). -/
theorem Cascade.coef_setCoefs_getElem (k : Cascade) {is : List SecId} (hnodup : is.Nodup) (cs : List Coefs) {j : Nat}
    (hj : j < is.length) : ((k.setCoefs is cs).get is[j]).coef = cs.getD j (k.get is[j]).coef := by
  induction is generalizing k cs j with
  | nil => simp at hj
  | cons i is ih =>
    obtain ⟨hi, hrest⟩ := List.nodup_cons.1 hnodup
    cases cs with
    | nil => rfl
    | cons c cs =>
      cases j with
      | zero => simp [Cascade.setCoefs, Cascade.get_setCoefs_of_not_mem _ cs hi, Cascade.get_setCoef_coef]
      | succ j =>
        have hj' : j < is.length := Nat.lt_of_succ_lt_succ hj
        have hother : is[j] ≠ i := fun h => hi (h ▸ List.getElem_mem hj')
        simp [Cascade.setCoefs, ih (k.setCoef i c) hrest cs hj', Cascade.get_setCoef_coef, hother]

/-- An accepted cut stage gives its first sections, up to its slope index, their designed coefficients (R137). -/
theorem Cascade.coef_setStage_of_accepted (k : Cascade) {is : List SecId} (hnodup : is.Nodup) {fs f : Word}
    {i : BitVec 2} {design : Nat → Nat → Coefs} (h : CutAccepted fs f i design) {j : Nat} (hj : j < is.length) :
    ((k.setStage is (cutStage fs f i design)).get is[j]).coef =
      if j ≤ i.toNat then design (2 * slopeSections i) j else (k.get is[j]).coef := by
  rw [cutStage_of_accepted h, Cascade.setStage, Option.elim_some, k.coef_setCoefs_getElem hnodup _ hj]
  by_cases hle : j ≤ i.toNat <;> simp [hle, slopeSections]

/-! The three stages of a channel. -/

section
variable (x : Chan) (k : Settings)

/-- The peak stage is a stage of one section. -/
theorem Chan.sec_refresh :
    (x.refresh k).sec =
      ((x.sec.setStage SecId.lowcut (lowcutStage k)).setStage [.pk] ((peakStage k).map fun p => [p])).setStage
        SecId.highcut (highcutStage k) := by
  rw [Chan.refresh_sec]
  cases lowcutStage k <;> cases peakStage k <;> cases highcutStage k <;> rfl

theorem Chan.get_refresh_of_lowcut {i : SecId} (h : i ∈ SecId.lowcut) :
    (x.refresh k).sec.get i = (x.sec.setStage SecId.lowcut (lowcutStage k)).get i := by
  have hpk : ∀ i ∈ SecId.lowcut, i ∉ [SecId.pk] := by decide
  have hhc : ∀ i ∈ SecId.lowcut, i ∉ SecId.highcut := by decide
  rw [Chan.sec_refresh, Cascade.get_setStage_of_not_mem _ _ (hhc i h), Cascade.get_setStage_of_not_mem _ _ (hpk i h)]

theorem Chan.get_refresh_pk :
    (x.refresh k).sec.get .pk = (x.sec.setStage [.pk] ((peakStage k).map fun p => [p])).get .pk := by
  rw [Chan.sec_refresh, Cascade.get_setStage_of_not_mem _ _ (by decide)]
  exact Cascade.get_setStage_congr (Cascade.get_setStage_of_not_mem _ _ (by decide)) _ _

theorem Chan.get_refresh_of_highcut {i : SecId} (h : i ∈ SecId.highcut) :
    (x.refresh k).sec.get i = (x.sec.setStage SecId.highcut (highcutStage k)).get i := by
  have hpk : ∀ i ∈ SecId.highcut, i ∉ [SecId.pk] := by decide
  have hlc : ∀ i ∈ SecId.highcut, i ∉ SecId.lowcut := by decide
  rw [Chan.sec_refresh]
  refine Cascade.get_setStage_congr ?_ _ _
  rw [Cascade.get_setStage_of_not_mem _ _ (hpk i h), Cascade.get_setStage_of_not_mem _ _ (hlc i h)]

theorem Chan.enLc_refresh :
    (x.refresh k).enLc = if (lowcutStage k).isSome then slopeEnables k.mode.lcSlope else x.enLc := by
  unfold Chan.refresh Chan.refreshLc Chan.refreshPk Chan.refreshHc
  cases lowcutStage k <;> cases peakStage k <;> cases highcutStage k <;> rfl

theorem Chan.enHc_refresh :
    (x.refresh k).enHc = if (highcutStage k).isSome then slopeEnables k.mode.hcSlope else x.enHc := by
  unfold Chan.refresh Chan.refreshLc Chan.refreshPk Chan.refreshHc
  cases lowcutStage k <;> cases peakStage k <;> cases highcutStage k <;> rfl

theorem Chan.fifo_refresh : (x.refresh k).fifo = x.fifo := by rw [Chan.refresh_frame]

theorem Chan.ana_refresh : (x.refresh k).ana = x.ana := by rw [Chan.refresh_frame]

theorem Chan.spec_refresh : (x.refresh k).spec = x.spec := by rw [Chan.refresh_frame]

end

/-! The state. -/

section
variable (f : Sticky) (k : Settings)

@[simp] theorem Sticky.cfgErrLc_refresh :
    (f.refresh k).cfgErrLc = (f.cfgErrLc || (lowcutStage k).isNone) := rfl

@[simp] theorem Sticky.cfgErrPk_refresh :
    (f.refresh k).cfgErrPk = (f.cfgErrPk || (peakStage k).isNone) := rfl

@[simp] theorem Sticky.cfgErrHc_refresh :
    (f.refresh k).cfgErrHc = (f.cfgErrHc || (highcutStage k).isNone) := rfl

end

@[simp] theorem refresh_chan (s : State) (c : Channel) : (refresh s).chan c = (s.chan c).refresh s.committed := by
  cases c <;> rfl

@[simp] theorem refresh_sticky (s : State) : (refresh s).sticky = s.sticky.refresh s.committed := rfl

theorem State.chan_withCommitted (s : State) (k : Settings) (c : Channel) :
    State.chan { s with committed := k } c = s.chan c := by
  cases c <;> rfl

/-! The statements. -/

/-- Settles O34: both sides scale by 2^-149. -/
theorem validityTests : Obligations.ValidityTests :=
  fun fs f q g => ⟨validCut_iff fs f, validPk_iff fs f q g⟩

/-- Settles O32: each cut stage is refreshed in its own sections alone, and is either accepted or rejected. -/
theorem refreshCutStages : Obligations.RefreshCutStages := by
  intro s c j hj k lc hc t lowOk highOk
  have hlc : (t.chan c).sec.get lc = ((s.chan c).sec.setStage SecId.lowcut (lowcutStage k)).get lc := by
    rw [refresh_chan, Chan.get_refresh_of_lowcut _ _ (List.getElem_mem hj)]
  have hhc : (t.chan c).sec.get hc = ((s.chan c).sec.setStage SecId.highcut (highcutStage k)).get hc := by
    rw [refresh_chan, Chan.get_refresh_of_highcut _ _ (List.getElem_mem hj)]
  rw [hlc, hhc, refresh_chan, Chan.enLc_refresh, Chan.enHc_refresh, refresh_sticky]
  refine ⟨fun h => ?lowAccepted, fun h => ?lowRejected, fun h => ?highAccepted, fun h => ?highRejected⟩
  case lowAccepted =>
    have hstage : lowcutStage k = some _ := cutStage_of_accepted h
    exact ⟨by simp [hstage, k, getLsbD_slopeEnables _ hj],
      Cascade.coef_setStage_of_accepted _ (by decide) h hj, by simp [hstage, k]⟩
  case lowRejected =>
    have hstage : lowcutStage k = none := cutStage_of_not_accepted h
    exact ⟨by simp [hstage, k], by rw [hstage]; rfl, by simp [hstage, k]⟩
  case highAccepted =>
    have hstage : highcutStage k = some _ := cutStage_of_accepted h
    exact ⟨by simp [hstage, k, getLsbD_slopeEnables _ hj],
      Cascade.coef_setStage_of_accepted _ (by decide) h hj, by simp [hstage, k]⟩
  case highRejected =>
    have hstage : highcutStage k = none := cutStage_of_not_accepted h
    exact ⟨by simp [hstage, k], by rw [hstage]; rfl, by simp [hstage, k]⟩

/-- Settles O33: the peak stage is the one between the cut stages, and each part has its own law above. -/
theorem refreshPeakAndFlags : Obligations.RefreshPeakAndFlags := by
  intro s c k t p ok
  have hpk : (t.chan c).sec.pk = ((s.chan c).sec.setStage [.pk] ((peakStage k).map fun p => [p])).pk := by
    rw [refresh_chan]
    exact Chan.get_refresh_pk _ _
  rw [hpk, refresh_chan, refresh_sticky]
  refine ⟨fun ⟨hvalid, hfinite⟩ => ?accepted, fun h => ?rejected, rfl, rfl, rfl, rfl, Chan.refresh_state _ k,
    Chan.fifo_refresh _ k, Chan.ana_refresh _ k, Chan.spec_refresh _ k, rfl⟩
  case accepted =>
    have hstage : peakStage k = some p := peakStage_of_accepted hvalid hfinite
    exact ⟨by rw [hstage]; rfl, by simp [hstage, k]⟩
  case rejected =>
    have hstage : peakStage k = none := peakStage_of_not_accepted h
    exact ⟨by rw [hstage]; rfl, by simp [hstage, k]⟩

/-- Settles O35: a cut stage's own sections, enables and error bit are functions of that stage alone, and the stage
reads no other frequency. -/
theorem stagesUseOwnFrequency : Obligations.StagesUseOwnFrequency := by
  intro s f c lowChanged highChanged
  have hhigh : highcutStage { s.committed with lcFreq := f } = highcutStage s.committed := rfl
  have hlow : lowcutStage { s.committed with hcFreq := f } = lowcutStage s.committed := rfl
  simp only [lowChanged, highChanged, refresh_chan, State.chan_withCommitted, refresh_sticky, Chan.enLc_refresh,
    Sticky.cfgErrLc_refresh, Sticky.cfgErrHc_refresh, Chan.enHc_refresh, hhigh, hlow, true_and, and_true]
  refine ⟨fun i hi => ?_, fun i hi => ?_⟩
  · rw [Chan.get_refresh_of_highcut _ _ hi, Chan.get_refresh_of_highcut _ _ hi, hhigh]
  · rw [Chan.get_refresh_of_lowcut _ _ hi, Chan.get_refresh_of_lowcut _ _ hi, hlow]

end Sys2Proof.Machine
end

section
/-! PROOFS. The reference peak section at 0 dB (R138, R144). -/

namespace Sys2Proof.Machine

theorem b32_one : b32 1 = 0x3F800000#32 := by
  have h := b32_dyadic (z := 2 ^ 149) (by norm_num) 0
  have hone : ((2 ^ 149 : ℤ) : ℝ) * 2 ^ (-(149 + (0 : ℕ) : ℤ)) = 1 := by norm_num
  rw [hone] at h
  rw [h]
  decide +kernel

theorem valReal_zero : valReal 0#32 = 0 := by simp [valReal, scaled_of_isZero (by decide : isZero 0#32 = true)]

theorem linearGain_zero : linearGain 0 = 1 := by simp [linearGain]

/-- With the frequency clamped at 2 Hz and a sample rate of at least twice that, the peak's angle does not pass π. -/
theorem sin_peakAngle_nonneg {sr f : ℝ} (hsr : 4 ≤ sr) (hf : 2 * f < sr) :
    0 ≤ Real.sin (2 * Real.pi * max f 2 / sr) := by
  have hclamp : 2 * max f 2 ≤ sr := by
    rcases max_choice f 2 with h | h <;> rw [h] <;> linarith
  have hpos : 0 < sr := by linarith
  refine Real.sin_nonneg_of_nonneg_of_le_pi (by positivity) ?_
  rw [div_le_iff₀ hpos]
  calc 2 * Real.pi * max f 2 = Real.pi * (2 * max f 2) := by ring
    _ ≤ Real.pi * sr := mul_le_mul_of_nonneg_left hclamp Real.pi_nonneg

/-- Settles O43: at 0 dB the amplitude A is 1, so the numerator is the denominator, and alpha ≥ 0 keeps A0 above 0. -/
theorem referencePeakAtZeroDb : Obligations.ReferencePeakAtZeroDb := by
  intro sr f q hvalid hsr
  obtain ⟨hcut, -, hq, -⟩ := (validPk_iff sr f q 0#32).1 hvalid
  obtain ⟨-, -, -, hf⟩ := (validCut_iff sr f).1 hcut
  have halpha : 0 ≤ Real.sin (2 * Real.pi * max (valReal f) 2 / valReal sr) / (2 * valReal q) :=
    div_nonneg (sin_peakAngle_nonneg hsr hf) (mul_pos two_pos hq).le
  have ha0 := (add_pos_of_pos_of_nonneg one_pos halpha).ne'
  simp only [refPeak, valReal_zero, linearGain_zero, Real.sqrt_one, div_one, mul_one, if_neg ha0, div_self ha0, b32_one]
  exact ⟨_, rfl, rfl, rfl, rfl⟩

end Sys2Proof.Machine
end

section
/-! PROOFS. The cascade (R147, R148): one position of it, the draws of a chain, the sections it does not touch. -/

namespace Sys2Proof.Machine

/-! One position of the cascade. -/

theorem Lane.stage_of_active {act : SecId → Bool} {i : SecId} (h : act i = true) (d : Denorm) (a : Lane) :
    a.stage act d i =
      { v := (biquad d a.draws (a.sec.get i) a.v).1
        sec := a.sec.set i (biquad d a.draws (a.sec.get i) a.v).2
        draws := a.draws + biquadOps } :=
  if_pos h

theorem Lane.stage_of_inactive {act : SecId → Bool} {i : SecId} (h : act i = false) (d : Denorm) (a : Lane) :
    a.stage act d i = a :=
  if_neg (by simp [h])

/-- The draws of a stretch of the cascade depend on which of its sections are active, and on nothing else (log 4). -/
theorem Lane.draws_foldl_stage (act : SecId → Bool) (d : Denorm) (is : List SecId) (a : Lane) :
    (is.foldl (Lane.stage act d) a).draws = a.draws + is.countP act * biquadOps := by
  induction is generalizing a with
  | nil => simp
  | cons i is ih =>
    rw [List.foldl_cons, ih]
    cases h : act i with
    | true =>
      rw [Lane.stage_of_active h, List.countP_cons_of_pos h, Nat.succ_mul, Nat.add_assoc, Nat.add_comm biquadOps]
    | false => rw [Lane.stage_of_inactive h, List.countP_cons_of_neg (by simp [h])]

theorem Chan.draws_chain (x : Chan) (d : Denorm) (n : Nat) (w : Word) :
    (x.chain d n w).draws = n + SecId.order.countP x.active * biquadOps :=
  Lane.draws_foldl_stage _ _ _ _

theorem Chan.get_chain_of_inactive (x : Chan) (d : Denorm) (n : Nat) (w : Word) {i : SecId} (h : x.active i = false) :
    (x.chain d n w).sec.get i = x.sec.get i :=
  Chan.chain_induction (P := fun a => a.sec.get i = x.sec.get i) x d n w rfl
    fun a j hkeep => ((Lane.stage_sec x.active d a j i).2 h).trans hkeep

theorem Chan.chain_of_all_inactive (x : Chan) (d : Denorm) (n : Nat) (w : Word) (h : ∀ i, x.active i = false) :
    x.chain d n w = { v := w, sec := x.sec, draws := n } :=
  Chan.chain_induction (P := (· = { v := w, sec := x.sec, draws := n })) x d n w rfl
    fun a i hkeep => (Lane.stage_of_inactive (h i) d a).trans hkeep

/-! The statements about the cascade. -/

/-- Settles O36, with the draws of log 4. -/
theorem biquadOperations : Obligations.BiquadOperations :=
  fun _ n _ _ => ⟨n, n + 1, n + 2, n + 3, n + 4, n + 5, n + 6, n + 7, n + 8, by simp, rfl⟩

/-- Settles O37: the cascade is a fold over the order of the sections, and each position has its law above. -/
theorem inactiveSectionsSkipped : Obligations.InactiveSectionsSkipped := by
  intro x d n w
  refine ⟨⟨rfl, rfl, rfl, rfl, rfl, rfl, rfl, rfl, rfl⟩, ?_, x.coef_chain d n w,
    fun _ h => x.get_chain_of_inactive d n w h, x.chain_of_all_inactive d n w⟩
  intro run
  have hrun : run = fun i a => a.stage x.active d i := rfl
  rw [hrun]
  rfl

end Sys2Proof.Machine
end

section
/-! PROOFS. The identity section (R150): its operations are exact on finite words, and a NaN or an infinity times zero
makes NaN state words (R15, R17). -/

namespace Sys2Proof.Machine

/-! Rounding gives a finite word back (R13). -/

/-- The significand of a word, in units of its last place, which is 2^(exponent - 1) units of `magnitude`. -/
def significand (w : Word) : Nat := if expField w = 0 then fracField w else 2 ^ 23 + fracField w

theorem magnitude_eq_significand (w : Word) : magnitude w = significand w * 2 ^ (expField w - 1) := by
  unfold magnitude significand
  split <;> simp_all

/-- The 31 lower bits of a word, from its exponent and its significand. -/
theorem toNat_mod_eq_significand (w : Word) :
    w.toNat % 2 ^ 31 = (expField w - 1) * 2 ^ 23 + significand w := by
  unfold significand
  rw [expField_eq_mod, fracField_eq_mod]
  split <;> omega

theorem pack_signBit_toNat_mod (w : Word) : pack (signBit w) (w.toNat % 2 ^ 31) = w := by
  apply BitVec.eq_of_toNat_eq
  rw [toNat_pack _ (Nat.mod_lt _ (by decide)), signBit_eq_decide]
  have hlt := w.isLt
  by_cases h : 2 ^ 31 ≤ w.toNat
  · rw [decide_eq_true h, if_pos rfl]
    omega
  · rw [decide_eq_false h, if_neg Bool.false_ne_true]
    omega

theorem roundShift_mul_two_pow (q d : Nat) : roundShift (q * 2 ^ d) d = q := by
  have hpos : 0 < 2 ^ d := Nat.two_pow_pos d
  rw [roundShift, Nat.mul_div_cancel _ hpos, Nat.mul_mod_left, if_neg (by omega), Nat.add_zero]

/-- A magnitude scaled up by `sh` bits has its last place where its exponent says. -/
theorem dropBits_magnitude {w : Word} (sh : Nat) (h : significand w ≠ 0) :
    dropBits (magnitude w * 2 ^ sh) sh = expField w - 1 + sh := by
  have hfrac : fracField w < 2 ^ 23 := by rw [fracField_eq_mod]; exact Nat.mod_lt _ (by decide)
  have hbelow : significand w < 2 ^ 24 := by unfold significand; split <;> omega
  rw [magnitude_eq_significand, Nat.mul_assoc, ← pow_add, dropBits]
  generalize hD : expField w - 1 + sh = D
  have hne : significand w * 2 ^ D ≠ 0 := Nat.mul_ne_zero h (Nat.two_pow_pos D).ne'
  have hlt : (significand w * 2 ^ D).log2 < 24 + D := by
    rw [Nat.log2_lt hne, pow_add]
    exact Nat.mul_lt_mul_of_pos_right hbelow (Nat.two_pow_pos D)
  by_cases hexp : expField w = 0
  · omega
  · have hge : 23 + D ≤ (significand w * 2 ^ D).log2 := by
      rw [Nat.le_log2 hne, pow_add]
      exact Nat.mul_le_mul_right _ (by rw [significand, if_neg hexp]; omega)
    omega

/-- Rounding a finite magnitude that fits already gives its own bits back (R13). -/
theorem roundMag_magnitude {w : Word} (hw : isFinite w = true) (sh : Nat) :
    roundMag (magnitude w * 2 ^ sh) sh = w.toNat % 2 ^ 31 := by
  have hexp : expField w ≤ 254 := by
    have hne : expField w ≠ 255 := by simpa [isFinite] using hw
    have hlt : expField w < 2 ^ 8 := (w.extractLsb' 23 8).isLt
    omega
  have hfrac : fracField w < 2 ^ 23 := (w.extractLsb' 0 23).isLt
  have hbits := toNat_mod_eq_significand w
  have hsmall : w.toNat % 2 ^ 31 ≤ 0x7F800000 := by
    rw [hbits, significand]
    split <;> omega
  by_cases h : significand w = 0
  · have hzero : expField w = 0 := by
      by_contra hne
      rw [significand, if_neg hne] at h
      omega
    rw [hbits, magnitude_eq_significand, h, hzero]
    simp
  · rw [roundMag_eq, dropBits_magnitude sh h, Nat.add_sub_cancel, magnitude_eq_significand, Nat.mul_assoc, ← pow_add,
      roundShift_mul_two_pow, ← hbits, Nat.min_eq_left hsmall]

theorem pack_roundMag_magnitude {w : Word} (hw : isFinite w = true) (sh : Nat) :
    pack (signBit w) (roundMag (magnitude w * 2 ^ sh) sh) = w := by
  rw [roundMag_magnitude hw, pack_signBit_toNat_mod]

/-! The operations of the identity section (R150). -/

theorem flush_flush (d : Denorm) (w : Word) : flush d (flush d w) = flush d w := by
  cases d with
  | ieee => rfl
  | ftzDaz => exact flush_of_not_subnormal _ (isSubnormal_flush_ftzDaz w)

theorem isZero_zero : isZero 0#32 = true := by decide

theorem isSubnormal_one : isSubnormal 0x3F800000#32 = false := by decide

theorem eq_signed_zero_of_isZero {w : Word} (h : isZero w = true) : w = pack (signBit w) 0 := by
  have hbits : w.toNat % 2 ^ 31 = 0 := by
    have hmag := roundMag_magnitude (isFinite_of_isZero h) 0
    rwa [magnitude_of_isZero h, Nat.zero_mul, roundMag_zero, eq_comm] at hmag
  rw [← hbits, pack_signBit_toNat_mod]

theorem scaled_eq_zero_iff (w : Word) : scaled w = 0 ↔ isZero w = true := by
  refine ⟨fun h => ?_, scaled_of_isZero⟩
  have hmag : magnitude w = 0 := by
    unfold scaled at h
    split at h <;> omega
  unfold magnitude at hmag
  split at hmag
  · simp_all [isZero]
  · simp at hmag

theorem scaled_lt_zero_iff {w : Word} (h : scaled w ≠ 0) : scaled w < 0 ↔ signBit w = true := by
  unfold scaled at h ⊢
  split <;> simp_all
  omega

section
variable (d : Denorm) (n : Nat) {x : Word}

/-- A finite word times 1.0 is the word, flushed as an operand. -/
theorem fmul_one (hx : isFinite x = true) : fmul d n x 0x3F800000#32 = flush d x := by
  have hx' : isFinite (flush d x) = true := by rwa [isFinite_flush]
  have hone : magnitude 0x3F800000#32 = 2 ^ 149 := by decide +kernel
  have hsign : (signBit (flush d x) != signBit 0x3F800000#32) = signBit (flush d x) := Bool.bne_false _
  rw [fmul, flush_of_not_subnormal d isSubnormal_one, mulFlushed_finite d n hx' (by decide), hone, hsign,
    pack_roundMag_magnitude hx', flush_flush]

/-- A finite word times +0.0 is the zero of its sign. -/
theorem fmul_zero (hx : isFinite x = true) : fmul d n x 0#32 = pack (signBit x) 0 := by
  have hx' : isFinite (flush d x) = true := by rwa [isFinite_flush]
  rw [fmul, flush_of_isZero d isZero_zero, mulFlushed_finite d n hx' (by decide),
    magnitude_of_isZero isZero_zero, Nat.mul_zero, roundMag_zero, flush_pack_zero, signBit_flush]
  exact congrArg (pack · 0) (Bool.bne_false _)

theorem isZero_pack_zero (neg : Bool) : isZero (pack neg 0) = true := by cases neg <;> decide

/-- The sum of two zeros is -0.0 only where both are. -/
theorem fadd_signed_zeros (s t : Bool) : fadd d n (pack s 0) (pack t 0) = pack (s && t) 0 := by
  have hs := isZero_pack_zero s
  have ht := isZero_pack_zero t
  rw [fadd, flush_pack_zero, flush_pack_zero, addFlushed_finite d n (isFinite_of_isZero hs) (isFinite_of_isZero ht),
    if_pos (by rw [scaled_of_isZero hs, scaled_of_isZero ht, add_zero]), signBit_pack _ (by decide),
    signBit_pack _ (by decide)]

theorem fsub_signed_zeros (s t : Bool) : fsub d n (pack s 0) (pack t 0) = pack (s && !t) 0 := by
  rw [fsub, fneg_pack_zero, fadd_signed_zeros]

/-- A finite word plus +0.0 is the word, flushed as an operand, but for -0.0. -/
theorem fadd_zero_of_not_isZero (hx : isFinite x = true) (hzero : isZero (flush d x) = false) :
    fadd d n x 0#32 = flush d x := by
  have hx' : isFinite (flush d x) = true := by rwa [isFinite_flush]
  have hne : scaled (flush d x) ≠ 0 := by rw [Ne, scaled_eq_zero_iff, hzero]; exact Bool.false_ne_true
  have hsign : decide (scaled (flush d x) < 0) = signBit (flush d x) := by
    rw [Bool.eq_iff_iff, decide_eq_true_iff, scaled_lt_zero_iff hne]
  have hmag := pack_roundMag_magnitude hx' 0
  rw [pow_zero, Nat.mul_one] at hmag
  rw [fadd, flush_of_isZero d isZero_zero, addFlushed_finite d n hx' (by decide),
    scaled_of_isZero isZero_zero, add_zero, if_neg hne, hsign, natAbs_scaled, hmag, flush_flush]

/-- The output of the identity section is its input, flushed as an operand, but that -0.0 becomes +0.0. -/
theorem biquadOut_reset (hx : isFinite x = true) :
    biquadOut d n Section.reset x = if isZero (flush d x) then 0#32 else flush d x := by
  change fadd d (n + 1) (fmul d n x 0x3F800000#32) 0#32 = _
  rw [fmul_one d n hx]
  split
  next hzero =>
    rw [eq_signed_zero_of_isZero hzero]
    exact (fadd_signed_zeros d (n + 1) _ false).trans (by rw [Bool.and_false]; rfl)
  next hzero =>
    rw [fadd_zero_of_not_isZero d (n + 1) (by rwa [isFinite_flush]) (by rwa [flush_flush, ← Bool.not_eq_true]),
      flush_flush]

/-- The state words that the identity section takes from zero state: all its products are zeros. -/
theorem biquad_reset {out : Word} (hx : isFinite x = true) (hout : biquadOut d n Section.reset x = out)
    (hfin : isFinite out = true) :
    biquad d n Section.reset x =
      (out, { Section.reset with s1 := 0#32, s2 := pack (signBit x && !signBit out) 0 }) := by
  have hs1 : biquadS1 d n Section.reset x out = 0#32 := by
    change fadd d _ (fsub d _ (fmul d _ x 0#32) (fmul d _ out 0#32)) (pack false 0) = _
    rw [fmul_zero d _ hx, fmul_zero d _ hfin, fsub_signed_zeros, fadd_signed_zeros, Bool.and_false]
    rfl
  have hs2 : biquadS2 d n Section.reset x out = pack (signBit x && !signBit out) 0 := by
    change fsub d _ (fmul d _ x 0#32) (fmul d _ out 0#32) = _
    rw [fmul_zero d _ hx, fmul_zero d _ hfin, fsub_signed_zeros]
  simp only [biquad, hout, hs1, hs2]

/-! What is a NaN stays one (R17). -/

variable {a b : Word}

theorem isNaN_fadd (h : isNaN a = true ∨ isNaN b = true) : isNaN (fadd d n a b) = true := by
  rw [fadd, addFlushed_of_nan d n (h.imp (isNaN_flush d) (isNaN_flush d)), isNaN_nanDraw]

theorem isNaN_fmul (h : isNaN a = true ∨ isNaN b = true) : isNaN (fmul d n a b) = true := by
  rw [fmul, mulFlushed_of_nan d n (h.imp (isNaN_flush d) (isNaN_flush d)), isNaN_nanDraw]

theorem isNaN_fsub_left (h : isNaN a = true) : isNaN (fsub d n a b) = true := isNaN_fadd d n (.inl h)

/-- Where the products with b1 and b2 are NaN, so are both new state words. -/
theorem isNaN_biquad_state {q : Section} {out : Word} (hb1 : isNaN (fmul d (n + 2) x q.coef.b1) = true)
    (hb2 : isNaN (fmul d (n + 6) x q.coef.b2) = true) :
    isNaN (biquadS1 d n q x out) = true ∧ isNaN (biquadS2 d n q x out) = true :=
  ⟨isNaN_fadd d _ (.inl (isNaN_fsub_left d _ hb1)), isNaN_fsub_left d _ hb2⟩

theorem isNaN_biquad {q : Section} (hx : isNaN x = true) :
    isNaN (biquad d n q x).1 = true ∧ isNaN (biquad d n q x).2.s1 = true ∧ isNaN (biquad d n q x).2.s2 = true :=
  ⟨isNaN_fadd d _ (.inl (isNaN_fmul d _ (.inl hx))),
    isNaN_biquad_state d n (isNaN_fmul d _ (.inl hx)) (isNaN_fmul d _ (.inl hx))⟩

theorem isNaN_fmul_inf_zero : isNaN (fmul d n 0x7F800000#32 0#32) = true := by
  rw [fmul, flush_of_isInf d (by decide), flush_of_isZero d (by decide),
    mulFlushed_inf_zero d n (by decide) (by decide), isNaN_nanDraw]

theorem biquadOut_reset_inf : biquadOut d n Section.reset 0x7F800000#32 = 0x7F800000#32 := by
  change fadd d (n + 1) (fmul d n 0x7F800000#32 0x3F800000#32) 0#32 = _
  have hmul : fmul d n 0x7F800000#32 0x3F800000#32 = 0x7F800000#32 := by
    rw [fmul, flush_of_isInf d (by decide), flush_of_not_subnormal d isSubnormal_one,
      mulFlushed_inf_left d n (by decide) (by decide) (by decide)]
    decide
  rw [hmul, fadd, flush_of_isInf d (by decide), flush_of_isZero d isZero_zero,
    addFlushed_inf_left d _ (by decide) (by decide)]

end

/-! The statement. -/

/-- Settles O38: the section's words are exact on finite inputs, and the other inputs are cases of R15. -/
theorem identitySection : Obligations.IdentitySection := by
  intro d n x r
  refine ⟨fun hfin hneg hflush => ?finite, fun hx => ?negativeZero, fun hx => ?infinity, fun hx => ?nan,
    fun hsub hd => ?flushed⟩
  case finite =>
    have hid : flush d x = x := by
      rcases hflush with hnormal | rfl
      · exact flush_of_not_subnormal d hnormal
      · rfl
    have hout := biquadOut_reset d n hfin
    rw [hid] at hout
    split at hout
    next hzero =>
      have hx := eq_signed_zero_of_isZero hzero
      cases hs : signBit x <;> rw [hs] at hx
      · exact (biquad_reset d n hfin hout (by decide)).trans (by rw [hs, hx]; rfl)
      · exact absurd hx hneg
    next => exact (biquad_reset d n hfin hout hfin).trans (by rw [Bool.and_not_self]; rfl)
  case negativeZero =>
    subst hx
    have hout := biquadOut_reset d n (by decide : isFinite 0x80000000#32 = true)
    rw [flush_of_isZero d (by decide), if_pos (by decide)] at hout
    exact biquad_reset d n (by decide) hout (by decide)
  case infinity =>
    subst hx
    exact ⟨biquadOut_reset_inf d n, isNaN_biquad_state d n (isNaN_fmul_inf_zero d _) (isNaN_fmul_inf_zero d _)⟩
  case nan => exact isNaN_biquad d n hx
  case flushed =>
    subst hd
    have hfin : isFinite x = true := by simp_all [isSubnormal, isFinite]
    change biquadOut .ftzDaz n Section.reset x = 0#32
    rw [biquadOut_reset _ n hfin, flush_ftzDaz_of_subnormal hsub, if_pos (isZero_pack_zero _)]

end Sys2Proof.Machine
end

section
/-! PROOFS. The audio beats (R152..R157): what a block's end, a block's start and a frame do to one channel, the states
that the beats leave in terms of these, and the statements about framing. -/

namespace Sys2Proof.Machine

/-! A channel at the end of a block (R155). -/

/-- The channel after `end_block`: its active sections are snapped where `snaps`. -/
def Chan.closed (x : Chan) (snaps : Bool) : Chan := if snaps then x.snap else x

theorem closeBlock_eq_closed (s : State) :
    closeBlock s = { s with l := s.l.closed s.cfg.snapEn, r := s.r.closed s.cfg.snapEn, inBlock := false } :=
  closeBlock_eq s

section
variable (x : Chan) (snaps : Bool)

theorem Chan.closed_frame : x.closed snaps = { x with sec := (x.closed snaps).sec } := by
  cases snaps <;> rfl

theorem Chan.get_closed (i : SecId) :
    (x.closed snaps).sec.get i = if snaps && x.active i then (x.sec.get i).snap else x.sec.get i := by
  cases snaps with
  | false => rfl
  | true => simp [Chan.closed, Chan.snap]

@[simp] theorem Chan.activeState_closed : (x.closed snaps).activeState = x.activeState := by
  cases snaps with
  | false => rfl
  | true => exact x.activeState_snap

end

/-! A channel at the start of a block (R152). -/

/-- The channel after `begin_block`: refreshed where DIRTY was 1. -/
def Chan.opened (x : Chan) (dirty : Bool) (k : Settings) : Chan := if dirty then x.refresh k else x

theorem openBlock_eq_opened (s : State) :
    openBlock s =
      { s with
        dirty := false
        inBlock := true
        blkCnt := wrapInc s.blkCnt
        l := s.l.opened s.dirty s.committed
        r := s.r.opened s.dirty s.committed
        sticky := if s.dirty then s.sticky.refresh s.committed else s.sticky
        coefGen := if s.dirty then wrapInc s.coefGen else s.coefGen } :=
  openBlock_eq s

section
variable (x : Chan) (dirty : Bool) (k : Settings)

theorem Chan.opened_state (i : SecId) :
    ((x.opened dirty k).sec.get i).s1 = (x.sec.get i).s1 ∧ ((x.opened dirty k).sec.get i).s2 = (x.sec.get i).s2 := by
  cases dirty with
  | false => exact ⟨rfl, rfl⟩
  | true => exact x.refresh_state k i

theorem Chan.opened_rest :
    (x.opened dirty k).fifo = x.fifo ∧ (x.opened dirty k).ana = x.ana ∧ (x.opened dirty k).spec = x.spec := by
  cases dirty with
  | false => exact ⟨rfl, rfl, rfl⟩
  | true => exact ⟨x.fifo_refresh k, x.ana_refresh k, x.spec_refresh k⟩

end

/-! A channel in a frame (R154, R158). -/

/-- The channel after its lane of FRAME: `w` is its sample and `n` the index of its first draw. -/
def Chan.framed (x : Chan) (p : Params) (tap : Bool) (n : Nat) (w : Word) : Chan :=
  { x with
    sec := (x.chain p.denorm n w).sec
    fifo := x.fifo.accept p (if tap then w else (x.chain p.denorm n w).v) }

@[simp] theorem Chan.activeState_framed (x : Chan) (p : Params) (tap : Bool) (n : Nat) (w : Word) :
    (x.framed p tap n w).activeState = x.activeState :=
  Chan.activeState_of_coef (x.coef_chain p.denorm n w) rfl

/-- The sample of a channel in a frame. -/
def laneSample (xl xr : Word) : Channel → Word
  | .L => xl
  | .R => xr

/-- The index of a lane's first draw: the left lane's draws come first (log 4). -/
def State.laneDraws (s : State) (xl : Word) : Channel → Nat
  | .L => s.draws
  | .R => (s.l.chain s.cfg.denorm s.draws xl).draws

/-- The output word of a lane. -/
def State.laneOut (s : State) (xl xr : Word) (c : Channel) : Word :=
  ((s.chan c).chain s.cfg.denorm (s.laneDraws xl c) (laneSample xl xr c)).v

/-- The word a lane's FIFO takes, as CTRL.TAP selects (R154). -/
def State.laneTap (s : State) (xl xr : Word) (c : Channel) : Word :=
  if s.ctrl.tap then laneSample xl xr c else s.laneOut xl xr c

/-- All that a frame does. -/
theorem processFrame_eq (xl xr : Word) (s : State) :
    processFrame xl xr s =
      { s with
        l := s.l.framed s.cfg s.ctrl.tap (s.laneDraws xl .L) xl
        r := s.r.framed s.cfg s.ctrl.tap (s.laneDraws xl .R) xr
        audioOut := s.audioOut ++ [(s.laneOut xl xr .R ++ s.laneOut xl xr .L : BitVec 64)]
        sticky := { s.sticky with
          ovrL := s.sticky.ovrL || s.l.fifo.overruns s.cfg
          ovrR := s.sticky.ovrR || s.r.fifo.overruns s.cfg }
        frameCnt := wrapInc s.frameCnt
        draws := (s.r.chain s.cfg.denorm (s.laneDraws xl .R) xr).draws } := by
  simp only [processFrame, frameLane_eq]
  cases hl : s.l.fifo.overruns s.cfg <;> cases hr : s.r.fifo.overruns s.cfg <;>
    simp [hl, hr, Sticky.set, emit, Chan.framed, State.laneDraws, State.laneOut, laneSample]

theorem processFrame_chan (xl xr : Word) (s : State) (c : Channel) :
    (processFrame xl xr s).chan c =
      (s.chan c).framed s.cfg s.ctrl.tap (s.laneDraws xl c) (laneSample xl xr c) := by
  rw [processFrame_eq]
  cases c <;> rfl

theorem processFrame_audioOut (xl xr : Word) (s : State) :
    (processFrame xl xr s).audioOut =
      s.audioOut ++ [(s.laneOut xl xr .R ++ s.laneOut xl xr .L : BitVec 64)] := by
  rw [processFrame_eq]

/-! Beats. -/

/-- A block that is open is closed. -/
theorem close_if_inBlock_eq (s : State) :
    (if s.inBlock then closeBlock s else s) =
      { s with
        l := s.l.closed (s.inBlock && s.cfg.snapEn)
        r := s.r.closed (s.inBlock && s.cfg.snapEn)
        inBlock := false } := by
  rw [closeBlock_eq_closed]
  cases h : s.inBlock with
  | true => rfl
  | false =>
    have hs : s = { s with inBlock := false } := by rw [← h]
    exact hs

/-- The state after BEGIN: each channel is closed where a block is open, then refreshed where DIRTY was 1 (R152). -/
def beginState (s : State) : State :=
  let f := { s.sticky with protoErr := s.sticky.protoErr || s.inBlock }
  { s with
    l := (s.l.closed (s.inBlock && s.cfg.snapEn)).opened s.dirty s.committed
    r := (s.r.closed (s.inBlock && s.cfg.snapEn)).opened s.dirty s.committed
    sticky := if s.dirty then f.refresh s.committed else f
    coefGen := if s.dirty then wrapInc s.coefGen else s.coefGen
    dirty := false
    inBlock := true
    blkCnt := wrapInc s.blkCnt }

theorem exec_beginBlock (s : State) : exec .beginBlock s = .next (beginState s) := by
  change Host.Outcome.next (openBlock _) = _
  rw [openBlock_eq_opened, closeBlock_eq_closed]
  cases h : s.inBlock <;> simp [beginState, h, raise, Sticky.set, Chan.closed]

theorem beginState_chan (s : State) (c : Channel) :
    (beginState s).chan c = ((s.chan c).closed (s.inBlock && s.cfg.snapEn)).opened s.dirty s.committed := by
  cases c <;> rfl

/-- The state that a frame is performed in: the block that is open, or the one it opens with PROTO_ERR (R154). -/
def frameStart (s : State) : State := if s.inBlock then s else raise .protoErr (openBlock s)

theorem exec_frame (xl xr : Word) (s : State) :
    exec (.frame xl xr) s = .next (processFrame xl xr (frameStart s)) := rfl

theorem frameStart_of_inBlock {s : State} (h : s.inBlock = true) : frameStart s = s := if_pos h

theorem frameStart_of_not_inBlock {s : State} (h : s.inBlock = false) :
    frameStart s = raise .protoErr (openBlock s) :=
  if_neg (by simp [h])

theorem exec_endBlock_of_inBlock {s : State} (h : s.inBlock = true) : exec .endBlock s = .next (closeBlock s) :=
  congrArg Host.Outcome.next (if_pos h)

theorem exec_endBlock_of_not_inBlock {s : State} (h : s.inBlock = false) :
    exec .endBlock s = .next (raise .protoErr s) :=
  congrArg Host.Outcome.next (if_neg (by simp [h]))

theorem exec_beginBlock_of_inBlock {s : State} (h : s.inBlock = true) :
    exec .beginBlock s = .next (openBlock (raise .protoErr (closeBlock s))) :=
  congrArg (fun u => Host.Outcome.next (openBlock u)) (if_pos h)

theorem exec_beginBlock_of_not_inBlock {s : State} (h : s.inBlock = false) :
    exec .beginBlock s = .next (openBlock s) :=
  congrArg (fun u => Host.Outcome.next (openBlock u)) (if_neg (by simp [h]))

/-! The halves of an output beat (R103). -/

/-- The half of an output beat that is a channel's. -/
def laneHalf (beat : BitVec 64) : Channel → Word
  | .L => beat.extractLsb' 0 32
  | .R => beat.extractLsb' 32 32

theorem laneHalf_append (out : Channel → Word) (c : Channel) : laneHalf (out .R ++ out .L) c = out c := by
  cases c with
  | L => exact BitVec.extractLsb'_append_eq_right
  | R => exact BitVec.extractLsb'_append_eq_left

/-! The words of a FIFO after a sample (R168, R169). -/

section
variable (f : Fifo) (p : Params) (t : Word)

theorem Fifo.acc_accept : (f.accept p t).acc = f.acc.write f.k t := by
  rcases f.accept_cases p t with ⟨_, h⟩ | ⟨_, h⟩ <;> rw [h]
  · rw [Fifo.push_eq]
    rfl
  · rfl

theorem Fifo.ring_accept :
    (f.accept p t).ring =
      if f.k + 1 = p.fifoBlock then
        f.ring.writeAll (f.wp * p.fifoBlock) ((f.accept p t).acc.readAll 0 p.fifoBlock)
      else f.ring := by
  rw [Fifo.acc_accept]
  rcases f.accept_cases p t with ⟨hk, h⟩ | ⟨hk, h⟩ <;> rw [h]
  · rw [Fifo.push_eq, if_pos hk]
    rfl
  · rw [if_neg hk]
    rfl

/-- A completed block stands in the ring slot `wp`; every other word of the ring is as before. -/
theorem Fifo.read_ring_accept (h : f.ring.Canonical) (a : Nat) :
    (f.accept p t).ring.read a =
      if f.k + 1 = p.fifoBlock ∧ f.wp * p.fifoBlock ≤ a ∧ a < f.wp * p.fifoBlock + p.fifoBlock then
        (f.accept p t).acc.read (a - f.wp * p.fifoBlock)
      else f.ring.read a := by
  rw [Fifo.ring_accept]
  by_cases hk : f.k + 1 = p.fifoBlock
  · rw [if_pos hk, Memory.read_writeAll h, Memory.length_readAll]
    simp only [hk, true_and]
    split
    next ha =>
      rw [List.getD_eq_getElem _ _ (by rw [Memory.length_readAll]; omega), Memory.getElem_readAll, Nat.zero_add]
    next => rfl
  · simp [hk]

end

/-! `snap` (R151). -/

theorem snap_of_isNaN {w : Word} (h : isNaN w = true) : snap w = 0#32 := by
  simp [snap, fless, h]

/-- `snap` on the values of R13: the threshold T and -T are snapped themselves. -/
theorem snap_of_not_isNaN {w : Word} (h : isNaN w = false) :
    snap w = if scaled w < -scaled snapThreshold ∨ scaled snapThreshold < scaled w then w else 0#32 := by
  have hT : isNaN snapThreshold = false := by decide
  have hnegT : isNaN (fneg snapThreshold) = false := by decide
  simp [snap, fless, h, hT, hnegT]

/-- An infinity lies outside [-T, T]. -/
theorem scaled_of_isInf {w : Word} (h : isInf w = true) :
    scaled w < -scaled snapThreshold ∨ scaled snapThreshold < scaled w := by
  have hmag : (scaled snapThreshold).natAbs < magnitude w := by
    simp only [isInf, Bool.and_eq_true, beq_iff_eq] at h
    rw [magnitude, if_neg (by omega), h.1, h.2]
    decide +kernel
  have habs := natAbs_scaled w
  omega

/-! The statements. -/

/-- Settles O27: each cell by the state of the sequencer, and what the actions do to IN_BLOCK and PROTO_ERR. -/
theorem framingTable : Obligations.FramingTable := by
  intro s xl xr
  refine ⟨fun h => ?idle, fun h => ?processing, rfl, rfl, by rw [closeBlock_eq], ?opened, closeBlock_sticky s,
    by rw [processFrame_eq], by rw [processFrame_eq]⟩
  case idle =>
    exact ⟨exec_beginBlock_of_not_inBlock h, by rw [exec_frame, frameStart_of_not_inBlock h],
      exec_endBlock_of_not_inBlock h, rfl⟩
  case processing =>
    exact ⟨exec_beginBlock_of_inBlock h, by rw [exec_frame, frameStart_of_inBlock h], exec_endBlock_of_inBlock h,
      rfl⟩
  case opened =>
    rw [openBlock_eq]
    cases s.dirty <;> rfl

/-- Settles O28: a channel is closed where a block is open, then refreshed where DIRTY was 1. -/
theorem beginOpensBlock : Obligations.BeginOpensBlock := by
  intro s
  refine ⟨beginState s, exec_beginBlock s, rfl, rfl, rfl, rfl, fun hdirty => ?refreshed, fun hdirty => ?kept,
    fun c i => ?stateWords, fun c => ?rest, rfl⟩
  case refreshed =>
    rw [close_if_inBlock_eq]
    refine ⟨fun c => ?_, by simp only [beginState, hdirty]; rfl⟩
    rw [beginState_chan, hdirty]
    cases c <;> rfl
  case kept =>
    refine ⟨fun c => ?_, by simp only [beginState, hdirty]; rfl⟩
    rw [beginState_chan, hdirty]
    exact Chan.activeState_closed _ _
  case stateWords =>
    obtain ⟨hs1, hs2⟩ := Chan.opened_state ((s.chan c).closed (s.inBlock && s.cfg.snapEn)) s.dirty s.committed i
    simp only [beginState_chan, hs1, hs2, Chan.get_closed]
    split <;> exact ⟨rfl, rfl⟩
  case rest =>
    rw [beginState_chan, Chan.closed_frame]
    exact Chan.opened_rest _ _ _

/-- Settles O29, by channel; `snap` is a comparison of values. -/
theorem endSnapsActiveSections : Obligations.EndSnapsActiveSections := by
  intro s
  refine ⟨fun h => ⟨_, exec_endBlock_of_inBlock h, fun c i => ?sections, ?frame⟩, exec_endBlock_of_not_inBlock,
    fun w => ⟨snap_of_isNaN, fun hnan hlow hhigh => ?inside, fun hnan hout => ?outside, fun hinf => ?infinity⟩⟩
  case sections =>
    rw [closeBlock_eq_closed]
    cases c <;> exact Chan.get_closed _ _ i
  case frame => rw [closeBlock_eq_closed, s.l.closed_frame, s.r.closed_frame]
  case inside => exact (snap_of_not_isNaN hnan).trans (if_neg (not_or.2 ⟨not_lt.2 hlow, not_lt.2 hhigh⟩))
  case outside => exact (snap_of_not_isNaN hnan).trans (if_pos hout)
  case infinity => exact (snap_of_not_isNaN (isNaN_of_isInf hinf)).trans (if_pos (scaled_of_isInf hinf))

/-- Settles O30: the lanes take their draws one after the other. -/
theorem frameProcessesBothLanes : Obligations.FrameProcessesBothLanes := by
  intro xl xr s
  refine ⟨_, _, (frameStart s).laneDraws xl .R, rfl, exec_frame xl xr s, ?_⟩
  rw [processFrame_eq]
  exact ⟨⟨rfl, rfl, rfl, rfl⟩, rfl⟩

/-- Settles O31: the stores are those of one accept of the tap. -/
theorem frameStores : Obligations.FrameStores := by
  intro xl xr s c hopen hacc hring f b
  have hacc' := (Memory.wf_iff _).1 hacc
  have hring' := (Memory.wf_iff _).1 hring
  have hexec : exec (.frame xl xr) s = .next (processFrame xl xr s) := by
    rw [exec_frame, frameStart_of_inBlock hopen]
  have hchan := processFrame_chan xl xr s c
  have hfifo : ((processFrame xl xr s).chan c).fifo = f.accept s.cfg (s.laneTap xl xr c) := congrArg Chan.fifo hchan
  have hrest : ((processFrame xl xr s).chan c).ana = (s.chan c).ana ∧
      ((processFrame xl xr s).chan c).spec = (s.chan c).spec := by
    rw [hchan]
    exact ⟨rfl, rfl⟩
  refine ⟨_, s.laneTap xl xr c, hexec, fun h => ?tapInput,
    fun h => ⟨_, processFrame_audioOut xl xr s, ?tapOutput⟩, fun a => ?acc, fun a => ?ring, hrest⟩
  case tapInput => cases c <;> exact if_pos h
  case tapOutput =>
    calc s.laneTap xl xr c = s.laneOut xl xr c := if_neg (by simp [h])
      _ = laneHalf (s.laneOut xl xr .R ++ s.laneOut xl xr .L) c := (laneHalf_append (s.laneOut xl xr) c).symm
      _ = _ := by cases c <;> rfl
  case acc => rw [hfifo, Fifo.acc_accept, Memory.read_write hacc']
  case ring =>
    rw [hfifo]
    exact Fifo.read_ring_accept _ _ _ hring' a

end Sys2Proof.Machine
end

section
/-! PROOFS. The lanes of a frame (R158): the left lane comes first, and all it leaves for the right one is where its
draws start, which depends on the flags alone. -/

namespace Sys2Proof.Machine

/-! The flags of a channel (R49, R147). -/

/-- The enables and bypass flags. -/
def Chan.flags (x : Chan) : BitVec 4 × BitVec 4 × Bool × Bool × Bool := (x.enLc, x.enHc, x.bypLc, x.bypPk, x.bypHc)

theorem Chan.flags_eq_iff {x y : Chan} :
    x.flags = y.flags ↔
      x.enLc = y.enLc ∧ x.enHc = y.enHc ∧ x.bypLc = y.bypLc ∧ x.bypPk = y.bypPk ∧ x.bypHc = y.bypHc := by
  simp only [Chan.flags, Prod.mk.injEq]

section
variable {x y : Chan} (h : x.flags = y.flags)
include h

theorem Chan.active_congr : x.active = y.active := by
  obtain ⟨henLc, henHc, hbypLc, hbypPk, hbypHc⟩ := Chan.flags_eq_iff.1 h
  funext i
  cases i <;> simp only [Chan.active, henLc, henHc, hbypLc, hbypPk, hbypHc]

theorem Chan.flags_opened_congr (dirty : Bool) (k : Settings) :
    (x.opened dirty k).flags = (y.opened dirty k).flags := by
  cases dirty with
  | false => exact h
  | true =>
    obtain ⟨henLc, henHc, -⟩ := Chan.flags_eq_iff.1 h
    exact Chan.flags_eq_iff.2
      ⟨by simp only [Chan.opened, if_true, Chan.enLc_refresh, henLc],
        by simp only [Chan.opened, if_true, Chan.enHc_refresh, henHc], rfl, rfl, rfl⟩

end

/-! The lanes of a frame (R158). -/

/-- Whether a beat that is a FRAME takes the committed settings: it opens a block with DIRTY = 1 (R152, R154). -/
def State.frameRefreshes (s : State) : Bool := !s.inBlock && s.dirty

section
variable (s : State)

theorem frameStart_chan (c : Channel) :
    (frameStart s).chan c = (s.chan c).opened s.frameRefreshes s.committed := by
  cases h : s.inBlock with
  | true =>
    rw [frameStart_of_inBlock h, State.frameRefreshes, h]
    rfl
  | false =>
    rw [frameStart_of_not_inBlock h, openBlock_eq_opened, State.frameRefreshes, h]
    cases c <;> rfl

theorem frameStart_cfg : (frameStart s).cfg = s.cfg := by
  unfold frameStart
  split <;> simp

theorem frameStart_ctrl : (frameStart s).ctrl = s.ctrl := by
  unfold frameStart
  split <;> simp [openBlock_eq]

theorem frameStart_draws : (frameStart s).draws = s.draws := by
  unfold frameStart
  split <;> simp [openBlock_eq]

theorem frameStart_laneDraws_L (xl : Word) : (frameStart s).laneDraws xl .L = s.draws := frameStart_draws s

/-- Where the right lane's draws start depends on the left channel's flags, and not on its words (log 4). -/
theorem frameStart_laneDraws_R (xl : Word) :
    (frameStart s).laneDraws xl .R =
      s.draws + SecId.order.countP (s.l.opened s.frameRefreshes s.committed).active * biquadOps := by
  rw [State.laneDraws, Chan.draws_chain, frameStart_draws, ← State.chan_L, frameStart_chan, State.chan_L]

end

/-- What a FRAME gives a channel: its half of the output beat and its next state are functions of the channel itself,
of its sample and of what both lanes share. -/
theorem exec_frame_lane {xl xr : Word} {s t : State} (h : exec (.frame xl xr) s = .next t) (c : Channel) :
    let x := (s.chan c).opened s.frameRefreshes s.committed
    let n := (frameStart s).laneDraws xl c
    t.chan c = x.framed s.cfg s.ctrl.tap n (laneSample xl xr c) ∧
      t.audioOut.getLast?.map (laneHalf · c) = some (x.chain s.cfg.denorm n (laneSample xl xr c)).v := by
  obtain rfl := Host.Outcome.next.inj ((exec_frame xl xr s).symm.trans h)
  rw [processFrame_chan, processFrame_audioOut, List.getLast?_concat, Option.map_some,
    laneHalf_append ((frameStart s).laneOut xl xr) c, State.laneOut, frameStart_chan, frameStart_cfg, frameStart_ctrl]
  exact ⟨rfl, rfl⟩

/-- Settles O40: each lane by `exec_frame_lane`; the right one's draws start at the same index where the left channel's
flags are the same. -/
theorem lanesAreIndependent : Obligations.LanesAreIndependent := by
  intro s xl xl' xr xr' y t t'
  refine ⟨fun ht ht' => ?left, fun henLc henHc hbypLc hbypPk hbypHc ht ht' => ?right⟩
  case left =>
    obtain ⟨hl, hout⟩ := exec_frame_lane ht .L
    obtain ⟨hl', hout'⟩ := exec_frame_lane ht' .L
    rw [frameStart_laneDraws_L] at hl hout hl' hout'
    exact ⟨hl'.trans hl.symm, hout'.trans hout.symm⟩
  case right =>
    have hflags : y.flags = s.l.flags := Chan.flags_eq_iff.2 ⟨henLc, henHc, hbypLc, hbypPk, hbypHc⟩
    have hactive : (y.opened s.frameRefreshes s.committed).active = (s.l.opened s.frameRefreshes s.committed).active :=
      Chan.active_congr (Chan.flags_opened_congr hflags _ _)
    have hdraws : (frameStart { s with l := y }).laneDraws xl' .R = (frameStart s).laneDraws xl .R := by
      rw [frameStart_laneDraws_R, frameStart_laneDraws_R]
      exact congrArg (fun act => s.draws + SecId.order.countP act * biquadOps) hactive
    obtain ⟨hr, hout⟩ := exec_frame_lane ht .R
    obtain ⟨hr', hout'⟩ := exec_frame_lane ht' .R
    rw [hdraws] at hr' hout'
    exact ⟨hr'.trans hr.symm, hout'.trans hout.symm⟩

end Sys2Proof.Machine
end

section
/-! PROOFS. The active state (R90, R153): the operations that keep it, and the transactions that change it. -/

namespace Sys2Proof.Machine

section
variable (s : State) (c : Channel)

@[simp] theorem activeState_chan_closeBlock : ((closeBlock s).chan c).activeState = (s.chan c).activeState := by
  rw [closeBlock_eq_closed]
  cases c <;> exact Chan.activeState_closed _ _

theorem activeState_chan_openBlock {s : State} (h : s.dirty = false) (c : Channel) :
    ((openBlock s).chan c).activeState = (s.chan c).activeState := by
  rw [openBlock_eq_opened, h]
  cases c <;> rfl

@[simp] theorem activeState_chan_processFrame (xl xr : Word) :
    ((processFrame xl xr s).chan c).activeState = (s.chan c).activeState := by
  rw [processFrame_chan, Chan.activeState_framed]

theorem activeState_chan_setChan {d : Channel} {x : Chan} (h : x.activeState = (s.chan d).activeState) :
    ((s.setChan d x).chan c).activeState = (s.chan c).activeState := by
  rw [State.chan_setChan]
  split
  next hc => rw [hc, h]
  next => rfl

@[simp] theorem activeState_chan_anaTurn (d : Channel) :
    ((anaTurn d s).chan c).activeState = (s.chan c).activeState := by
  rcases anaTurn_cases d s with ⟨_, h⟩ | ⟨_, _, h⟩ <;> rw [h]
  exact activeState_chan_setChan s c (Chan.activeState_analyze _ _ _ _ _)

@[simp] theorem activeState_chan_acquire (d : Channel) :
    ((acquire d s).chan c).activeState = (s.chan c).activeState :=
  activeState_chan_setChan s c rfl

@[simp] theorem activeState_chan_prepareStream : ((prepareStream s).chan c).activeState = (s.chan c).activeState := by
  cases c <;> exact Chan.activeState_clearHistory _

end

/-- The effects that change an active state are SOFT_RESET and the start of a block with DIRTY = 1. -/
theorem Effect.activeState {s t : State} {i : Instr} (heff : Effect s i t) (c : Channel) :
    (t.chan c).activeState = (s.chan c).activeState ∨ i = .softReset ∨
      s.dirty = true ∧ (i = .beginBlock ∨ ∃ xl xr, i = .frame xl xr) := by
  have hopen {u : State} (hdirty : u.dirty = s.dirty) (hu : (u.chan c).activeState = (s.chan c).activeState) :
      ((openBlock u).chan c).activeState = (s.chan c).activeState ∨ s.dirty = true := by
    cases h : s.dirty with
    | true => exact .inr rfl
    | false => exact .inl ((activeState_chan_openBlock (hdirty.trans h) c).trans hu)
  cases heff with
  | softReset => exact .inr (.inl rfl)
  | beginBlock => exact (hopen rfl rfl).imp_right fun h => .inr ⟨h, .inl rfl⟩
  | strayBegin =>
    have hdirty : (raise .protoErr (closeBlock s)).dirty = s.dirty := by rw [raise_dirty, closeBlock_eq]
    exact (hopen hdirty (by rw [raise_chan, activeState_chan_closeBlock])).imp_right fun h => .inr ⟨h, .inl rfl⟩
  | strayFrame xl xr =>
    refine (hopen rfl rfl).imp (fun h => ?_) fun h => .inr ⟨h, .inr ⟨xl, xr, rfl⟩⟩
    rw [activeState_chan_processFrame, raise_chan, h]
  | frame => exact .inl (activeState_chan_processFrame s c _ _)
  | endBlock => exact .inl (activeState_chan_closeBlock s c)
  | prepare => exact .inl (by rw [ack_chan, activeState_chan_prepareStream])
  | acquire => exact .inl (by rw [ack_chan, activeState_chan_acquire])
  | _ => exact .inl (by cases c <;> rfl)

/-- A write resolves to a row of the control port (R112). -/
theorem port_decodeWrite (off : BitVec 16) (d : Word) : (decodeWrite off d).port = .control := by
  cases h : locate off with
  | none =>
    rw [decodeWrite, h]
    rfl
  | some a => exact (legalWriteRow_decodeWrite h d).port

theorem resolve_of_audio {i : Instr} (h : i.resolve.port = .audio) : i.resolve = i := by
  refine resolve_of_ne_wr fun off d hi => ?_
  rw [hi, Instr.resolve, port_decodeWrite] at h
  cases h

/-- Settles O56, by the effects of a transaction; a FRAME inside a block opens none. -/
theorem coefficientsChangeOnlyAtBlockStart : Obligations.CoefficientsChangeOnlyAtBlockStart := by
  intro i s t c d
  refine ⟨fun h hne => ?_, activeState_chan_anaTurn s c d⟩
  rcases (effect_of_exec h).activeState c with hkeep | hreset | ⟨hdirty, hbegin | ⟨xl, xr, hframe⟩⟩
  · exact absurd hkeep hne
  · exact .inl hreset
  · exact .inr ⟨hdirty, .inl ((resolve_of_audio (by rw [hbegin]; rfl)).symm.trans hbegin)⟩
  · obtain rfl : i = .frame xl xr := (resolve_of_audio (by rw [hframe]; rfl)).symm.trans hframe
    refine .inr ⟨hdirty, .inr ⟨?_, xl, xr, rfl⟩⟩
    by_contra hopen
    rw [exec_frame, frameStart_of_inBlock (by simpa using hopen)] at h
    obtain rfl := Host.Outcome.next.inj h
    exact hne (activeState_chan_processFrame s c xl xr)

end Sys2Proof.Machine
end

section
/-! PROOFS. The FIFO as a queue of blocks (R166..R174): what a push and a pop do to the list of waiting blocks, and how
the accumulator gathers a block. -/

namespace Sys2Proof.Machine

/-! The slots of a ring (R51). -/

theorem Memory.readAll_congr {m m' : Memory} {i n : Nat} (h : ∀ a, i ≤ a → a < i + n → m.read a = m'.read a) :
    m.readAll i n = m'.readAll i n :=
  List.map_congr_left fun t ht => h (i + t) (Nat.le_add_right i t) (Nat.add_lt_add_left (List.mem_range.1 ht) i)

/-- Words written one after the other are read back in order. -/
theorem Memory.readAll_writeAll {m : Memory} (h : m.Canonical) (i : Nat) (vs : List Word) :
    (m.writeAll i vs).readAll i vs.length = vs := by
  refine List.ext_getElem (Memory.length_readAll _ _ _) fun t _ ht => ?_
  rw [Memory.getElem_readAll, Memory.read_writeAll h, if_pos ⟨Nat.le_add_right i t, Nat.add_lt_add_left ht i⟩,
    Nat.add_sub_cancel_left, List.getD_eq_getElem _ _ ht]

/-- A block written to one slot leaves every other slot as it was. -/
theorem Memory.readAll_writeAll_of_ne {m : Memory} (h : m.Canonical) {i j : Nat} (hne : i ≠ j) (blk : List Word) :
    (m.writeAll (j * blk.length) blk).readAll (i * blk.length) blk.length =
      m.readAll (i * blk.length) blk.length := by
  have hapart {x y : Nat} (hxy : x < y) : x * blk.length + blk.length ≤ y * blk.length := by
    rw [← Nat.succ_mul]
    exact Nat.mul_le_mul_right _ hxy
  refine Memory.readAll_congr fun a hlow hhigh => ?_
  rw [Memory.read_writeAll h, if_neg]
  rcases Nat.lt_or_gt_of_ne hne with hlt | hlt <;> have := hapart hlt <;> omega

theorem Memory.writeAll_concat (m : Memory) (i : Nat) (vs : List Word) (v : Word) :
    m.writeAll i (vs ++ [v]) = (m.writeAll i vs).write (i + vs.length) v := by
  induction vs generalizing m i with
  | nil => rfl
  | cons u vs ih =>
    rw [List.cons_append, Memory.writeAll, ih, Memory.writeAll, List.length_cons, Nat.add_right_comm, Nat.add_assoc]

/-! The queue (R167). -/

@[simp] theorem Fifo.length_queue (f : Fifo) (p : Params) : (f.queue p).length = f.occ.toNat := by
  simp [Fifo.queue]

theorem Fifo.queue_eq_nil {f : Fifo} {p : Params} : f.queue p = [] ↔ f.w = f.r := by
  rw [← List.length_eq_zero_iff, Fifo.length_queue, ← Fifo.occ_eq_zero, ← BitVec.toNat_inj]
  rfl

/-- A pop answers nothing exactly where the queue is empty (R171). -/
theorem Fifo.pop_eq_none_iff {f : Fifo} {p : Params} : f.pop p = none ↔ f.queue p = [] := by
  rw [Fifo.queue_eq_nil]
  simp [Fifo.pop]

/-- FIFO_OVR counts a push to a full FIFO (R170). -/
theorem Fifo.ovr_push (f : Fifo) (p : Params) (blk : List Word) :
    (f.push p blk).ovr = if f.full p then f.ovr + 1#32 else f.ovr := by
  rw [Fifo.push_eq]
  rfl

theorem Fifo.w_ne_r_of_full {f : Fifo} {p : Params} (hp : p.legal = true) (hfull : f.full p = true) : f.w ≠ f.r := by
  intro heq
  obtain ⟨-, -, -, -, -, hcap, -⟩ := legal_iff.1 hp
  rw [← (Fifo.full_iff hp).1 hfull, Fifo.occ_eq_zero.2 heq] at hcap
  exact absurd hcap (by decide)

section
variable {f : Fifo} {p : Params} (h : f.Inv p)
include h

/-- The oldest block stands in slot `rp`, and the others are those of the FIFO without it (R171). -/
theorem Fifo.Inv.queue_eq_cons (hne : f.w ≠ f.r) :
    f.queue p = f.slot p.fifoBlock f.rp :: (f.retire p).queue p := by
  have hslots (i : Nat) : (f.rp + (i + 1)) % p.fifoCap = ((f.rp + 1) % p.fifoCap + i) % p.fifoCap := by
    rw [Nat.mod_add_mod, Nat.add_right_comm, Nat.add_assoc]
  rw [Fifo.queue, ← Fifo.toNat_occ_retire p hne, List.range_succ_eq_map, List.map_cons, List.map_map, Nat.add_zero,
    Nat.mod_eq_of_lt h.rp_lt]
  exact congrArg _ (List.map_congr_left fun i _ => congrArg (f.slot p.fifoBlock) (hslots i))

/-- A pop on a queue that is not empty answers its head and leaves its tail (R171). -/
theorem Fifo.Inv.pop_of_queue_eq_cons {blk : List Word} {rest : List (List Word)} (hq : f.queue p = blk :: rest) :
    f.pop p = some (blk, f.retire p) ∧ (f.retire p).queue p = rest ∧ (f.retire p).Inv p := by
  have hne : f.w ≠ f.r := fun heq => by simp [Fifo.queue_eq_nil.2 heq] at hq
  obtain ⟨hblk, hrest⟩ := List.cons_eq_cons.1 ((h.queue_eq_cons hne).symm.trans hq)
  exact ⟨Fifo.pop_eq_some.2 ⟨hne, hblk.symm, rfl⟩, hrest, h.retire hne⟩

/-- Where there is room, no waiting block stands in the slot that the next push writes. -/
theorem Fifo.Inv.slot_ne_wp (hlt : f.occ.toNat < p.fifoCap) {i : Nat} (hi : i < f.occ.toNat) :
    (f.rp + i) % p.fifoCap ≠ f.wp := by
  rw [← h.wp_eq]
  intro heq
  exact Nat.ne_of_lt hi (Nat.ModEq.eq_of_lt_of_lt (Nat.ModEq.add_left_cancel' f.rp heq) (hi.trans hlt) hlt)

theorem Fifo.Inv.occ_lt_of_room (hp : p.legal = true) (hroom : f.full p = false) : f.occ.toNat < p.fifoCap :=
  Nat.lt_of_le_of_ne h.occ_le fun heq => by simp [(Fifo.full_iff hp).2 heq] at hroom

theorem Fifo.Inv.toNat_occ_push_of_room (hp : p.legal = true) (hroom : f.full p = false) (blk : List Word) :
    (f.push p blk).occ.toNat = f.occ.toNat + 1 := by
  obtain ⟨-, -, -, -, -, -, hcap, -, -⟩ := legal_iff.1 hp
  have hlt := h.occ_lt_of_room hp hroom
  simp only [Fifo.push_eq, hroom, Fifo.occ, wrapInc, Bool.false_eq_true, if_false] at hlt ⊢
  bv_omega

/-- A push where there is room appends the block (R169). -/
theorem Fifo.Inv.queue_push_of_room (hp : p.legal = true) (hroom : f.full p = false) {blk : List Word}
    (hlen : blk.length = p.fifoBlock) : (f.push p blk).queue p = f.queue p ++ [blk] := by
  have hpush := Fifo.push_eq f p blk
  simp only [hroom, Bool.false_eq_true, if_false] at hpush
  have hnew : (f.push p blk).slot p.fifoBlock ((f.rp + f.occ.toNat) % p.fifoCap) = blk := by
    rw [hpush, h.wp_eq, ← hlen]
    exact Memory.readAll_writeAll h.ring_canonical _ blk
  have hold : ∀ i ∈ List.range f.occ.toNat,
      (f.push p blk).slot p.fifoBlock ((f.rp + i) % p.fifoCap) = f.slot p.fifoBlock ((f.rp + i) % p.fifoCap) := by
    intro i hi
    have hslot := h.slot_ne_wp (h.occ_lt_of_room hp hroom) (List.mem_range.1 hi)
    rw [hpush, ← hlen]
    exact Memory.readAll_writeAll_of_ne h.ring_canonical hslot blk
  have hrp : (f.push p blk).rp = f.rp := by rw [hpush]
  rw [Fifo.queue, h.toNat_occ_push_of_room hp hroom, hrp, List.range_succ, List.map_append,
    List.map_congr_left hold, List.map_singleton, hnew]
  rfl

/-- A push appends the block, after a full queue has lost its oldest one (R169, R170). -/
theorem Fifo.Inv.queue_push (hp : p.legal = true) {blk : List Word} (hlen : blk.length = p.fifoBlock) :
    (f.push p blk).queue p = (if f.full p then (f.queue p).tail else f.queue p) ++ [blk] := by
  cases hfull : f.full p with
  | false => exact h.queue_push_of_room hp hfull hlen
  | true =>
    have hne := Fifo.w_ne_r_of_full hp hfull
    rw [Fifo.push_of_full hfull,
      ((h.retire hne).set_ovr (wrapInc f.ovr)).queue_push_of_room hp (Fifo.full_retire hfull) hlen, h.queue_eq_cons hne]
    rfl

end

/-! Lists of blocks (R173, R174). -/

theorem pushBlocks_concat (f : Fifo) (p : Params) (blks : List (List Word)) (blk : List Word) :
    pushBlocks f p (blks ++ [blk]) = (pushBlocks f p blks).push p blk := by
  simp [pushBlocks]

section
variable {f : Fifo} {p : Params} (hp : p.legal = true) (h : f.Inv p)
include hp h

theorem pushBlocks_inv {blks : List (List Word)} (hlen : ∀ b ∈ blks, b.length = p.fifoBlock) :
    (pushBlocks f p blks).Inv p := by
  induction blks using List.reverseRecOn with
  | nil => exact h
  | append_singleton blks blk ih =>
    obtain ⟨hblks, hblk⟩ := List.forall_mem_append.1 hlen
    rw [pushBlocks_concat]
    exact (ih hblks).push hp (hblk blk (List.mem_singleton_self blk))

/-- From an empty FIFO, the last CAP blocks pushed wait in push order, and `ovr` counts the others (R173, R174). -/
theorem queue_pushBlocks (hempty : f.queue p = []) {blks : List (List Word)}
    (hlen : ∀ b ∈ blks, b.length = p.fifoBlock) :
    (pushBlocks f p blks).queue p = blks.drop (blks.length - p.fifoCap) ∧
    (pushBlocks f p blks).ovr = f.ovr + BitVec.ofNat 32 (blks.length - p.fifoCap) := by
  obtain ⟨-, -, -, -, -, hcap, -⟩ := legal_iff.1 hp
  induction blks using List.reverseRecOn with
  | nil => exact ⟨by simpa [pushBlocks] using hempty, by simp [pushBlocks]⟩
  | append_singleton blks blk ih =>
    obtain ⟨hblks, hblk⟩ := List.forall_mem_append.1 hlen
    obtain ⟨hqueue, hovr⟩ := ih hblks
    have hinv := pushBlocks_inv hp h hblks
    have hfull : (pushBlocks f p blks).full p = true ↔ p.fifoCap ≤ blks.length := by
      rw [Fifo.full_iff hp, ← Fifo.length_queue _ p, hqueue, List.length_drop]
      omega
    rw [pushBlocks_concat, hinv.queue_push hp (hblk blk (List.mem_singleton_self blk)), Fifo.ovr_push, hqueue, hovr,
      List.length_append, List.length_singleton]
    simp only [hfull]
    by_cases hc : p.fifoCap ≤ blks.length
    · rw [if_pos hc, if_pos hc, Nat.sub_add_comm hc, List.tail_drop, List.drop_append_of_le_length (by omega),
        BitVec.ofNat_add, BitVec.add_assoc]
      exact ⟨rfl, rfl⟩
    · rw [if_neg hc, if_neg hc, Nat.sub_eq_zero_of_le (by omega : blks.length ≤ p.fifoCap),
        Nat.sub_eq_zero_of_le (by omega : blks.length + 1 ≤ p.fifoCap)]
      exact ⟨rfl, rfl⟩

end

/-- Enough pops answer the whole queue and leave nothing (R171, R172). -/
theorem popBlocks_eq_queue {f : Fifo} {p : Params} (h : f.Inv p) {n : Nat} (hn : (f.queue p).length ≤ n) :
    (popBlocks p n f).1 = f.queue p ∧ (popBlocks p n f).2.pop p = none := by
  induction n generalizing f with
  | zero =>
    have hempty := List.length_eq_zero_iff.1 (Nat.le_zero.1 hn)
    exact ⟨hempty.symm, Fifo.pop_eq_none_iff.2 hempty⟩
  | succ n ih =>
    cases hq : f.queue p with
    | nil =>
      have hnone := Fifo.pop_eq_none_iff.2 hq
      rw [popBlocks, hnone]
      exact ⟨rfl, hnone⟩
    | cons blk rest =>
      obtain ⟨hpop, hrest, hinv⟩ := h.pop_of_queue_eq_cons hq
      rw [hq, List.length_cons, Nat.succ_le_succ_iff, ← hrest] at hn
      obtain ⟨hpopped, hnone⟩ := ih hinv hn
      rw [popBlocks, hpop]
      exact ⟨congrArg (blk :: ·) (hpopped.trans hrest), hnone⟩

/-! The accumulator (R168). -/

section
variable (f : Fifo) (p : Params)

/-- Samples that do not complete the block are written to the accumulator, and that is all. -/
theorem Fifo.foldl_accept_of_lt (xs : List Word) (hlt : f.k + xs.length < p.fifoBlock) :
    xs.foldl (fun g x => g.accept p x) f = { f with acc := f.acc.writeAll f.k xs, k := f.k + xs.length } := by
  induction xs generalizing f with
  | nil => rfl
  | cons x xs ih =>
    rw [List.length_cons] at hlt
    rcases f.accept_cases p x with ⟨hk, -⟩ | ⟨-, hcollect⟩
    · omega
    · rw [List.foldl_cons, hcollect, ih _ (by simp only [Fifo.collect]; omega), List.length_cons, ← Nat.add_assoc,
        Nat.add_right_comm]
      rfl

/-- The sample that completes a block is written to the accumulator, and the accumulator's words are pushed. -/
theorem Fifo.accept_of_completes {x : Word} (hk : f.k + 1 = p.fifoBlock) :
    f.accept p x =
      { f.push p ((f.acc.write f.k x).readAll 0 p.fifoBlock) with acc := f.acc.write f.k x, k := 0 } := by
  rcases f.accept_cases p x with ⟨-, heq⟩ | ⟨hne, -⟩
  · rw [heq, Fifo.push_eq, Fifo.push_eq]
    rfl
  · exact absurd hk hne

/-- Samples that complete a block are written to the accumulator, and its words are pushed. -/
theorem Fifo.foldl_accept_of_eq (xs : List Word) (hne : xs ≠ []) (heq : f.k + xs.length = p.fifoBlock) :
    xs.foldl (fun g x => g.accept p x) f =
      { f.push p ((f.acc.writeAll f.k xs).readAll 0 p.fifoBlock) with acc := f.acc.writeAll f.k xs, k := 0 } := by
  obtain ⟨ys, x, rfl⟩ := (List.eq_nil_or_concat' xs).resolve_left hne
  rw [List.length_append, List.length_singleton, ← Nat.add_assoc] at heq
  rw [List.foldl_concat, f.foldl_accept_of_lt p ys (by omega), Fifo.accept_of_completes _ _ heq,
    ← Memory.writeAll_concat, Fifo.push_eq, Fifo.push_eq]
  rfl

end

/-! The statements. -/

/-- Settles O44, by `Fifo.Inv.queue_push`; the ring and the counters are those of `Fifo.push_eq`. -/
theorem pushRefinesQueue : Obligations.PushRefinesQueue := by
  intro f p blk hp hinv hlen g
  have h := Fifo.inv_iff.1 hinv
  have hpush : g = _ := Fifo.push_eq f p blk
  refine ⟨h.queue_push hp hlen, f.ovr_push p blk, by rw [Fifo.length_queue, Fifo.full_iff hp], fun a => ?ring,
    by rw [hpush]; rfl, by rw [hpush], by rw [hpush], Fifo.inv_iff.2 (h.push hp hlen)⟩
  case ring =>
    rw [hpush, ← hlen]
    exact Memory.read_writeAll h.ring_canonical _ _ _

/-- Settles O45: the queue is empty where W = R, and otherwise its head is the block of slot `rp`. -/
theorem popRefinesQueue : Obligations.PopRefinesQueue := by
  intro f p _ hinv
  have h := Fifo.inv_iff.1 hinv
  refine ⟨Fifo.pop_eq_none_iff.2, fun blk rest hq => ?_, f.length_queue p⟩
  obtain ⟨hpop, hrest, hinv'⟩ := h.pop_of_queue_eq_cons hq
  exact ⟨f.retire p, hpop, hrest, rfl, rfl, Fifo.inv_iff.2 hinv'⟩

/-- Settles O46: the pops answer the queue that the pushes leave. -/
theorem fifoRoundTripAndOverrun : Obligations.FifoRoundTripAndOverrun := by
  intro f p blks n hp hinv hocc hlen hn g
  have h := Fifo.inv_iff.1 hinv
  have hempty : f.queue p = [] := Fifo.queue_eq_nil.2 (Fifo.occ_eq_zero.1 hocc)
  obtain ⟨hqueue, hovr⟩ := queue_pushBlocks hp h hempty hlen
  have hlevel : (g.queue p).length = min blks.length p.fifoCap := by
    rw [hqueue, List.length_drop]
    omega
  have hwaiting : (g.queue p).length ≤ n := hlevel.trans_le ((min_le_left _ _).trans hn)
  obtain ⟨hpopped, hnone⟩ := popBlocks_eq_queue (pushBlocks_inv hp h hlen) hwaiting
  exact ⟨hpopped.trans hqueue, hnone, hovr, (g.length_queue p).symm.trans hlevel⟩

/-- Settles O47: the words of the accumulator after B samples are those samples. -/
theorem accumulatorGathersBlocks : Obligations.AccumulatorGathersBlocks := by
  intro f p xs hp hinv hk g
  have h := Fifo.inv_iff.1 hinv
  refine ⟨fun hlt => ?fewer, fun hlen => ?whole⟩
  case fewer =>
    have hg : g = _ := f.foldl_accept_of_lt p xs (by rwa [hk, Nat.zero_add])
    rw [hk, Nat.zero_add] at hg
    refine ⟨by rw [hg], by rw [hg]; rfl, by rw [hg], by rw [hg], by rw [hg], fun i hi => ?_⟩
    rw [hg]
    simpa [hi] using Memory.read_writeAll h.acc_canonical 0 xs i
  case whole =>
    have hne : xs ≠ [] := by
      rintro rfl
      exact absurd h.k_lt (by rw [← hlen]; exact Nat.not_lt_zero _)
    have hg : g = _ := f.foldl_accept_of_eq p xs hne (by rwa [hk, Nat.zero_add])
    rw [hk, ← hlen, Memory.readAll_writeAll h.acc_canonical] at hg
    refine ⟨by rw [hg], by rw [hg]; rfl, ?_, by rw [hg]⟩
    rw [hg, Fifo.push_eq]
    rfl

end Sys2Proof.Machine
end

section
/-! PROOFS. Silence (R205): every word of a cascade with finite coefficients and zero state stays a zero. -/

namespace Sys2Proof.Machine

/-! The operations of R15 on zeros. -/

section
variable (d : Denorm) (n : Nat) {a b : Word}

theorem isZero_fmul (ha : isZero a = true) (hb : isFinite b = true) : isZero (fmul d n a b) = true := by
  rw [fmul, flush_of_isZero d ha, mulFlushed_zero_left d n ha (by rwa [isFinite_flush])]
  exact isZero_pack_zero _

theorem isZero_fadd (ha : isZero a = true) (hb : isZero b = true) : isZero (fadd d n a b) = true := by
  rw [eq_signed_zero_of_isZero ha, eq_signed_zero_of_isZero hb, fadd_signed_zeros]
  exact isZero_pack_zero _

theorem isZero_fsub (ha : isZero a = true) (hb : isZero b = true) : isZero (fsub d n a b) = true := by
  rw [eq_signed_zero_of_isZero ha, eq_signed_zero_of_isZero hb, fsub_signed_zeros]
  exact isZero_pack_zero _

end

/-! Sections and cascades in silence. -/

/-- A section whose coefficients are finite and whose state words are zeros. -/
structure Section.Silent (q : Section) : Prop where
  finite : coefsFinite q.coef = true
  s1 : isZero q.s1 = true
  s2 : isZero q.s2 = true

/-- A zero through a silent section is a zero, and the section stays silent (R149). -/
theorem Section.Silent.biquad {q : Section} (h : q.Silent) {x : Word} (hx : isZero x = true) (d : Denorm) (n : Nat) :
    isZero (biquad d n q x).1 = true ∧ (biquad d n q x).2.Silent := by
  have hfin := h.finite
  simp only [coefsFinite, Bool.and_eq_true] at hfin
  obtain ⟨⟨⟨⟨hb0, hb1⟩, hb2⟩, ha1⟩, ha2⟩ := hfin
  have hout : isZero (biquadOut d n q x) = true := isZero_fadd d _ (isZero_fmul d _ hx hb0) h.s1
  exact ⟨hout, {
    finite := h.finite
    s1 := isZero_fadd d _ (isZero_fsub d _ (isZero_fmul d _ hx hb1) (isZero_fmul d _ hout ha1)) h.s2
    s2 := isZero_fsub d _ (isZero_fmul d _ hx hb2) (isZero_fmul d _ hout ha2) }⟩

/-- A zero on its way through silent sections. -/
def Lane.Silent (a : Lane) : Prop := isZero a.v = true ∧ ∀ i, (a.sec.get i).Silent

theorem Lane.Silent.stage {a : Lane} (h : a.Silent) (act : SecId → Bool) (d : Denorm) (i : SecId) :
    (a.stage act d i).Silent := by
  cases hact : act i with
  | false => rwa [Lane.stage_of_inactive hact]
  | true =>
    obtain ⟨hv, hsec⟩ := h
    obtain ⟨hout, hnew⟩ := (hsec i).biquad hv d a.draws
    rw [Lane.stage_of_active hact]
    refine ⟨hout, fun j => ?_⟩
    rw [Cascade.get_set]
    split
    · exact hnew
    · exact hsec j

/-- Settles O39: every position of the cascade keeps the silence. -/
theorem silenceStaysSilent : Obligations.SilenceStaysSilent := by
  intro x d n w hfin hstate hw
  have hcoef : ∀ i, coefsFinite (x.sec.get i).coef = true := by
    simpa [Cascade.coefsFinite, SecId.mem_order] using hfin
  have hstart : Lane.Silent { v := w, sec := x.sec, draws := n } :=
    ⟨hw, fun i => ⟨hcoef i, (hstate i).1, (hstate i).2⟩⟩
  obtain ⟨hout, hsec⟩ := Chan.chain_induction x d n w hstart fun a i h => h.stage x.active d i
  exact ⟨hout, fun i => ⟨(hsec i).s1, (hsec i).s2⟩⟩

end Sys2Proof.Machine
end

section
/-! PROOFS. ANA_STEP (R190, R193..R195, R199, R201, R202): the buffer, the spectrum and what a turn of an analyzer
changes. -/

namespace Sys2Proof.Machine

/-! The buffer (R195). -/

/-- An element of the shifted buffer: an old sample `blk.length` places on, or a sample of the block. -/
theorem read_shiftIn {m : Memory} (h : m.Canonical) {n : Nat} {blk : List Word} (hlen : blk.length ≤ n) {t : Nat}
    (ht : t < n) :
    (shiftIn m n blk).read t =
      if t + blk.length < n then m.read (t + blk.length) else blk.getD (t + blk.length - n) 0#32 := by
  rw [shiftIn, Memory.read_writeAll (h.shiftDown _ _), Memory.read_shiftDown]
  by_cases hold : t + blk.length < n
  · rw [if_neg (by omega), if_pos hold, if_pos hold]
  · rw [if_pos (by omega), if_neg hold, show t - (n - blk.length) = t + blk.length - n by omega]

/-- Settles O48: both sides have N samples, and each is the one of `read_shiftIn`. -/
theorem shiftInKeepsNewest : Obligations.ShiftInKeepsNewest := by
  intro m n blk hwf hlen
  have h := (Memory.wf_iff m).1 hwf
  refine ⟨List.ext_getElem (by simp) fun t ht _ => ?samples, (Memory.wf_iff _).2 (shiftIn_canonical h n blk),
    (Memory.below_iff _ n).2 (Memory.below_writeAll (Memory.below_shiftDown m _ n) (by omega))⟩
  case samples =>
    rw [Memory.length_readAll] at ht
    rw [Memory.getElem_readAll, Nat.zero_add, read_shiftIn h hlen ht, List.getElem_drop]
    by_cases hold : t + blk.length < n
    · rw [if_pos hold, List.getElem_append_left (by rw [Memory.length_readAll]; omega), Memory.getElem_readAll,
        Nat.zero_add, Nat.add_comm]
    · rw [if_neg hold, List.getElem_append_right (by rw [Memory.length_readAll]; omega),
        List.getD_eq_getElem _ _ (by omega)]
      simp only [Memory.length_readAll, Nat.add_comm]

/-! The spectrum (R199, R202). -/

/-- The conditions of R199 (b), (c) and (d) under which every bin is the floor. -/
def flatSpectrum (x : List Word) (f : Word) : Bool := x.all isZero || !x.all isFinite || isNaN f

section
variable {x : List Word} {f b : Word} {n : Nat} (hb : b ∈ spectrum x f n)
include hb

theorem bin_eq_floor_of_flatSpectrum (h : flatSpectrum x f = true) : b = f := by
  obtain ⟨k, -, hk⟩ := List.mem_map.1 hb
  exact hk.symm.trans (if_pos h)

/-- A bin is the floor word or a value above it (R199 (d)). -/
theorem bin_eq_floor_or_above : b = f ∨ fless f b = true := by
  obtain ⟨k, -, rfl⟩ := List.mem_map.1 hb
  split
  · exact .inl rfl
  · split
    next habove => exact .inr habove
    next => exact .inl rfl

end

/-- Settles O51: each of the three conditions is one of `flatSpectrum`. -/
theorem spectrumProperties : Obligations.SpectrumProperties := by
  intro x f n
  refine ⟨length_spectrum x f n, fun hsilent b hb => ?silence, fun hbad b hb => ?nonFinite,
    fun hnan b hb => ?nanFloor, fun b hb => bin_eq_floor_or_above hb⟩
  case silence => exact bin_eq_floor_of_flatSpectrum hb (by simp [flatSpectrum, List.all_eq_true.2 hsilent])
  case nonFinite =>
    have hall : x.all isFinite = false := List.all_eq_false.2 (by simpa using hbad)
    exact bin_eq_floor_of_flatSpectrum hb (by simp [flatSpectrum, hall])
  case nanFloor => exact bin_eq_floor_of_flatSpectrum hb (by simp [flatSpectrum, hnan])

/-! A turn of an analyzer (R193, R194). -/

theorem anaTurn_of_disabled {c : Channel} {s : State}
    (h : s.ctrl.anaEn = false ∨ (s.chan c).fifo.w = (s.chan c).fifo.r) : anaTurn c s = s := by
  rcases anaTurn_cases c s with ⟨-, hturn⟩ | ⟨hen, hne, -⟩
  · exact hturn
  · exact absurd h (by simp [hen, hne])

/-- The channel after its enabled ANA_STEP. -/
def State.analyzed (s : State) (c : Channel) : Chan :=
  (s.chan c).analyze s.cfg s.floorDb ((s.chan c).fifo.slot s.cfg.fifoBlock (s.chan c).fifo.rp)
    ((s.chan c).fifo.retire s.cfg)

theorem anaTurn_of_enabled {c : Channel} {s : State} (hen : s.ctrl.anaEn = true)
    (hne : (s.chan c).fifo.w ≠ (s.chan c).fifo.r) : anaTurn c s = s.setChan c (s.analyzed c) := by
  rcases anaTurn_cases c s with ⟨hdis, -⟩ | ⟨-, -, hturn⟩
  · exact absurd hdis (by simp [hen, hne])
  · exact hturn

section
variable (x : Chan) (p : Params) (f : Word) (blk : List Word) (rest : Fifo)

@[simp] theorem Chan.fifo_analyze : (x.analyze p f blk rest).fifo = rest := by
  rcases x.analyze_cases p f blk rest with ⟨-, h⟩ | ⟨-, h⟩ <;> rw [h]

@[simp] theorem Chan.abuf_analyze : (x.analyze p f blk rest).ana.abuf = shiftIn x.ana.abuf p.fftSize blk := by
  rcases x.analyze_cases p f blk rest with ⟨-, h⟩ | ⟨-, h⟩ <;> rw [h]

/-- R190: an analysed block leaves the filters, their flags and the acquired spectrum as they are. -/
theorem Chan.analyze_frame :
    x.analyze p f blk rest =
      { x with
        fifo := rest
        ana := (x.analyze p f blk rest).ana
        spec := { x.spec with
          pub := (x.analyze p f blk rest).spec.pub
          gen := (x.analyze p f blk rest).spec.gen
          avail := (x.analyze p f blk rest).spec.avail } } := by
  rcases x.analyze_cases p f blk rest with ⟨-, h⟩ | ⟨-, h⟩
  · rw [h]
    rfl
  · rw [h]

theorem Chan.analyze_of_hop (h : x.ana.fresh + 1 = p.hopBlocks) :
    (x.analyze p f blk rest).ana.fresh = 0 ∧
      (x.analyze p f blk rest).spec =
        x.spec.publish (spectrum ((shiftIn x.ana.abuf p.fftSize blk).readAll 0 p.fftSize) f p.bins) := by
  rcases x.analyze_cases p f blk rest with ⟨-, heq⟩ | ⟨hne, -⟩
  · rw [heq]
    exact ⟨rfl, rfl⟩
  · exact absurd h hne

theorem Chan.analyze_of_no_hop (h : x.ana.fresh + 1 ≠ p.hopBlocks) :
    (x.analyze p f blk rest).ana.fresh = x.ana.fresh + 1 ∧ (x.analyze p f blk rest).spec = x.spec := by
  rcases x.analyze_cases p f blk rest with ⟨heq, -⟩ | ⟨-, heq⟩
  · exact absurd heq h
  · rw [heq]
    exact ⟨rfl, rfl⟩

end

/-- The saturating count of R18, with its limit as the word it stops at. -/
theorem satInc_eq (n : Word) : satInc n = if n = 0xFFFFFFFF#32 then 0xFFFFFFFF#32 else n + 1#32 := by
  unfold satInc
  split
  next h => exact h
  next => rfl

/-- Settles O49: a turn that is enabled is `State.analyzed`, whose two cases are those of R194. -/
theorem anaStep : Obligations.AnaStep := by
  intro c s
  refine ⟨anaTurn_of_disabled, fun hen hne => ?enabled, ?frame⟩
  case enabled =>
    intro x y buf
    have hy : y = s.analyzed c := by
      change (anaTurn c s).chan c = _
      rw [anaTurn_of_enabled hen hne, State.chan_setChan_self]
    have hfifo : y.fifo = x.fifo.retire s.cfg := by rw [hy, State.analyzed, Chan.fifo_analyze]
    refine ⟨by rw [hy, State.analyzed, Chan.abuf_analyze], by rw [hfifo]; rfl, by rw [hfifo]; rfl,
      fun hhop => ?publish, fun hno => ?keep⟩
    case publish =>
      obtain ⟨hfresh, hspec⟩ := Chan.analyze_of_hop x s.cfg s.floorDb _ (x.fifo.retire s.cfg) hhop
      rw [hy]
      refine ⟨hfresh, congrArg Spectrum.gen hspec, (congrArg Spectrum.avail hspec).trans (satInc_eq _),
        fun k hk => ?_⟩
      exact (congrArg (fun o => o.pub.read k) hspec).trans
        (Memory.read_writeAll_nil _ (by rwa [length_spectrum]))
    case keep =>
      rw [hy]
      exact Chan.analyze_of_no_hop x s.cfg s.floorDb _ _ hno
  case frame =>
    rcases anaTurn_cases c s with ⟨-, hturn⟩ | ⟨-, -, hturn⟩ <;> rw [hturn]
    · exact ⟨(s.setChan_self c).symm, rfl⟩
    · rw [State.chan_setChan_self]
      refine ⟨rfl, (Chan.analyze_frame _ _ _ _ _).trans ?_⟩
      rw [Chan.fifo_analyze]
      rfl

/-! A full drain (R193, R262). -/

theorem anaEnabled_eq_false_of_occ {c : Channel} {s : State} (h : (s.chan c).fifo.occ = 0#32) :
    anaEnabled c s = false := by
  simp [anaEnabled, h]

theorem run_succ_of_step {M : Host.Core} {s u : M.State} (h : M.step s = .next u) (n : Nat) :
    M.run (n + 1) s = M.run n u := by
  rw [Host.Core.run, h]

/-- A step of an enabled ANA_c takes the oldest block, and changes nothing of the ports (R193, R194). -/
theorem step_ana_of_enabled {c : Channel} {s : State} {ts : List Turn} (hlegal : s.cfg.legal = true)
    (hen : s.ctrl.anaEn = true) (hne : (s.chan c).fifo.w ≠ (s.chan c).fifo.r) (hsched : s.sched = .ana c :: ts) :
    ∃ u, step s = .next u ∧ (u.chan c).fifo = (s.chan c).fifo.retire s.cfg ∧ u.cfg = s.cfg ∧ u.ctrl = s.ctrl ∧
      u.sched = ts ∧ u.ctrlIn = s.ctrlIn ∧ u.audioIn = s.audioIn := by
  have hchan : State.chan { s with sched := ts } c = s.chan c := by cases c <;> rfl
  have hturn := anaTurn_of_enabled (c := c) (s := { s with sched := ts }) hen (by rwa [hchan])
  refine ⟨_, step_of_sched hlegal hsched, ?_⟩
  rw [hturn, State.chan_setChan_self, State.analyzed, hchan, Chan.fifo_analyze]
  simp

/-- Each turn of ANA_c takes one block, so as many turns as there are blocks leave none. -/
theorem run_anaTurns (c : Channel) (ts : List Turn) (n : Nat) {s : State} (hlegal : s.cfg.legal = true)
    (hen : s.ctrl.anaEn = true) (hocc : (s.chan c).fifo.occ.toNat = n)
    (hsched : s.sched = List.replicate n (Turn.ana c) ++ ts) :
    ∃ t, Sys2Proof.core.run n s = .next t ∧ (t.chan c).fifo.occ = 0#32 ∧ t.sched = ts ∧
      t.ctrlIn = s.ctrlIn ∧ t.audioIn = s.audioIn := by
  induction n generalizing s with
  | zero => exact ⟨s, rfl, BitVec.eq_of_toNat_eq hocc, hsched, rfl, rfl⟩
  | succ n ih =>
    have hne : (s.chan c).fifo.w ≠ (s.chan c).fifo.r := by
      rw [Ne, ← Fifo.occ_eq_zero]
      intro hzero
      rw [hzero] at hocc
      cases hocc
    obtain ⟨u, hstep, hfifo, hcfg, hctrl, hrest, hctrlIn, haudioIn⟩ := step_ana_of_enabled hlegal hen hne hsched
    have hretire := Fifo.toNat_occ_retire s.cfg hne
    obtain ⟨t, hrun, hempty, hts, hctrlIn', haudioIn'⟩ :=
      ih (by rwa [hcfg]) (by rwa [hctrl]) (by rw [hfifo]; omega) hrest
    exact ⟨t, (run_succ_of_step hstep n).trans hrun, hempty, hts, hctrlIn'.trans hctrlIn, haudioIn'.trans haudioIn⟩

/-- Settles O53, by `run_anaTurns`; an analyzer with nothing to pop is disabled. -/
theorem analyzerDrainsFifo : Obligations.AnalyzerDrainsFifo := by
  intro c s ts hlegal hen hsched
  obtain ⟨t, hrun, hempty, hrest⟩ := run_anaTurns c ts _ hlegal hen rfl hsched
  exact ⟨t, hrun, anaEnabled_eq_false_of_occ hempty, hempty, hrest⟩

end Sys2Proof.Machine
end

section
/-! PROOFS. What an analyzer does not reach (R190, R203, R251, R264): the audio path runs on a part of the state that no
ANA_STEP changes, and the spectrum window is written by the commands alone. -/

namespace Sys2Proof.Machine

/-! The audio side of the state. -/

/-- The channel without its FIFO, analyzer and spectrum output: its filters and their flags. -/
def Chan.audioSide (x : Chan) : Chan :=
  { x with fifo := Chan.reset.fifo, ana := Chan.reset.ana, spec := Chan.reset.spec }

/-- The state without what the taps feed, and without the sticky bits. -/
def State.audioSide (s : State) : State :=
  { s with l := s.l.audioSide, r := s.r.audioSide, sticky := .clear }

theorem Chan.audioSide_closed (x : Chan) (snaps : Bool) :
    (x.audioSide.closed snaps).audioSide = (x.closed snaps).audioSide := by
  cases snaps <;> rfl

theorem Chan.audioSide_opened (x : Chan) (dirty : Bool) (k : Settings) :
    (x.audioSide.opened dirty k).audioSide = (x.opened dirty k).audioSide := by
  cases dirty with
  | false => rfl
  | true =>
    simp only [Chan.opened, if_true, Chan.refresh, Chan.refreshLc, Chan.refreshPk, Chan.refreshHc]
    cases lowcutStage k <;> cases peakStage k <;> cases highcutStage k <;> rfl

theorem audioSide_closeBlock (s : State) : (closeBlock s.audioSide).audioSide = (closeBlock s).audioSide := by
  rw [closeBlock_eq_closed, closeBlock_eq_closed]
  simp only [State.audioSide, Chan.audioSide_closed]

theorem audioSide_openBlock (s : State) : (openBlock s.audioSide).audioSide = (openBlock s).audioSide := by
  rw [openBlock_eq_opened, openBlock_eq_opened]
  simp only [State.audioSide, Chan.audioSide_opened]
  rfl

/-- The lanes of a frame read the filters and their flags alone. -/
theorem audioSide_processFrame (xl xr : Word) (s : State) :
    (processFrame xl xr s.audioSide).audioSide = (processFrame xl xr s).audioSide := by
  rw [processFrame_eq, processFrame_eq]
  rfl

theorem audioSide_raise (e : ErrorBit) (s : State) : (raise e s).audioSide = s.audioSide := rfl

theorem audioSide_frameStart (s : State) : (frameStart s.audioSide).audioSide = (frameStart s).audioSide := by
  cases h : s.inBlock with
  | true =>
    rw [frameStart_of_inBlock h, frameStart_of_inBlock (s := s.audioSide) h]
    rfl
  | false =>
    rw [frameStart_of_not_inBlock h, frameStart_of_not_inBlock (s := s.audioSide) h]
    exact audioSide_openBlock s

/-- No analysed block touches the audio side (R190). -/
theorem audioSide_anaTurn (c : Channel) (s : State) : (anaTurn c s).audioSide = s.audioSide := by
  rcases anaTurn_cases c s with ⟨-, h⟩ | ⟨-, -, h⟩ <;> rw [h]
  rw [Chan.analyze_frame]
  cases c <;> rfl

/-- A beat acts on the audio side by itself: what it leaves there is what it leaves of the audio side alone. -/
theorem audioSide_exec {i : Instr} (hi : i.port = .audio) {s t : State} (h : exec i s = .next t) :
    ∃ u, exec i s.audioSide = .next u ∧ u.audioSide = t.audioSide := by
  cases i
  case frame xl xr =>
    obtain rfl := Host.Outcome.next.inj ((exec_frame xl xr s).symm.trans h)
    refine ⟨_, exec_frame xl xr _, ?_⟩
    rw [← audioSide_processFrame, ← audioSide_processFrame xl xr (frameStart s), audioSide_frameStart]
  case beginBlock =>
    cases hopen : s.inBlock with
    | true =>
      obtain rfl := Host.Outcome.next.inj ((exec_beginBlock_of_inBlock hopen).symm.trans h)
      refine ⟨_, exec_beginBlock_of_inBlock (s := s.audioSide) hopen, ?_⟩
      rw [← audioSide_openBlock, ← audioSide_openBlock (raise .protoErr (closeBlock s)), audioSide_raise,
        audioSide_raise, audioSide_closeBlock]
    | false =>
      obtain rfl := Host.Outcome.next.inj ((exec_beginBlock_of_not_inBlock hopen).symm.trans h)
      exact ⟨_, exec_beginBlock_of_not_inBlock (s := s.audioSide) hopen, audioSide_openBlock s⟩
  case endBlock =>
    cases hopen : s.inBlock with
    | true =>
      obtain rfl := Host.Outcome.next.inj ((exec_endBlock_of_inBlock hopen).symm.trans h)
      exact ⟨_, exec_endBlock_of_inBlock (s := s.audioSide) hopen, audioSide_closeBlock s⟩
    | false =>
      obtain rfl := Host.Outcome.next.inj ((exec_endBlock_of_not_inBlock hopen).symm.trans h)
      exact ⟨_, exec_endBlock_of_not_inBlock (s := s.audioSide) hopen, rfl⟩
  case reservedBeat =>
    obtain rfl := Host.Outcome.next.inj h
    exact ⟨_, rfl, rfl⟩
  all_goals cases hi

/-- Settles O50: a state and its ANA_STEP have one audio side, on which a beat leaves one audio side. -/
theorem analyzerNeverAffectsAudio : Obligations.AnalyzerNeverAffectsAudio := by
  intro c i s t u hi ht hu
  obtain ⟨v, hv, htv⟩ := audioSide_exec hi ht
  obtain ⟨v', hv', huv⟩ := audioSide_exec hi hu
  rw [audioSide_anaTurn, hv] at hv'
  obtain rfl := Host.Outcome.next.inj hv'
  have hside : u.audioSide = t.audioSide := huv.symm.trans htv
  have hchan (d : Channel) : (u.chan d).audioSide = (t.chan d).audioSide := by
    cases d
    · exact congrArg State.l hside
    · exact congrArg State.r hside
  exact ⟨(congrArg State.audioOut hside :), (congrArg State.inBlock hside :), (congrArg State.dirty hside :),
    (congrArg State.coefGen hside :), (congrArg State.blkCnt hside :), (congrArg State.frameCnt hside :),
    (congrArg State.draws hside :),
    fun d => ⟨(congrArg Chan.sec (hchan d) :), (congrArg Chan.activeState (hchan d) :)⟩⟩

/-! The spectrum window (R80, R203). -/

/-- The SPEC_ACQ of a channel (R122). -/
def acquireRow : Channel → Instr
  | .L => .specAcqL
  | .R => .specAcqR

theorem exec_acquireRow (c : Channel) (s : State) : exec (acquireRow c) s = .next (ack (acquire c s)) := by
  cases c <;> rfl

theorem spec_chan_acquire_of_ne {c d : Channel} (h : c ≠ d) (s : State) :
    ((acquire d s).chan c).spec = (s.chan c).spec := by
  rw [acquire, State.chan_setChan_other _ _ h]

theorem spec_chan_frame (xl xr : Word) (s : State) (c : Channel) :
    ((processFrame xl xr (frameStart s)).chan c).spec = (s.chan c).spec := by
  rw [processFrame_chan, frameStart_chan]
  exact (Chan.opened_rest _ _ _).2.2

theorem spec_chan_beginState (s : State) (c : Channel) : ((beginState s).chan c).spec = (s.chan c).spec := by
  rw [beginState_chan, Chan.closed_frame]
  exact (Chan.opened_rest _ _ _).2.2

theorem spec_chan_closeBlock (s : State) (c : Channel) : ((closeBlock s).chan c).spec = (s.chan c).spec := by
  rw [closeBlock_eq_closed, s.l.closed_frame, s.r.closed_frame]
  cases c <;> rfl

/-- A row that is no SPEC_ACQ of the channel, PREPARE or SOFT_RESET leaves its whole spectrum output. -/
theorem spec_chan_of_row {i : Instr} {s t : State} (c : Channel) (h : exec i s = .next t)
    (hwr : ∀ off d, i ≠ .wr off d) (hacq : i ≠ acquireRow c) (hprepare : i ≠ .prepare) (hreset : i ≠ .softReset) :
    (t.chan c).spec = (s.chan c).spec := by
  cases i with
  | wr off d => exact absurd rfl (hwr off d)
  | prepare => exact absurd rfl hprepare
  | softReset => exact absurd rfl hreset
  | specAcqL =>
    obtain rfl := Host.Outcome.next.inj ((exec_acquireRow .L s).symm.trans h)
    rw [ack_chan, spec_chan_acquire_of_ne fun hc => hacq (by rw [hc]; rfl)]
  | specAcqR =>
    obtain rfl := Host.Outcome.next.inj ((exec_acquireRow .R s).symm.trans h)
    rw [ack_chan, spec_chan_acquire_of_ne fun hc => hacq (by rw [hc]; rfl)]
  | rd off =>
    obtain rfl := Host.Outcome.next.inj h
    rcases readControl_cases off s with ⟨a, -, heq⟩ | ⟨-, heq⟩ <;> rw [heq]
    · rw [respond_chan]
    · rw [busError_chan]
  | frame xl xr =>
    obtain rfl := Host.Outcome.next.inj ((exec_frame xl xr s).symm.trans h)
    exact spec_chan_frame xl xr s c
  | beginBlock =>
    obtain rfl := Host.Outcome.next.inj ((exec_beginBlock s).symm.trans h)
    exact spec_chan_beginState s c
  | endBlock =>
    obtain rfl := Host.Outcome.next.inj h
    split
    · exact spec_chan_closeBlock s c
    · rw [raise_chan]
  | _ =>
    obtain rfl := Host.Outcome.next.inj h
    cases c <;> rfl

/-- An ANA_STEP publishes, and acquires nothing (R201, R203). -/
theorem acq_chan_anaTurn (d : Channel) (s : State) (c : Channel) :
    ((anaTurn d s).chan c).spec.acq = (s.chan c).spec.acq ∧
      ((anaTurn d s).chan c).spec.acqGen = (s.chan c).spec.acqGen := by
  rcases anaTurn_cases d s with ⟨-, h⟩ | ⟨-, -, h⟩ <;> rw [h]
  · exact ⟨rfl, rfl⟩
  · rw [Chan.analyze_frame]
    cases c <;> cases d <;> exact ⟨rfl, rfl⟩

/-- What the spectrum window and SPEC_SEQ of a channel read is its acquired spectrum and its number (R47, R80). -/
theorem readLoc_window_congr {s t : State} {c : Channel} (hcfg : t.cfg = s.cfg)
    (hacq : (t.chan c).spec.acq = (s.chan c).spec.acq) (hgen : (t.chan c).spec.acqGen = (s.chan c).spec.acqGen)
    (k : Nat) :
    readLoc t (.bin c k) = readLoc s (.bin c k) ∧ readLoc t (.specSeq c) = readLoc s (.specSeq c) := by
  simp only [readLoc, hcfg, hacq, hgen, and_self]

/-- Settles O52: no other row touches the spectrum output, and an ANA_STEP leaves its acquired part. -/
theorem windowChangesOnlyOnAcquire : Obligations.WindowChangesOnlyOnAcquire := by
  intro c d i s t
  refine ⟨fun h hacq hprepare hreset => ?transaction, ?analyzer⟩
  case transaction =>
    have hspec : (t.chan c).spec = (s.chan c).spec :=
      spec_chan_of_row c ((exec_resolve i s).trans h) (resolve_ne_wr i) hacq hprepare hreset
    exact readLoc_window_congr (effect_of_exec h).cfg (congrArg Spectrum.acq hspec) (congrArg Spectrum.acqGen hspec)
  case analyzer =>
    obtain ⟨hacq, hgen⟩ := acq_chan_anaTurn d s c
    exact readLoc_window_congr (anaTurn_cfg d s) hacq hgen

end Sys2Proof.Machine
end

section
/-! PROOFS. The exceptions (R219, R223, R224): where a step is refused, and that every other state steps. -/

namespace Sys2Proof.Machine

/-- No decoding of a term of a port's format fails (R223, U11). -/
theorem decode_ne_error_of_fits {p : Port} {w : PortWord} (h : w.fits p = true) (e : DecodeError) :
    decode p w ≠ .error e := by
  obtain ⟨i, hi⟩ := (decode_ok_iff_fits p w).2 h
  rw [hi]
  nofun

/-- A term that waits at a port and that the port's decoder refuses with `e`. -/
def State.Foreign (s : State) (e : DecodeError) : Prop :=
  (∃ w ∈ s.ctrlIn, decode .control w = .error e) ∨ ∃ w ∈ s.audioIn, decode .audio w = .error e

theorem State.not_foreign_of_fits {s : State} (hctrl : ∀ w ∈ s.ctrlIn, w.fits .control = true)
    (haudio : ∀ w ∈ s.audioIn, w.fits .audio = true) (e : DecodeError) : ¬ s.Foreign e := by
  rintro (⟨w, hw, he⟩ | ⟨w, hw, he⟩)
  · exact decode_ne_error_of_fits (hctrl w hw) e he
  · exact decode_ne_error_of_fits (haudio w hw) e he

/-- The choice of the next turn leaves what waits at the ports. -/
theorem foreign_nextTurn {s : State} {e : DecodeError} : (nextTurn s).2.Foreign e ↔ s.Foreign e := by
  rcases nextTurn_cases s with ⟨_, _, _, h⟩ | ⟨_, h⟩ <;> rw [h] <;> exact Iff.rfl

/-- A turn is refused only for a foreign term at its agent's port; a transaction, ANA_STEP and the reset input always
complete (R219, R224). -/
theorem takeTurn_next_or_foreign (t : Turn) (s : State) :
    (∃ u, takeTurn t s = .next u) ∨ ∃ e, s.Foreign e ∧ takeTurn t s = .refused (.notATransaction e) := by
  cases t with
  | hostCtrl =>
    rcases ctrlTurn_cases s with ⟨_, h⟩ | ⟨_, _, i, _, _, h⟩ | ⟨w, _, e, hin, hdecode, h⟩
    · exact .inl ⟨s, h⟩
    · exact .inl ((exec_next i _).imp fun _ => h.trans)
    · exact .inr ⟨e, .inl ⟨w, by simp [hin], hdecode⟩, h⟩
  | hostAudio =>
    rcases audioTurn_cases s with ⟨_, h⟩ | ⟨_, _, i, _, _, h⟩ | ⟨w, _, e, hin, hdecode, h⟩
    · exact .inl ⟨s, h⟩
    · exact .inl ((exec_next i _).imp fun _ => h.trans)
    · exact .inr ⟨e, .inr ⟨w, by simp [hin], hdecode⟩, h⟩
  | ana c => exact .inl ⟨_, rfl⟩
  | resetInput => exact .inl ⟨_, rfl⟩

/-- A step of a legal configuration is refused only for a foreign term at a port (R223). -/
theorem step_next_or_foreign {s : State} (hlegal : s.cfg.legal = true) :
    (∃ t, step s = .next t) ∨ ∃ e, s.Foreign e ∧ step s = .refused (.notATransaction e) := by
  obtain ⟨hillegal, _⟩ | ⟨_, hstep⟩ := step_cases s
  · simp [hlegal] at hillegal
  · rw [hstep]
    simpa only [foreign_nextTurn] using takeTurn_next_or_foreign (nextTurn s).1 (nextTurn s).2

/-- Settles O8: an illegal configuration is refused by name (`step_cases`), and a legal one is refused only for a
foreign term (`step_next_or_foreign`); ports whose terms all fit their formats hold none. -/
theorem neverStuck : Obligations.NeverStuck := by
  refine ⟨fun s r hrefused => ?refusals, fun s hlegal hctrl haudio => ?progress⟩
  case refusals =>
    rcases step_cases s with ⟨hillegal, hstep⟩ | ⟨hlegal, _⟩
    · exact .inl ⟨hillegal, Host.Outcome.refused.inj (hrefused.symm.trans hstep)⟩
    · rcases step_next_or_foreign hlegal with ⟨_, hstep⟩ | ⟨e, _, hstep⟩
      · cases hrefused.symm.trans hstep
      · exact .inr ⟨e, Host.Outcome.refused.inj (hrefused.symm.trans hstep)⟩
  case progress =>
    rcases step_next_or_foreign hlegal with hnext | ⟨e, hforeign, _⟩
    · exact hnext
    · exact absurd hforeign (State.not_foreign_of_fits hctrl haudio e)

end Sys2Proof.Machine
end

section
/-! PROOFS. The machine right after reset (R244) is what the reset event makes of it, so what holds after every reset
event holds of it. -/

namespace Sys2Proof.Machine

/-- The reset event changes nothing right after reset: the fields it keeps are those of the state it meets (R241). -/
theorem resetEvent_reset : resetEvent State.reset = State.reset := rfl

theorem Params.legal_default : Params.default.legal = true := by decide

/-- The reset event establishes the invariant from every state of a legal configuration (R10), the invariant or not:
both channels are the reset one. -/
theorem inv_resetEvent_of_legal {s : State} (hlegal : s.cfg.legal = true) : (resetEvent s).inv = true := by
  have hchan (c : Channel) : ((resetEvent s).chan c).inv s.cfg = true := by
    rw [resetEvent_chan]
    exact Chan.inv_reset hlegal
  exact State.inv_iff.2 ⟨hlegal, hchan, rfl⟩

/-! The statements. -/

/-- Settles O59: the default configuration is legal, so the reset event establishes the invariant. -/
theorem resetInv : Obligations.ResetInv := by
  unfold Obligations.ResetInv
  rw [← resetEvent_reset]
  exact inv_resetEvent_of_legal Params.legal_default

/-- Settles O60: the reset event leaves the table of R244 in every state. -/
theorem resetValues : Obligations.ResetValues := by
  unfold Obligations.ResetValues
  rw [← resetEvent_reset]
  exact atReset_resetEvent State.reset

end Sys2Proof.Machine
end
